-- ==== Sys2Proof/Word.lean ====
section
/-! DEFINITION. The word and value types, the two ports, and the memory type (spec 00_scope.md R9, R12, R13;
20_memory.md R50). -/

namespace Sys2Proof

/-- Everything that enters or leaves the engine is a 32-bit word; bit 0 is the least significant (R9, R70). -/
abbrev Word := BitVec 32

/-- `Val` of the numerics record at its decided instance: the set of IEEE 754 binary32 bit patterns (R13). -/
abbrev Val := BitVec 32

/-- `val_of_bits` (R12): a bijection, the identity on the decided instance. -/
abbrev valOfBits (w : Word) : Val := w

/-- `bits_of` (R12), the inverse of `valOfBits`. -/
abbrev bitsOf (v : Val) : Word := v

/-- The two ports (R71): each belongs to one host agent (R15). -/
inductive Port where
  | audio
  | control
deriving DecidableEq, Repr

/-- One channel's bank of the delay RAM: pairs of a slot number and the word it holds. The addressable unit is one
32-bit word, there are no bytes (R50, R54; log 11). In canonical form slot numbers rise strictly and no listed word is
the one an unlisted slot reads as. -/
abbrev Memory := List (Nat × Word)

end Sys2Proof
end

