-- ==== Sys2Proof/Syntax.lean ====
section
/-! DEFINITION. The thirteen commands (spec 30_encoding.md R75, R76; spec/opcode_table.json, row by row). -/

namespace Sys2Proof

/-- The engine's commands, one constructor per row of the opcode table. `numSamples` is the header's `ARG`; the samples of
a block are not operands of the command but words the block consumes one tick at a time (R58, R82, R159). -/
inductive Instr where
  /-- `PREPARE sampleRate, maxBlockSize, numChannels`: binary64 pattern and two signed integers (R80, R170). -/
  | prepare (sampleRate : BitVec 64) (maxBlockSize numChannels : Int)
  /-- `RESET` (R177). -/
  | reset
  /-- `PROCESS numSamples` (R78, R159). -/
  | process (numSamples : Nat)
  /-- `SETRATE value`, a binary32 pattern (R79, R104). -/
  | setRate (value : Word)
  /-- `SETDEPTH value` (R105). -/
  | setDepth (value : Word)
  /-- `SETCENTREDELAY value` (R106). -/
  | setCentreDelay (value : Word)
  /-- `SETFEEDBACK value` (R107). -/
  | setFeedback (value : Word)
  /-- `SETMIX value` (R108). -/
  | setMix (value : Word)
  /-- `GETRATE` (R110). -/
  | getRate
  /-- `GETDEPTH` (R111). -/
  | getDepth
  /-- `GETCENTREDELAY` (R112). -/
  | getCentreDelay
  /-- `GETFEEDBACK` (R113). -/
  | getFeedback
  /-- `GETMIX` (R114). -/
  | getMix
deriving DecidableEq, Repr

/-- The four command formats (R75). -/
inductive Format where
  /-- header only -/
  | h
  /-- header and one value word -/
  | hv
  /-- header and four words -/
  | hp
  /-- header, then `NCH * numSamples` sample words -/
  | hs
deriving DecidableEq, Repr

/-- The thirteen rows of the opcode map by name, without operands (R76). -/
inductive Op where
  | prepare | reset | process
  | setRate | setDepth | setCentreDelay | setFeedback | setMix
  | getRate | getDepth | getCentreDelay | getFeedback | getMix
deriving DecidableEq, Repr

/-- The row a command belongs to. -/
def Instr.op : Instr → Op
  | .prepare _ _ _ => .prepare
  | .reset => .reset
  | .process _ => .process
  | .setRate _ => .setRate
  | .setDepth _ => .setDepth
  | .setCentreDelay _ => .setCentreDelay
  | .setFeedback _ => .setFeedback
  | .setMix _ => .setMix
  | .getRate => .getRate
  | .getDepth => .getDepth
  | .getCentreDelay => .getCentreDelay
  | .getFeedback => .getFeedback
  | .getMix => .getMix

end Sys2Proof
end

