-- ==== Sys2Proof/WellFormed.lean ====
section
/-! DEFINITION. Which command terms the encoding can carry (spec 30_encoding.md R78, R80). -/

namespace Sys2Proof

/-- An integer that `sext_32` can give: two's complement, 32 bits (R80). -/
abbrev fitsInt32 (z : Int) : Prop := -2 ^ 31 ≤ z ∧ z < 2 ^ 31

/-- A count that `zext_24(ARG)` can give: 0 to 2^24 - 1 (R78). -/
abbrev fitsArg (n : Nat) : Prop := n < 2 ^ 24

/-- The operands of a command lie in the ranges its encoding admits, as a test that runs. The other operand types admit
every value (R79, R80). -/
def Instr.wellFormed : Instr → Bool
  | .prepare _ maxBlockSize numChannels => decide (fitsInt32 maxBlockSize) && decide (fitsInt32 numChannels)
  | .process numSamples => decide (fitsArg numSamples)
  | .reset | .setRate _ | .setDepth _ | .setCentreDelay _ | .setFeedback _ | .setMix _ => true
  | .getRate | .getDepth | .getCentreDelay | .getFeedback | .getMix => true

/-- A command term that some words encode. -/
abbrev Instr.WellFormed (i : Instr) : Prop := i.wellFormed = true

end Sys2Proof
end

