-- ==== Sys2Proof/Decode.lean ====
section
/-! DEFINITION. The opcode map, the decoder, and the encoder (spec 30_encoding.md R73 to R86). -/

namespace Sys2Proof

/-- One row of the opcode map: the command, its format, the port that may carry it, and the header bits that select it
(R76). -/
structure Row where
  op : Op
  format : Format
  port : Port
  matchBits : Word
  mask : Word
deriving DecidableEq, Repr

/-- The row of each command (R76): every bit of a header that is fixed stands here once. -/
def Op.row (op : Op) : Row :=
  match op with
  | .prepare => ⟨.prepare, .hp, .audio, 0x01000000#32, 0xFFFFFFFF#32⟩
  | .reset => ⟨.reset, .h, .audio, 0x02000000#32, 0xFFFFFFFF#32⟩
  | .process => ⟨.process, .hs, .audio, 0x03000000#32, 0xFF000000#32⟩
  | .setRate => ⟨.setRate, .hv, .control, 0x10000000#32, 0xFFFFFFFF#32⟩
  | .setDepth => ⟨.setDepth, .hv, .control, 0x11000000#32, 0xFFFFFFFF#32⟩
  | .setCentreDelay => ⟨.setCentreDelay, .hv, .control, 0x12000000#32, 0xFFFFFFFF#32⟩
  | .setFeedback => ⟨.setFeedback, .hv, .control, 0x13000000#32, 0xFFFFFFFF#32⟩
  | .setMix => ⟨.setMix, .hv, .control, 0x14000000#32, 0xFFFFFFFF#32⟩
  | .getRate => ⟨.getRate, .h, .control, 0x18000000#32, 0xFFFFFFFF#32⟩
  | .getDepth => ⟨.getDepth, .h, .control, 0x19000000#32, 0xFFFFFFFF#32⟩
  | .getCentreDelay => ⟨.getCentreDelay, .h, .control, 0x1A000000#32, 0xFFFFFFFF#32⟩
  | .getFeedback => ⟨.getFeedback, .h, .control, 0x1B000000#32, 0xFFFFFFFF#32⟩
  | .getMix => ⟨.getMix, .h, .control, 0x1C000000#32, 0xFFFFFFFF#32⟩

/-- The opcode map, complete: exactly thirteen commands (R76). -/
def opcodeTable : List Row :=
  [ Op.prepare.row, Op.reset.row, Op.process.row,
    Op.setRate.row, Op.setDepth.row, Op.setCentreDelay.row, Op.setFeedback.row, Op.setMix.row,
    Op.getRate.row, Op.getDepth.row, Op.getCentreDelay.row, Op.getFeedback.row, Op.getMix.row ]

/-- A header selects a row when `(h AND mask) = match` (R76). -/
def Row.selects (r : Row) (h : Word) : Bool := h &&& r.mask == r.matchBits

/-- The row a header selects, whatever the port. -/
def rowOf (h : Word) : Option Row := opcodeTable.find? (·.selects h)

/-- `OPC`, bits 31:24 of a header (R73). -/
def opcField (h : Word) : Nat := (h.extractLsb' 24 8).toNat

/-- `ARG`, bits 23:0 of a header, zero extended (R73, R78). -/
def argField (h : Word) : Nat := (h.extractLsb' 0 24).toNat

/-- Why a header is illegal: the three cases of R84. All three raise the same fault, so their order is immaterial
(R197). -/
inductive Reject where
  /-- case 1: no row has this `OPC` -/
  | reservedOpcode
  /-- case 2: `ARG` is not zero where it must be -/
  | nonzeroArg
  /-- case 3: the command belongs to the other port -/
  | wrongPort
deriving DecidableEq, Repr

/-- What the decoder makes of the words a port has delivered so far. -/
inductive Decoded where
  /-- a whole command, and the words after it -/
  | command (i : Instr) (rest : List Word)
  /-- an illegal header (R84) -/
  | illegal (why : Reject)
  /-- nothing to decode yet: no header, or a payload word still to come (R72) -/
  | incomplete
deriving DecidableEq, Repr

/-- A command of format HV once its value word is there (R75, R79). -/
def takeValue (make : Word → Instr) : List Word → Decoded
  | value :: rest => .command (make value) rest
  | [] => .incomplete

/-- A command of format HP once its four words are there: `SR_HI ++ SR_LO`, then the two signed integers (R75, R80). -/
def takePrepare : List Word → Decoded
  | srHi :: srLo :: maxBlkArg :: nchArg :: rest =>
    .command (.prepare (srHi ++ srLo) maxBlkArg.toInt nchArg.toInt) rest
  | _ => .incomplete

/-- The operands of the selected command, from its header and the words after it (R75, R78 to R80). -/
def assemble (op : Op) (h : Word) (payload : List Word) : Decoded :=
  match op with
  | .prepare => takePrepare payload
  | .reset => .command .reset payload
  | .process => .command (.process (argField h)) payload
  | .setRate => takeValue .setRate payload
  | .setDepth => takeValue .setDepth payload
  | .setCentreDelay => takeValue .setCentreDelay payload
  | .setFeedback => takeValue .setFeedback payload
  | .setMix => takeValue .setMix payload
  | .getRate => .command .getRate payload
  | .getDepth => .command .getDepth payload
  | .getCentreDelay => .command .getCentreDelay payload
  | .getFeedback => .command .getFeedback payload
  | .getMix => .command .getMix payload

/-- The name for a header no row selects: its `OPC` is unknown, or its `ARG` should have been zero (R84). -/
def rejectUnselected (h : Word) : Reject :=
  if opcodeTable.any fun r => opcField r.matchBits == opcField h then .nonzeroArg else .reservedOpcode

/-- Decoding, total on every list of words and every port (R76, R84, R86). -/
def decode (p : Port) : List Word → Decoded
  | [] => .incomplete
  | h :: payload =>
    match rowOf h with
    | none => .illegal (rejectUnselected h)
    | some r => if r.port = p then assemble r.op h payload else .illegal .wrongPort

/-- The port that carries a command (R71, R196). -/
def Instr.port (i : Instr) : Port := i.op.row.port

/-- Words of a format that are part of the command itself: the header and the operand words, not the samples of a block
(R75, R82). -/
def Format.words : Format → Nat
  | .h => 1
  | .hv => 2
  | .hp => 5
  | .hs => 1

/-- How many words a command occupies before any sample (R82). -/
def Instr.words (i : Instr) : Nat := i.op.row.format.words

/-! The encoder, from the same opcode map. -/

/-- The header of a command: its row's fixed bits, with `numSamples` in `ARG` for PROCESS (R73, R76, R78). -/
def Instr.header (i : Instr) : Word :=
  match i with
  | .process numSamples => i.op.row.matchBits ||| BitVec.ofNat 32 numSamples
  | _ => i.op.row.matchBits

/-- The operand words of a command (R75, R79, R80). -/
def Instr.payload : Instr → List Word
  | .prepare sampleRate maxBlockSize numChannels =>
    [sampleRate.extractLsb' 32 32, sampleRate.extractLsb' 0 32, BitVec.ofInt 32 maxBlockSize, BitVec.ofInt 32 numChannels]
  | .setRate v | .setDepth v | .setCentreDelay v | .setFeedback v | .setMix v => [v]
  | .reset | .process _ | .getRate | .getDepth | .getCentreDelay | .getFeedback | .getMix => []

/-- The words of a command, header first (R75). -/
def encode (i : Instr) : List Word := i.header :: i.payload

/-! The opcode table's own numbering of an instruction's bits: bit 0 is bit 0 of the first word. -/

/-- Word `k` of an instruction given as one number. -/
def wordAt (bits k : Nat) : Word := BitVec.ofNat 32 (bits / 2 ^ (32 * k))

/-- The port whose commands a header may select; AUDIO for a header no row selects (log 17). -/
def homePort (h : Word) : Port :=
  match rowOf h with
  | some r => r.port
  | none => .audio

/-- How many words the command a header selects occupies before any sample; one for a header no row selects. -/
def commandWords (h : Word) : Nat :=
  match rowOf h with
  | some r => r.format.words
  | none => 1

/-- The words of an instruction whose low `nbits` bits are those of `w` and whose other bits are 0. -/
def tableWords (nbits w : Nat) : List Word :=
  let bits := w % 2 ^ nbits
  (List.range (commandWords (wordAt bits 0))).map (wordAt bits)

/-- The instruction the decoder reads from the words of `tableWords`, on the port that carries them. -/
def decodeTableWord (nbits w : Nat) : Option Instr :=
  match decode (homePort (wordAt (w % 2 ^ nbits) 0)) (tableWords nbits w) with
  | .command i _ => some i
  | _ => none

end Sys2Proof
end

