-- ==== Sys2Proof/Config.lean ====
section
/-! DEFINITION. What an implementation fixes (spec 00_scope.md R8, R32) and the free values: constants without a body,
about which nothing can be proved. -/

namespace Sys2Proof

/-! ## The decided values, and the spec's defaults of the open ones -/

/-- The default of `NCH_MAX` (R8, D13; log 6). -/
def Config.nchMax : Nat := 2

/-- The default of `CAP_MAX` (R8, D12; log 6). -/
def Config.capMax : Nat := 65536

/-- `MARGIN`, the safety margin of the capacity formula in samples (R8, R173, D12). -/
def Config.margin : Nat := 2

/-- `SR_MIN`, the lowest accepted sample rate: 1.0 Hz (R8, D14). -/
def Config.srMin : Val := 0x3F800000#32

/-- `CENTRE_MAX` of the capacity formula, milliseconds (R8, R173). -/
def Config.centreMax : Nat := 100

/-- `DEPTH_MAX` of the capacity formula (R8, R173). -/
def Config.depthMax : Nat := 1

/-- The default of `PHASE_OFFSET[ch]`: +0 for every channel (R8, U12, D20; log 6). -/
def Config.phaseOffset (_ch : Nat) : Val := 0x00000000#32

/-! ## The open parameters -/

/-- The parameters R8 leaves open: arguments of the model, not state (R32). A claim may quantify over them. -/
structure Hardware where
  /-- `NCH_MAX`, the most channels the hardware has delay RAM for (D13) -/
  nchMax : Nat
  /-- `CAP_MAX`, words of delay RAM per channel (D12) -/
  capMax : Nat
  /-- `PHASE_OFFSET[ch]` (U12, D20) -/
  phaseOffset : Nat → Val
  /-- `LFO_WAVE` (U3, D19) -/
  wave : Val → Val

/-! ## Free values -/

/-- The arithmetic operations that can produce a NaN, one name for each place where a rule performs one: the free bit
pattern of a produced NaN (U6) may differ from place to place. -/
inductive NanSite where
  | sampleRate | increment
  | oscSum | oscWrap
  | delayT1 | delayT2 | delayT3 | delayT4 | delayD0
  | split | lerpSub | lerpMul | lerpAdd
  | feedbackMul | feedbackAdd
  | phaseSum | phaseWrap
  | mixGain | mixDry | mixWet | mixSum
deriving DecidableEq, Repr

/-- FREE VALUE: the bit pattern of a NaN that arithmetic produces (U6, R13), by the model's counter and the place
(log 7). -/
opaque Config.freeNan : Nat → NanSite → Word

/-- FREE VALUE: the wave function away from its named points and before it is held inside its named range (U3, R121;
log 5). -/
opaque Config.freeWave : Val → Val

/-- FREE VALUE: the words left in 32-bit registers by a refused PREPARE (U11, R35), by the model's counter and a register
number (log 8). -/
opaque Config.freeWord : Nat → Nat → Word

/-- FREE VALUE: the integers left in integer registers by a refused PREPARE (U11, R35; log 8). -/
opaque Config.freeNat : Nat → Nat → Nat

/-- FREE VALUE: what a refused PREPARE leaves in a bank of delay RAM, as writes of words to slots (U11, R35; log 8). -/
opaque Config.freeSlots : Nat → Nat → List (Nat × Word)

end Sys2Proof
end

