-- ==== Sys2Proof/Machine/Numerics.lean ====
section
/-! DEFINITION. The numerics record `N` at its decided instance: IEEE 754 binary32, round to nearest, ties to even
(spec 00_scope.md R12, R13). Every finite value is a whole number of units of 2^-149, so exact results are ratios of
integers and are rounded once, in one place (`roundMag`). The encodings and the special-value rules are IEEE 754's,
PRESUMED (G1, G2; log 16). -/

namespace Sys2Proof.Machine

/-- Units of 2^-149 in 1.0. -/
def unitsPerOne : Nat := 2 ^ 149

/-- The magnitude bits of infinity: exponent all ones, fraction 0. -/
def infBits : Nat := 0x7F800000

/-! ## The fields of a value -/

/-- The sign bit. -/
def signBit (a : Val) : Bool := a.msb

/-- The 31 bits below the sign. -/
def magBits (a : Val) : Nat := a.toNat % 2 ^ 31

/-- The biased exponent, 8 bits. -/
def expField (a : Val) : Nat := magBits a / 2 ^ 23

/-- The fraction, 23 bits. -/
def fracField (a : Val) : Nat := a.toNat % 2 ^ 23

/-- A value with the given sign and magnitude bits. -/
def withSign (neg : Bool) (mag : Nat) : Val := BitVec.ofNat 32 ((if neg then 2 ^ 31 else 0) + mag)

/-- `isnan` (R12). -/
def isNan (a : Val) : Bool := infBits < magBits a

/-- Plus or minus infinity. -/
def isInf (a : Val) : Bool := magBits a == infBits

/-- Neither infinite nor NaN. -/
def isFinite (a : Val) : Bool := magBits a < infBits

/-- Plus or minus zero. -/
def isZero (a : Val) : Bool := magBits a == 0

/-- The magnitude of a finite value in units of 2^-149. Infinity gives 2^277, above every finite value. -/
def magUnits (a : Val) : Nat :=
  if expField a = 0 then fracField a else (2 ^ 23 + fracField a) * 2 ^ (expField a - 1)

/-- The exact value in units of 2^-149. -/
def toUnits (a : Val) : Int := if signBit a then -(magUnits a : Int) else magUnits a

/-- `rat_of` (R12): the exact value of a finite `Val`. -/
def ratOf (a : Val) : Rat := (toUnits a : Rat) / (unitsPerOne : Rat)

/-! ## Rounding -/

/-- The magnitude bits of the value nearest `num / den` units, ties to even; infinity when it is too large (R13). With
`s` the number of bits dropped below the 24 kept ones, the encoding of `m * 2^s` units is `s * 2^23 + m`, also when `m`
was rounded up to 2^24 and when the value is subnormal (`s = 0`). -/
def roundMag (num den : Nat) : Nat :=
  let s := Nat.log2 (num / den) - 23
  let d := den * 2 ^ s
  let m := num / d
  let r := num % d
  let m' := if d < 2 * r ∨ (2 * r = d ∧ m % 2 = 1) then m + 1 else m
  min (s * 2 ^ 23 + m') infBits

/-- A signed value rounded once. -/
def roundVal (neg : Bool) (num den : Nat) : Val := withSign neg (roundMag num den)

/-! ## Constants -/

def posZero : Val := 0x00000000#32
def negZero : Val := 0x80000000#32
def valOne : Val := 0x3F800000#32
def valNegOne : Val := 0xBF800000#32
def valQuarter : Val := 0x3E800000#32
def valHalf : Val := 0x3F000000#32
def valThreeQuarters : Val := 0x3F400000#32
def valHundred : Val := 0x42C80000#32
/-- `lit("0.1")` (R24): the binary32 value nearest one tenth. -/
def valTenth : Val := 0x3DCCCCCD#32
/-- `lit("1000.0")` (R150). -/
def valThousand : Val := 0x447A0000#32
def posInf : Val := 0x7F800000#32

/-- `lit` (R12): the value nearest the decimal literal `num / den`, with a sign. -/
def lit (neg : Bool) (num den : Nat) : Val := roundVal neg (num * unitsPerOne) den

/-! ## Arithmetic. `nan` is the pattern a produced NaN takes: the caller's free value (U6). -/

/-- The value with the sign bit turned over. -/
def fneg (a : Val) : Val := a ^^^ negZero

/-- `fadd` (R12, R13). An exact zero sum is +0, but for -0 plus -0. -/
def fadd (nan a b : Val) : Val :=
  if isNan a || isNan b then nan
  else if isInf a then (if isInf b && (signBit a != signBit b) then nan else a)
  else if isInf b then b
  else
    let x := toUnits a + toUnits b
    if x = 0 then (if signBit a && signBit b then negZero else posZero)
    else roundVal (decide (x < 0)) x.natAbs 1

/-- `fsub` (R12, R13). -/
def fsub (nan a b : Val) : Val := if isNan b then nan else fadd nan a (fneg b)

/-- `fmul` (R12, R13). -/
def fmul (nan a b : Val) : Val :=
  let neg := signBit a != signBit b
  if isNan a || isNan b then nan
  else if isInf a || isInf b then (if isZero a || isZero b then nan else withSign neg infBits)
  else roundVal neg (magUnits a * magUnits b) unitsPerOne

/-- `fdiv` (R12, R13). -/
def fdiv (nan a b : Val) : Val :=
  let neg := signBit a != signBit b
  if isNan a || isNan b then nan
  else if isInf a then (if isInf b then nan else withSign neg infBits)
  else if isInf b then withSign neg 0
  else if isZero b then (if isZero a then nan else withSign neg infBits)
  else roundVal neg (magUnits a * unitsPerOne) (magUnits b)

/-! ## Comparisons: false with a NaN operand, and the two zeros are equal (R13) -/

/-- `flt` (R12). -/
def flt (a b : Val) : Bool := !isNan a && !isNan b && decide (toUnits a < toUnits b)

/-- `fle` (R12). -/
def fle (a b : Val) : Bool := !isNan a && !isNan b && decide (toUnits a ≤ toUnits b)

/-- `feq` (R12). -/
def feq (a b : Val) : Bool := !isNan a && !isNan b && decide (toUnits a = toUnits b)

/-! ## Integral values and conversions -/

/-- `ffloor` (R12), exact. A zero result keeps the operand's sign; infinities and NaNs pass unchanged. -/
def ffloor (a : Val) : Val :=
  if isFinite a then
    let k := toUnits a / (unitsPerOne : Int)
    roundVal (signBit a) (k.natAbs * unitsPerOne) 1
  else a

/-- `nat_of` (R12), for an integral, finite, non-negative value. -/
def natOf (a : Val) : Nat := magUnits a / unitsPerOne

/-- `val_of_nat` (R12). -/
def valOfNat (n : Nat) : Val := roundVal false (n * unitsPerOne) 1

/-- `val_of_f64` (R12, R174): the value nearest a binary64 pattern; NaN to NaN, infinities kept. A finite binary64 value
is a whole number of units of 2^-1074, and 2^925 of those, here (2^185)^5, are one unit of 2^-149. -/
def valOfF64 (nan : Val) (b : BitVec 64) : Val :=
  let neg := b.msb
  let e := b.toNat / 2 ^ 52 % 2 ^ 11
  let f := b.toNat % 2 ^ 52
  if e = 2047 then (if f = 0 then withSign neg infBits else nan)
  else roundVal neg (if e = 0 then f else (2 ^ 52 + f) * 2 ^ (e - 1)) ((2 ^ 185) ^ 5)

/-- Any word made a NaN pattern: exponent all ones, fraction not 0. Every NaN pattern is its own image, so this is every
NaN pattern and nothing else (U6). -/
def asNan (raw : Word) : Val :=
  let w := raw ||| 0x7F800000#32
  if fracField w = 0 then w ||| 0x00400000#32 else w

/-! ## Integers (R10) -/

/-- The least integer not below `num / den`. -/
def ceilDiv (num den : Nat) : Nat := (num + den - 1) / den

/-- `pow2ceil(n)`: the smallest power of two that is at least `n` (R10). -/
def pow2ceil (n : Nat) : Nat := if n ≤ 1 then 1 else 2 ^ (Nat.log2 (n - 1) + 1)

end Sys2Proof.Machine
end

