-- ==== Sys2Proof/Machine/State.lean ====
section
/-! DEFINITION. The whole state of the engine as plain data, its power-on value, and the reasons a step can stop
(spec 10_state.md, 70_reset_and_hazards.md R220). -/

namespace Sys2Proof.Machine

/-- `ENGINE_STATE`, one bit (R22): 0 is Unprepared, 1 is Prepared. -/
inductive EngineState where
  | unprepared
  | prepared
deriving DecidableEq, Repr

/-- The five parameter values: the live bank `P` (R24) and the snapshot bank `S` (R27) each hold one. -/
structure Params where
  rate : Val
  depth : Val
  centreDelay : Val
  feedback : Val
  mix : Val
deriving DecidableEq, Repr

/-- The Default column of the parameter table (R24). -/
def Params.default : Params := ⟨valOne, posZero, valOne, valOne, valHalf⟩

/-- What the hardware holds for one channel: `PHASE[ch]`, `CURSOR[ch]` (R29) and the bank `DL[ch]` (R30). -/
structure Channel where
  phase : Val
  cursor : Nat
  dl : Memory
deriving DecidableEq, Repr

/-- A channel at power-on: the spec leaves all three unspecified (R34); the model names zeros (log 9, log 11). -/
def Channel.blank : Channel := ⟨posZero, 0, []⟩

/-- What the environment does next: a word arrives on a port, or power-on reset happens (R70, R220, U17; log 2). -/
inductive Input where
  | word (p : Port) (w : Word)
  | powerOn
deriving DecidableEq, Repr

/-- The state of the engine and of its two ports. -/
structure State where
  /-- `ENGINE_STATE` (R22) -/
  engineState : EngineState
  /-- `FAULT` (R23) -/
  fault : Bool
  /-- `FAULT_CODE` (R23) -/
  faultCode : Word
  /-- the live parameter bank `P` (R24) -/
  params : Params
  /-- the snapshot bank `S` (R27) -/
  snapshot : Params
  /-- `INC` (R27) -/
  inc : Val
  /-- `SR` (R28) -/
  sr : Val
  /-- `MAXBLK` (R28) -/
  maxBlk : Word
  /-- `NCH` (R28) -/
  nch : Nat
  /-- `CAP` (R28) -/
  cap : Nat
  /-- the per-channel registers and delay RAM banks, `NCH_MAX` of them (R29, R30; log 12) -/
  chans : List Channel
  /-- `BLK_N` (R31) -/
  blkN : Nat
  /-- `CH_IDX` (R31) -/
  chIdx : Nat
  /-- `SMP_IDX` (R31) -/
  smpIdx : Nat
  /-- a PROCESS command is in progress: the next AUDIO word is a sample (R72, R159; log 4) -/
  blockRunning : Bool
  /-- words of an AUDIO command taken and not yet executed (R72, R206; log 4) -/
  audioTaken : List Word
  /-- words of a CONTROL command taken and not yet executed (R72, R206; log 4) -/
  controlTaken : List Word
  /-- the AUDIO output stream, oldest word first (R70, R74) -/
  audioOut : List Word
  /-- the CONTROL output stream, oldest word first (R70, R74) -/
  controlOut : List Word
  /-- what arrives next, on both ports in one total order (R58, R70; log 2) -/
  inputs : List Input
  /-- the model's own: indexes the free values (log 7) -/
  freeCount : Nat
deriving DecidableEq, Repr

/-- Why a step of the model stops. Neither is a fault of the engine (that one is state: `FAULT`, R203). -/
inductive Fault where
  /-- A tick addressed a channel outside `0 .. NCH-1`, which does not exist (R50). Raised by a tick; safe: no state that
  meets the invariants of R33 raises it (log 13). -/
  | noSuchChannel
  /-- A tick addressed a slot outside `0 .. CAP-1`, which does not exist (R50), or asked for a delay outside
  `[0, CAP-1]`, for which the read is not specified (R132). Raised by a tick; safe: no state that meets the invariants of
  R33 raises it (log 13). -/
  | noSuchSlot
deriving DecidableEq, Repr

/-- Why an instruction has no meaning in the model. -/
inductive Refusal where
  /-- The instruction is rejected by name, in its arm of `exec`; safe. No instruction is. -/
  | notModelled (mnemonic : String)
deriving DecidableEq, Repr

/-- The machine right after power-on reset (R34, R220). `SR`, `MAXBLK`, `NCH`, `CAP`, the channels and the block counters
are unspecified there; the zeros are the model's (log 9, log 11). -/
def State.reset : State where
  engineState := .unprepared
  fault := false
  faultCode := 0x00000000#32
  params := Params.default
  snapshot := Params.default
  inc := posZero
  sr := posZero
  maxBlk := 0x00000000#32
  nch := 0
  cap := 0
  chans := List.replicate Config.nchMax Channel.blank
  blkN := 0
  chIdx := 0
  smpIdx := 0
  blockRunning := false
  audioTaken := []
  controlTaken := []
  audioOut := []
  controlOut := []
  inputs := []
  freeCount := 0

end Sys2Proof.Machine
end

