-- ==== Sys2Proof/Machine/Flags.lean ====
section
/-! DEFINITION. Status words and the fault flags (spec 60_exceptions.md R190 to R193; 10_state.md R23). `FAULT` and
`FAULT_CODE` are the engine's only flags; there are no condition codes and no arithmetic flags. -/

namespace Sys2Proof.Machine

/-- `ST_OK` (R190) -/
def stOk : Word := 0x00000000#32
/-- `ST_CFG_SAMPLERATE` (R190) -/
def stCfgSampleRate : Word := 0x00000011#32
/-- `ST_CFG_CHANNELS` (R190) -/
def stCfgChannels : Word := 0x00000012#32
/-- `ST_CFG_BLOCKSIZE` (R190) -/
def stCfgBlockSize : Word := 0x00000013#32
/-- `ST_CFG_CAPACITY` (R190) -/
def stCfgCapacity : Word := 0x00000014#32
/-- `ST_PARAM_NAN` (R190) -/
def stParamNan : Word := 0x00000021#32
/-- `FC_NOT_PREPARED` (R190, R201) -/
def fcNotPrepared : Word := 0x80000001#32
/-- `FC_BLOCK_TOO_LONG` (R190, R201) -/
def fcBlockTooLong : Word := 0x80000002#32
/-- `FC_ILLEGAL_CMD` (R190, R201) -/
def fcIllegalCmd : Word := 0x80000003#32
/-- `FC_FAULTED` (R190, R204) -/
def fcFaulted : Word := 0x800000FF#32

/-- All the status words the engine emits (R190). -/
def statusWords : List Word :=
  [stOk, stCfgSampleRate, stCfgChannels, stCfgBlockSize, stCfgCapacity, stParamNan,
   fcNotPrepared, fcBlockTooLong, fcIllegalCmd, fcFaulted]

/-- A status word of the fault class: bit 31 is set (R190). -/
def isFaultStatus (w : Word) : Bool := w.msb

/-- `FAULT` and `FAULT_CODE` after a fault: the first cause wins (R23, R203). -/
def setFaultFlags (code : Word) (s : State) : State :=
  { s with faultCode := if s.fault then s.faultCode else code, fault := true }

end Sys2Proof.Machine
end

