-- ==== Sys2Proof/Machine/Operands.lean ====
section
/-! DEFINITION. The forms an operand takes inside the engine: a parameter register, a slot of the delay RAM at a distance
behind the write cursor, a sample of a channel-major block (spec 10_state.md R24, 42_delay_line.md R131,
30_encoding.md R81). -/

namespace Sys2Proof.Machine

/-- The five parameter registers (R24). -/
inductive ParamReg where
  | rate
  | depth
  | centreDelay
  | feedback
  | mix
deriving DecidableEq, Repr

/-- The register numbers (R24): the low three bits of the SET and GET opcodes (R77). -/
def ParamReg.number : ParamReg → Nat
  | .rate => 0
  | .depth => 1
  | .centreDelay => 2
  | .feedback => 3
  | .mix => 4

/-- The lower bound of a register's range (R24). -/
def ParamReg.lo : ParamReg → Val
  | .rate => valTenth
  | .depth => posZero
  | .centreDelay => valOne
  | .feedback => valNegOne
  | .mix => posZero

/-- The upper bound of a register's range (R24). -/
def ParamReg.hi : ParamReg → Val
  | .rate => valHundred
  | .depth => valOne
  | .centreDelay => valHundred
  | .feedback => valOne
  | .mix => valOne

/-- Read one register of a bank. -/
def Params.get (r : ParamReg) (p : Params) : Val :=
  match r with
  | .rate => p.rate
  | .depth => p.depth
  | .centreDelay => p.centreDelay
  | .feedback => p.feedback
  | .mix => p.mix

/-- Write one register of a bank as one indivisible value (R56). -/
def Params.put (r : ParamReg) (v : Val) (p : Params) : Params :=
  match r with
  | .rate => { p with rate := v }
  | .depth => { p with depth := v }
  | .centreDelay => { p with centreDelay := v }
  | .feedback => { p with feedback := v }
  | .mix => { p with mix := v }

/-- `clamp(v, lo, hi)`: the bounds are compared in this order, and no arithmetic is done on `v` (R100). -/
def clamp (v lo hi : Val) : Val :=
  if flt v lo then lo else if flt hi v then hi else v

/-- `idx(ch, k)`: the slot `k` positions behind the write cursor, with the mathematical `mod` (R10, R131, R166). -/
def slotBehind (cap cursor k : Nat) : Nat := (((cursor : Int) - (k : Int)) % (cap : Int)).toNat

/-- The channel and the time of input word `j` of a block of `n` samples a channel (R81). -/
def sampleOf (n j : Nat) : Nat × Nat := (j / n, j % n)

end Sys2Proof.Machine
end

