-- ==== Sys2Proof/Machine/Ops.lean ====
section
/-! DEFINITION. The named operations over memory, registers, ports and faults that the commands are built from
(spec 20_memory.md, 60_exceptions.md, 70_reset_and_hazards.md). -/

namespace Sys2Proof.Machine

/-! ## One bank of delay RAM -/

/-- What a slot that is not listed reads as: +0, the value CLEAR writes (R176). At power-on the spec gives the delay RAM no
value (log 11). -/
def blankWord : Word := 0x00000000#32

/-- Read one word. A read has no side effect (R56). -/
def Memory.read : Memory → Nat → Word
  | [], _ => blankWord
  | (a, v) :: m, k => if a = k then v else Memory.read m k

/-- Write one whole word (R56), keeping the canonical form: writing `blankWord` unlists the slot. -/
def Memory.write : Memory → Nat → Word → Memory
  | [], k, v => if v = blankWord then [] else [(k, v)]
  | (a, u) :: m, k, v =>
    if k < a then (if v = blankWord then (a, u) :: m else (k, v) :: (a, u) :: m)
    else if k = a then (if v = blankWord then m else (k, v) :: m)
    else (a, u) :: Memory.write m k v

/-- The canonical form: slot numbers rise strictly, and no listed word is `blankWord`. -/
abbrev Memory.wf (m : Memory) : Prop :=
  m.Pairwise (fun x y => x.1 < y.1) ∧ ∀ c ∈ m, c.2 ≠ blankWord

/-- +0 in every slot below `cap` (R176); the slots above are not the engine's (R30). -/
def Memory.clearBelow (cap : Nat) (m : Memory) : Memory := m.filter fun c => decide (cap ≤ c.1)

/-- The memory that some writes, in order, leave in an empty bank. -/
def Memory.ofWrites (ws : List (Nat × Word)) : Memory :=
  ws.foldl (fun m c => Memory.write m c.1 c.2) []

/-! ## Accessors -/

/-- `DL[ch][k]` (R11, R50). A channel that does not exist reads as an empty bank does. -/
def State.slot (s : State) (ch k : Nat) : Word :=
  match s.chans[ch]? with
  | some c => Memory.read c.dl k
  | none => blankWord

/-- `PHASE[ch]` (R29). -/
def State.phase (s : State) (ch : Nat) : Val :=
  match s.chans[ch]? with
  | some c => c.phase
  | none => posZero

/-- `CURSOR[ch]` (R29). -/
def State.cursor (s : State) (ch : Nat) : Nat :=
  match s.chans[ch]? with
  | some c => c.cursor
  | none => 0

/-- The NaN pattern each operation of the present step would produce: free values (U6; log 7). -/
def State.nan (s : State) (site : NanSite) : Val := asNan (Config.freeNan s.freeCount site)

/-- The words of a command the port has taken and not yet executed (R72, R206). -/
def State.taken (s : State) : Port → List Word
  | .audio => s.audioTaken
  | .control => s.controlTaken

/-- Record the words a port has taken. -/
def State.setTaken (p : Port) (ws : List Word) (s : State) : State :=
  match p with
  | .audio => { s with audioTaken := ws }
  | .control => { s with controlTaken := ws }

/-- A port's output stream (R70). -/
def State.out (s : State) : Port → List Word
  | .audio => s.audioOut
  | .control => s.controlOut

/-- `respond(port, word)`: append a word to the port's response stream (R11, R74). -/
def respond (p : Port) (w : Word) (s : State) : State :=
  match p with
  | .audio => { s with audioOut := s.audioOut ++ [w] }
  | .control => { s with controlOut := s.controlOut ++ [w] }

/-! ## Faults -/

/-- `raise Fault(code)`, the whole of fault entry: the port is answered with the code, the first cause is kept, and the
latch is set. There is no vector, no handler and no saved state (R203). -/
def raiseFault (p : Port) (code : Word) (s : State) : State := setFaultFlags code (respond p code s)

/-- A word received while `FAULT` = 1: discarded, not decoded, answered by one `FC_FAULTED`, no state change (R85,
R204). -/
def discardWord (p : Port) (s : State) : State := respond p fcFaulted s

/-- The words of a whole command received while `FAULT` = 1: each is answered on its own (R85, R180). -/
def discardWords (p : Port) : Nat → State → State
  | 0, s => s
  | k + 1, s => discardWords p k (discardWord p s)

/-- The state after power-on reset of any hardware: `State.reset` with as many channels as the hardware has (R30, R220). -/
def State.resetOn (hw : Hardware) : State :=
  { State.reset with chans := List.replicate hw.nchMax Channel.blank }

/-- `POWER_ON` (R220): the only way out of a fault (R207); there is no return from one. A command in progress is discarded
without a response (U17). What the environment still has to deliver stays, and the free values do not start again
(log 10). -/
def powerOn (hw : Hardware) (rest : List Input) (s : State) : State :=
  { State.resetOn hw with inputs := rest, freeCount := s.freeCount }

/-! ## Clearing and losing the configuration -/

/-- One channel cleared: phase +0, cursor 0, every slot below `cap` +0 (R176). -/
def Channel.clear (cap : Nat) (c : Channel) : Channel :=
  { phase := posZero, cursor := 0, dl := Memory.clearBelow cap c.dl }

/-- `CLEAR()` (R176), shared by PREPARE and RESET: every channel below `NCH`. The others are not the engine's (R30;
log 12). -/
def clearAll (s : State) : State :=
  { s with chans := (s.chans.take s.nch).map (Channel.clear s.cap) ++ s.chans.drop s.nch }

/-- What a refused PREPARE leaves in channel `ch`: free values, in a bank of `CAP_MAX` words (R30, R35, U11; log 8). -/
def freeChannel (hw : Hardware) (count ch : Nat) : Channel :=
  { phase := Config.freeWord count (2 + ch)
    cursor := Config.freeNat count (2 + ch)
    dl := Memory.ofWrites ((Config.freeSlots count ch).filter fun c => decide (c.1 < hw.capMax)) }

/-- The effect of a refused PREPARE on the state: Unprepared, and the configuration, the per-channel registers and the
delay RAM unspecified (R35, R172; log 8). -/
def loseConfig (hw : Hardware) (s : State) : State :=
  { s with
    engineState := .unprepared
    sr := Config.freeWord s.freeCount 0
    maxBlk := Config.freeWord s.freeCount 1
    nch := Config.freeNat s.freeCount 0
    cap := Config.freeNat s.freeCount 1
    chans := (List.range hw.nchMax).map (freeChannel hw s.freeCount)
    freeCount := s.freeCount + 1 }

end Sys2Proof.Machine
end

