-- ==== Sys2Proof/Machine/Oscillator.lean ====
section
/-! DEFINITION. The `lfo_oscillator` (spec 41_oscillator.md R120 to R128). Its operations take the wave function, the phase
offset and the NaN patterns as arguments. -/

namespace Sys2Proof.Machine

/-- The named properties of a wave function (R121): W1 range on `[0, 1)`, W2 origin, W3 quadrants. W4, purity, is that it
is a function. -/
def WaveOk (wave : Val → Val) : Prop :=
  (∀ p : Val, isNan p = false → fle posZero p = true → flt p valOne = true →
    isNan (wave p) = false ∧ fle valNegOne (wave p) = true ∧ fle (wave p) valOne = true) ∧
  wave posZero = posZero ∧
  wave valQuarter = valOne ∧ isZero (wave valHalf) = true ∧ wave valThreeQuarters = valNegOne

/-- Any function made to have W1 to W3: the named points are fixed, and elsewhere the value is held in `[-1, 1]`. A
function that has the properties already is unchanged on `[0, 1)`, so nothing they allow is lost (U3; log 5). -/
def shapeWave (raw : Val → Val) (p : Val) : Val :=
  if p = posZero then posZero
  else if p = valQuarter then valOne
  else if p = valHalf then (if signBit (raw p) then negZero else posZero)
  else if p = valThreeQuarters then valNegOne
  else if isNan (raw p) then posZero
  else clamp (raw p) valNegOne valOne

/-- `LFO_WAVE`, a parameter of the model: free but for W1 to W4 (R121, U3; log 5). -/
def lfoWave (p : Val) : Val := shapeWave Config.freeWave p

/-- The hardware the machine's `exec` and `step` stand for: the spec's defaults of the open parameters, and the free wave
(R8; log 5, log 6). -/
def defaultHardware : Hardware where
  nchMax := Config.nchMax
  capMax := Config.capMax
  phaseOffset := Config.phaseOffset
  wave := lfoWave

/-- `wrap1(v)`: `v - floor(v)` (R123). -/
def wrap1 (nan v : Val) : Val := fsub nan v (ffloor v)

/-- `OSC_VALUE` (R122): the offset is added at the output and never stored. -/
def oscValue (wave : Val → Val) (offset : Val) (nan : NanSite → Val) (phase : Val) : Val :=
  wave (wrap1 (nan .oscWrap) (fadd (nan .oscSum) phase offset))

/-- `OSC_ADVANCE` (R124). -/
def oscAdvance (nan : NanSite → Val) (inc : Val) (c : Channel) : Channel :=
  { c with phase := wrap1 (nan .phaseWrap) (fadd (nan .phaseSum) c.phase inc) }

/-- The increment: one rounded division (R125). -/
def increment (nan : NanSite → Val) (rate sr : Val) : Val := fdiv (nan .increment) rate sr

/-! ## The decided instance of the wave: the sine of a whole turn, rounded to the nearest value (R121, D19). The machine
does not use it, since proofs may use W1 to W4 only (U3); the programs of the spec can be run with it (log 18). -/

/-- `pi` times 2^320, rounded down. PRESUMED: a constant of mathematics. -/
def piScaled : Nat :=
  6710401180212168915155840974220003240804194089427148950727106424351713218671805380099500388914039

/-- The sum of the Taylor terms of the sine from `term = x^(2k+1) / (2k+1)!` on, signs alternating, scaled by 2^320. -/
def sineSeries : Nat → Nat → Int → Int → Int
  | 0, _, _, _ => 0
  | fuel + 1, k, x2, term => term - sineSeries fuel (k + 1) x2 (term * x2 / 2 ^ 320 / ((2 * k + 2) * (2 * k + 3) : Nat))

/-- The sine of `r` units of 2^-149 of a turn, `r` at most a quarter turn, scaled by 2^320. -/
def sineQuarter (r : Nat) : Nat :=
  let x : Int := (2 * piScaled * r / unitsPerOne : Nat)
  (sineSeries 52 0 (x * x / 2 ^ 320) x).toNat

/-- The sine of a phase in `[0, 1)`, rounded to the nearest value. The 320 bits leave 150 below the last bit of the
smallest value; that no phase needs more is UNVERIFIED (log 18). At half a turn the exact sine is zero and W3 leaves the sign
of the zero open: -0 here, the sign of the second half turn, is a DESIGN CHOICE (log 18). -/
def sineRaw (p : Val) : Val :=
  let half := unitsPerOne / 2
  let u := magUnits p % unitsPerOne
  let v := u % half
  let r := if half / 2 < v then half - v else v
  roundVal (decide (half ≤ u)) (sineQuarter r) (2 ^ 171)

/-- The decided instance of `LFO_WAVE` (R121, D19); its zero at half a turn is -0, a DESIGN CHOICE (log 18). -/
def sineWave (p : Val) : Val := shapeWave sineRaw p

end Sys2Proof.Machine
end

