-- ==== Sys2Proof/Machine/Lifecycle.lean ====
section
/-! DEFINITION. PREPARE and RESET (spec 44_lifecycle.md R170 to R181). Each is one step on the AUDIO port. -/

namespace Sys2Proof.Machine

/-- `CAPACITY(sr)`, exact, on the rational value of a finite, non-negative `sr` (R173): the maximum delay in samples
rounded up, plus the margin, rounded up to a power of two. -/
def capacity (sr : Val) : Nat :=
  pow2ceil (ceilDiv ((Config.centreMax + Config.centreMax * Config.depthMax) * magUnits sr) (1000 * unitsPerOne)
    + Config.margin)

/-- `CHECKCFG`: the first check that fails gives the status (R171). -/
def checkCfg (hw : Hardware) (sr : Val) (maxBlockSize numChannels : Int) : Word :=
  if isNan sr || !fle Config.srMin sr || sr == posInf then stCfgSampleRate
  else if numChannels < 1 ∨ (hw.nchMax : Int) < numChannels then stCfgChannels
  else if maxBlockSize < 1 then stCfgBlockSize
  else if hw.capMax < capacity sr then stCfgCapacity
  else stOk

/-- The configuration a successful PREPARE writes, cleared, in state Prepared (R170, R175, R176). -/
def configure (sr : Val) (maxBlockSize numChannels : Int) (s : State) : State :=
  clearAll { s with
    engineState := .prepared
    sr := sr
    maxBlk := BitVec.ofInt 32 maxBlockSize
    nch := numChannels.toNat
    cap := capacity sr }

/-- `PREPARE` (R170) on any hardware: the sample rate is rounded once (R174), the operands are checked, and the engine is configured and
cleared or left Unprepared (R172). While `FAULT` = 1 the command's five words are discarded (R85). -/
def execPrepareOn (hw : Hardware) (sampleRate : BitVec 64) (maxBlockSize numChannels : Int)
    (s : State) : Host.Outcome State Fault Refusal :=
  let sr := valOfF64 (s.nan .sampleRate) sampleRate
  let st := checkCfg hw sr maxBlockSize numChannels
  if s.fault then .next (discardWords .audio 5 s)
  else if st = stOk then .next (respond .audio stOk (configure sr maxBlockSize numChannels s))
  else .next (respond .audio st (loseConfig hw s))

/-- `PREPARE` (R170) of the machine. -/
def execPrepare (sampleRate : BitVec 64) (maxBlockSize numChannels : Int) (s : State) : Host.Outcome State Fault Refusal :=
  execPrepareOn defaultHardware sampleRate maxBlockSize numChannels s

/-- `RESET` (R177). -/
def execReset (s : State) : Host.Outcome State Fault Refusal :=
  if s.fault then .next (discardWords .audio 1 s)
  else if s.engineState = .unprepared then .next (raiseFault .audio fcNotPrepared s)
  else .next (respond .audio stOk (clearAll s))

end Sys2Proof.Machine
end

