-- ==== Sys2Proof/Machine/DelayLine.lean ====
section
/-! DEFINITION. The delay line: fractional read, linear interpolator, feedback-summing write, cursor
(spec 42_delay_line.md R130 to R142). -/

namespace Sys2Proof.Machine

/-- `DL_SPLIT(d)`: integer and fractional part of a delay with `0 <= d <= CAP - 1` (R132); none for any other `d`, for
which the read is not specified (log 13). -/
def dlSplit (nan : NanSite → Val) (cap : Nat) (d : Val) : Option (Nat × Val) :=
  let fl := ffloor d
  if isFinite d && !flt d posZero && decide (natOf fl < cap) then some (natOf fl, fsub (nan .split) d fl)
  else none

/-- `LERP(a, b, f)`, the `linear_interpolator`: three operations, each rounded once (R135). -/
def lerp (nan : NanSite → Val) (a b f : Val) : Val :=
  fadd (nan .lerpAdd) a (fmul (nan .lerpMul) f (fsub (nan .lerpSub) b a))

/-- `FRAC_READ(ch, d)`: both taps are always read, as they stand before this tick's write (R52, R133, R134). -/
def fracRead (nan : NanSite → Val) (cap : Nat) (c : Channel) (d : Val) : Option Val :=
  match dlSplit nan cap d with
  | none => none
  | some (i, f) =>
    let a := Memory.read c.dl (slotBehind cap c.cursor i)
    let b := Memory.read c.dl (slotBehind cap c.cursor (i + 1))
    some (lerp nan a b f)

/-- The value the feedback-summing write stores: `x + feedback * w` (R137). No limiting (R140). -/
def fbValue (nan : NanSite → Val) (feedback x w : Val) : Val :=
  fadd (nan .feedbackAdd) x (fmul (nan .feedbackMul) feedback w)

/-- `FB_WRITE(ch, x, w)`: one word, at the write cursor (R137). -/
def fbWrite (nan : NanSite → Val) (feedback x w : Val) (c : Channel) : Channel :=
  { c with dl := Memory.write c.dl c.cursor (fbValue nan feedback x w) }

/-- `CURSOR_ADVANCE(ch)` (R138). -/
def cursorAdvance (cap : Nat) (c : Channel) : Channel := { c with cursor := (c.cursor + 1) % cap }

end Sys2Proof.Machine
end

