-- ==== Sys2Proof/Machine/Mixer.lean ====
section
/-! DEFINITION. Delay-time computation, the `dry_wet_mixer`, the tick, and the PROCESS command
(spec 43_mixer_pipeline.md R150 to R165). -/

namespace Sys2Proof.Machine

/-- `DELAYCALC(osc)`: five operations, left to right, each rounded once (R150). -/
def delayCalc (nan : NanSite → Val) (snap : Params) (sr osc : Val) : Val :=
  let t1 := fmul (nan .delayT1) snap.depth snap.centreDelay
  let t2 := fmul (nan .delayT2) t1 osc
  let t3 := fadd (nan .delayT3) snap.centreDelay t2
  let t4 := fmul (nan .delayT4) t3 sr
  fdiv (nan .delayD0) t4 valThousand

/-- `DCLAMP(d0)`: the delay held in `[0, CAP - 1]` (R151). -/
def dclamp (cap : Nat) (d0 : Val) : Val :=
  if flt d0 posZero then posZero
  else if flt (valOfNat (cap - 1)) d0 then valOfNat (cap - 1)
  else d0

/-- `MIX(x, w)`: four operations, each rounded once (R152). -/
def mixDryWet (nan : NanSite → Val) (mix x w : Val) : Val :=
  let g := fsub (nan .mixGain) valOne mix
  let yd := fmul (nan .mixDry) g x
  let yw := fmul (nan .mixWet) mix w
  fadd (nan .mixSum) yd yw

/-- `OUT(x, w)`: the input itself, bit for bit, when the mix equals zero; else the mixer (R155). -/
def mixOut (nan : NanSite → Val) (mix x w : Val) : Val :=
  if feq mix posZero then x else mixDryWet nan mix x w

/-- `TICK(ch, x)` on one channel: its new registers and delay RAM, and the output sample. It is a function of what its
arguments show and of nothing else (R156, R157). None where it would leave the channel's address space (log 13). -/
def tickChannel (wave : Val → Val) (offset : Val) (nan : NanSite → Val) (snap : Params) (inc sr : Val) (cap : Nat)
    (c : Channel) (x : Val) : Option (Channel × Val) :=
  let osc := oscValue wave offset nan c.phase
  let d := dclamp cap (delayCalc nan snap sr osc)
  match fracRead nan cap c d with
  | none => none
  | some w =>
    if c.cursor < cap then
      some (oscAdvance nan inc (cursorAdvance cap (fbWrite nan snap.feedback x w c)), mixOut nan snap.mix x w)
    else none

/-- The order of a block's ticks: the next sample of the channel, else the next channel, else the block is complete
(R161, R165). -/
def advanceBlock (s : State) : State :=
  if s.smpIdx + 1 < s.blkN then { s with smpIdx := s.smpIdx + 1 }
  else { s with smpIdx := 0, chIdx := s.chIdx + 1, blockRunning := decide (s.chIdx + 1 < s.nch) }

/-- One sample word of a running block (R159): the tick of the current channel, its output word, and the next place in the
block. -/
def sampleStep (hw : Hardware) (w : Word) (s : State) : Host.Outcome State Fault Refusal :=
  match s.chans[s.chIdx]? with
  | none => .fault .noSuchChannel
  | some c =>
    if s.chIdx < s.nch then
      match tickChannel hw.wave (hw.phaseOffset s.chIdx) s.nan s.snapshot s.inc s.sr s.cap c (valOfBits w) with
      | none => .fault .noSuchSlot
      | some (c', y) =>
        .next (advanceBlock (respond .audio (bitsOf y)
          { s with chans := s.chans.set s.chIdx c', freeCount := s.freeCount + 1 }))
    else .fault .noSuchChannel

/-- `LATCH()`: the five parameters at once, and the increment (R160). -/
def latch (s : State) : State :=
  { s with snapshot := s.params, inc := increment s.nan s.params.rate s.sr, freeCount := s.freeCount + 1 }

/-- The block counters at the start of a block of `n` samples a channel (R31, R159, R165). A block without samples is
complete at once (R163). -/
def beginBlock (n : Nat) (s : State) : State :=
  { s with blkN := n, chIdx := 0, smpIdx := 0, blockRunning := decide (0 < s.nch * n) }

/-- `PROCESS` (R159): the checks, the status word and the latch, one step. The samples follow, one step each
(`sampleStep`). -/
def execProcess (numSamples : Nat) (s : State) : Host.Outcome State Fault Refusal :=
  if s.fault then .next (discardWords .audio 1 s)
  else if s.engineState = .unprepared then .next (raiseFault .audio fcNotPrepared s)
  else if s.maxBlk.toNat < numSamples then .next (raiseFault .audio fcBlockTooLong s)
  else .next (beginBlock numSamples (latch (respond .audio stOk s)))

end Sys2Proof.Machine
end

