-- ==== Sys2Proof/Machine/Params.lean ====
section
/-! DEFINITION. The parameter commands SET and GET (spec 40_parameters.md R100 to R116). Each is one step on the CONTROL
port, in either engine state and whether or not a block is in progress (R116). -/

namespace Sys2Proof.Machine

/-- The common semantics of the SET commands (R101): a NaN is rejected and the register kept, any other value is clamped
and stored. While `FAULT` = 1 the command's two words are discarded (R85). -/
def setParam (r : ParamReg) (value : Word) (s : State) : State :=
  if s.fault then discardWords .control 2 s
  else if isNan (valOfBits value) then respond .control stParamNan s
  else respond .control stOk { s with params := s.params.put r (clamp (valOfBits value) r.lo r.hi) }

/-- The common semantics of the GET commands (R109): the live register, after `ST_OK`. -/
def getParam (r : ParamReg) (s : State) : State :=
  if s.fault then discardWords .control 1 s
  else respond .control (bitsOf (s.params.get r)) (respond .control stOk s)

/-- `SETRATE` (R104). -/
def execSetRate (value : Word) (s : State) : Host.Outcome State Fault Refusal := .next (setParam .rate value s)

/-- `SETDEPTH` (R105). -/
def execSetDepth (value : Word) (s : State) : Host.Outcome State Fault Refusal := .next (setParam .depth value s)

/-- `SETCENTREDELAY` (R106). -/
def execSetCentreDelay (value : Word) (s : State) : Host.Outcome State Fault Refusal :=
  .next (setParam .centreDelay value s)

/-- `SETFEEDBACK` (R107). -/
def execSetFeedback (value : Word) (s : State) : Host.Outcome State Fault Refusal := .next (setParam .feedback value s)

/-- `SETMIX` (R108). -/
def execSetMix (value : Word) (s : State) : Host.Outcome State Fault Refusal := .next (setParam .mix value s)

/-- `GETRATE` (R110). -/
def execGetRate (s : State) : Host.Outcome State Fault Refusal := .next (getParam .rate s)

/-- `GETDEPTH` (R111). -/
def execGetDepth (s : State) : Host.Outcome State Fault Refusal := .next (getParam .depth s)

/-- `GETCENTREDELAY` (R112). -/
def execGetCentreDelay (s : State) : Host.Outcome State Fault Refusal := .next (getParam .centreDelay s)

/-- `GETFEEDBACK` (R113). -/
def execGetFeedback (s : State) : Host.Outcome State Fault Refusal := .next (getParam .feedback s)

/-- `GETMIX` (R114). -/
def execGetMix (s : State) : Host.Outcome State Fault Refusal := .next (getParam .mix s)

end Sys2Proof.Machine
end

