-- ==== Sys2Proof/Machine/Dispatch.lean ====
section
/-! DEFINITION. One arm per command: its meaning when its words reach its port at a command boundary
(spec 30_encoding.md R76). -/

namespace Sys2Proof.Machine

def exec (i : Instr) (s : State) : Host.Outcome State Fault Refusal :=
  match i with
  | .prepare sampleRate maxBlockSize numChannels => Sys2Proof.Machine.execPrepare sampleRate maxBlockSize numChannels s
  | .reset => Sys2Proof.Machine.execReset s
  | .process numSamples => Sys2Proof.Machine.execProcess numSamples s
  | .setRate value => Sys2Proof.Machine.execSetRate value s
  | .setDepth value => Sys2Proof.Machine.execSetDepth value s
  | .setCentreDelay value => Sys2Proof.Machine.execSetCentreDelay value s
  | .setFeedback value => Sys2Proof.Machine.execSetFeedback value s
  | .setMix value => Sys2Proof.Machine.execSetMix value s
  | .getRate => Sys2Proof.Machine.execGetRate s
  | .getDepth => Sys2Proof.Machine.execGetDepth s
  | .getCentreDelay => Sys2Proof.Machine.execGetCentreDelay s
  | .getFeedback => Sys2Proof.Machine.execGetFeedback s
  | .getMix => Sys2Proof.Machine.execGetMix s

end Sys2Proof.Machine
end

