-- ==== Sys2Proof/Machine/Sequencer.lean ====
section
/-! DEFINITION. Framing and one step: taking words off the ports, decoding, executing (spec 30_encoding.md R72, R84 to R86;
20_memory.md R58; 60_exceptions.md R197, R204, R206). -/

namespace Sys2Proof.Machine

/-- What a port has after taking words: a whole command, an illegal header, or a command still short of words. In each case
the words taken so far (if it is short) and what remains to arrive. -/
inductive Fetched where
  | command (i : Instr) (remaining : List Input)
  | illegal (remaining : List Input)
  | short (taken : List Word) (remaining : List Input)
deriving DecidableEq, Repr

/-- Port `p` takes the words that arrive for it one after another, until it has a whole command or an illegal header, or
something else arrives first: a word for the other port, power-on, or nothing (R72; log 3). -/
def fetch (p : Port) (taken : List Word) : List Input → Fetched
  | .word q w :: rest =>
    if q = p then
      match decode p (taken ++ [w]) with
      | .command i extra => .command i (extra.map (.word p) ++ rest)
      | .illegal _ => .illegal rest
      | .incomplete => fetch p (taken ++ [w]) rest
    else .short taken (.word q w :: rest)
  | ins => .short taken ins

/-- The meaning of a command on any hardware: PREPARE alone looks at the open parameters (R8, R171). -/
def execOn (hw : Hardware) (i : Instr) (s : State) : Host.Outcome State Fault Refusal :=
  match i with
  | .prepare sampleRate maxBlockSize numChannels => execPrepareOn hw sampleRate maxBlockSize numChannels s
  | .reset | .process _ => exec i s
  | .setRate _ | .setDepth _ | .setCentreDelay _ | .setFeedback _ | .setMix _ => exec i s
  | .getRate | .getDepth | .getCentreDelay | .getFeedback | .getMix => exec i s

/-- A command boundary or a command in progress on port `p`: take what has arrived, and execute the command if it is whole
(R72, R86). An illegal header raises its fault and consumes no payload (R84). -/
def commandStep (hw : Hardware) (p : Port) (s : State) : Host.Outcome State Fault Refusal :=
  match fetch p (s.taken p) s.inputs with
  | .command i rest => execOn hw i (State.setTaken p [] { s with inputs := rest })
  | .illegal rest => .next (raiseFault p fcIllegalCmd (State.setTaken p [] { s with inputs := rest }))
  | .short taken rest => .next (State.setTaken p taken { s with inputs := rest })

/-- One step of the engine on any hardware: what arrives next is power-on (R220), or a word.
While `FAULT` = 1 the word is discarded (R204); in a running block an AUDIO word is a sample (R159); else it belongs to a
command (R72). With nothing to arrive the engine is idle (R214; log 3). -/
def stepOn (hw : Hardware) (s : State) : Host.Outcome State Fault Refusal :=
  match s.inputs with
  | [] => .next s
  | .powerOn :: rest => .next (powerOn hw rest s)
  | .word p w :: rest =>
    if s.fault then .next (discardWord p { s with inputs := rest })
    else if p = .audio ∧ s.blockRunning = true then sampleStep hw w { s with inputs := rest }
    else commandStep hw p s

/-- The engine after the words of one command are put where port `p` takes its next header: first among the arrivals, at a
command boundary of that port (log 17). -/
def feedWords (p : Port) (ws : List Word) (s : State) : State :=
  match p with
  | .audio => { s with inputs := ws.map (.word .audio) ++ s.inputs, audioTaken := [], blockRunning := false }
  | .control => { s with inputs := ws.map (.word .control) ++ s.inputs, controlTaken := [] }

end Sys2Proof.Machine
end

