-- ==== Sys2Proof/Machine/Step.lean ====
section
/-! DEFINITION. The machine's step, and how a word is placed for it to run next. -/

namespace Sys2Proof.Machine

/-- One step of the machine: the open parameters are the defaults, and the wave is the free one (R8,
R121; log 5, log 6). -/
def step (s : State) : Host.Outcome State Fault Refusal := stepOn defaultHardware s

/-- `s` with the instruction whose table bits are `w` arriving next on the port that carries it: commands come from the
host, the machine stores none (R21, R72; log 1, log 17). -/
def State.withFetchWord (s : State) (nbits w : Nat) : State :=
  feedWords (homePort (wordAt (w % 2 ^ nbits) 0)) (tableWords nbits w) s

end Sys2Proof.Machine
end

