-- ==== Sys2Proof/Safety.lean ====
section
/-! DEFINITION. What a good state and a good run are, in the terms the statements use (spec 10_state.md R25, R28, R33;
30_encoding.md R84). -/

namespace Sys2Proof.Machine

/-- A value of register `r` keeps the register's range (R24, R25). -/
abbrev inRange (r : ParamReg) (v : Val) : Prop := isNan v = false ∧ fle r.lo v = true ∧ fle v r.hi = true

/-- Every register of a parameter bank keeps its range (R25). -/
abbrev Params.inRange (p : Params) : Prop :=
  Machine.inRange .rate p.rate ∧ Machine.inRange .depth p.depth ∧ Machine.inRange .centreDelay p.centreDelay ∧
  Machine.inRange .feedback p.feedback ∧ Machine.inRange .mix p.mix

/-- A phase in `[0, 1)` (R29). -/
abbrev phaseInUnit (v : Val) : Prop := isNan v = false ∧ fle posZero v = true ∧ flt v valOne = true

/-- What R8 says of the open parameters: `CAP_MAX` is a power of two and at most 2^24, every offset is in `[0, 1)`, and the
wave has its named properties (R121). -/
structure HardwareOk (hw : Hardware) : Prop where
  powerOfTwo : ∃ e, hw.capMax = 2 ^ e
  addressable : hw.capMax ≤ 2 ^ 24
  offsets : ∀ ch < hw.nchMax, phaseInUnit (hw.phaseOffset ch)
  wave : WaveOk hw.wave

/-- The invariants that speak of no arithmetic result but the capacity: configuration, buffers, block counters, framing
(R28, R31, R33, R72). -/
structure StructInvOn (hw : Hardware) (s : State) : Prop where
  /-- `SR` is finite and at least `SR_MIN` in state Prepared (R28, R33) -/
  rate : s.engineState = .prepared → isFinite s.sr = true ∧ fle Config.srMin s.sr = true
  /-- `NCH` and `MAXBLK` are in range in state Prepared (R28, R33) -/
  sizes : s.engineState = .prepared →
    1 ≤ s.nch ∧ s.nch ≤ hw.nchMax ∧ 1 ≤ s.maxBlk.toNat ∧ s.maxBlk.toNat < 2 ^ 31
  /-- `CAP` is the capacity of the configured rate and fits the hardware (R28, R33, R173) -/
  cap : s.engineState = .prepared → s.cap = capacity s.sr ∧ s.cap ≤ hw.capMax
  /-- every write cursor of a configured channel is a slot of its buffer (R29, R33) -/
  cursors : s.engineState = .prepared → ∀ ch < s.nch, s.cursor ch < s.cap
  /-- the hardware holds `NCH_MAX` banks (R30) -/
  banks : s.chans.length = hw.nchMax
  /-- every bank is in canonical form and lists only slots the hardware has (R30) -/
  canonical : ∀ c ∈ s.chans, Memory.wf c.dl ∧ ∀ x ∈ c.dl, x.1 < hw.capMax
  /-- the counters of a running block point at a sample still to come (R31, R165), at a command boundary (R72) -/
  block : s.blockRunning = true → s.engineState = .prepared ∧ s.chIdx < s.nch ∧ s.smpIdx < s.blkN ∧
    s.blkN ≤ s.maxBlk.toNat ∧ s.audioTaken = []
  /-- the words an AUDIO command has taken so far do not make a whole command yet (R72) -/
  audioFraming : decode .audio s.audioTaken = .incomplete
  /-- the same on the CONTROL port (R72) -/
  controlFraming : decode .control s.controlTaken = .incomplete

/-- All invariants of the engine on any hardware: `StructInvOn`, and the ranges of the values (R25, R27, R29, R33, R126). -/
structure InvOn (hw : Hardware) (s : State) : Prop where
  struct : StructInvOn hw s
  /-- the live bank keeps its ranges (R25) -/
  params : s.params.inRange
  /-- so does the snapshot, which is a copy of it (R27, R60) -/
  snapshot : s.snapshot.inRange
  /-- `INC` is finite and lies in `[0, 100]` (R126) -/
  inc : isFinite s.inc = true ∧ fle posZero s.inc = true ∧ fle s.inc valHundred = true
  /-- every phase of a configured channel is in `[0, 1)` (R29, R33) -/
  phases : s.engineState = .prepared → ∀ ch < s.nch, phaseInUnit (s.phase ch)

/-- The structural invariants of the machine. -/
abbrev StructInv (s : State) : Prop := StructInvOn defaultHardware s

/-- All the invariants of the machine. -/
abbrev Inv (s : State) : Prop := InvOn defaultHardware s

/-- Port `p` is at a command boundary and the engine is not faulted: the next word on `p` is a header (R72, R86). -/
abbrev AwaitsHeader (p : Port) (s : State) : Prop :=
  s.fault = false ∧ s.taken p = [] ∧ (p = .audio → s.blockRunning = false)

/-- The opcodes of AUDIO commands (R76). -/
def audioOpcodes : List Nat := [0x01, 0x02, 0x03]

/-- The opcodes of CONTROL commands (R76). -/
def controlOpcodes : List Nat := [0x10, 0x11, 0x12, 0x13, 0x14, 0x18, 0x19, 0x1A, 0x1B, 0x1C]

/-- The three cases of an illegal header, in the words of the rule (R84). -/
abbrev IllegalHeader (p : Port) (h : Word) : Prop :=
  (opcField h ∉ audioOpcodes ∧ opcField h ∉ controlOpcodes) ∨
  (opcField h ≠ 0x03 ∧ argField h ≠ 0) ∨
  (opcField h ∈ audioOpcodes ∧ p = .control) ∨ (opcField h ∈ controlOpcodes ∧ p = .audio)

/-- What a run of `k` steps answers on any hardware; it ends at the first stop. -/
def runStepsOn (hw : Hardware) : Nat → State → Host.Outcome State Fault Refusal
  | 0, s => .next s
  | k + 1, s =>
    match stepOn hw s with
    | .next t => runStepsOn hw k t
    | .fault r => .fault r
    | .refused r => .refused r

/-- A run of `k` steps of the machine. -/
abbrev runSteps (k : Nat) (s : State) : Host.Outcome State Fault Refusal := runStepsOn defaultHardware k s

/-- What arrives while a block is in progress: before each sample word, the CONTROL words that come between it and the word
before it (R58). -/
abbrev Interleaved : Type := List (List Word × Word)

/-- The arrivals in their order. -/
def Interleaved.inputs (b : Interleaved) : List Input :=
  b.flatMap fun x => x.1.map (.word .control) ++ [.word .audio x.2]

/-- The CONTROL words among them. -/
def Interleaved.control (b : Interleaved) : List Word := b.flatMap (·.1)

/-- The sample words among them. -/
def Interleaved.samples (b : Interleaved) : List Word := b.map (·.2)

/-- The words are the beginning of a sequence of CONTROL commands: no header among them is illegal (R72, R84). -/
def LegalControl (ws : List Word) : Prop :=
  ∃ cmds : List Instr, (∀ i ∈ cmds, i.WellFormed ∧ i.port = .control) ∧ ws <+: cmds.flatMap encode

/-- The arrival is a word on port `p`. -/
def Input.isOn (p : Port) : Input → Bool
  | .word q _ => q == p
  | .powerOn => false

/-- The SET command of a register (R77). -/
def ParamReg.setCommand (v : Word) : ParamReg → Instr
  | .rate => .setRate v
  | .depth => .setDepth v
  | .centreDelay => .setCentreDelay v
  | .feedback => .setFeedback v
  | .mix => .setMix v

/-- The GET command of a register (R77). -/
def ParamReg.getCommand : ParamReg → Instr
  | .rate => .getRate
  | .depth => .getDepth
  | .centreDelay => .getCentreDelay
  | .feedback => .getFeedback
  | .mix => .getMix

/-- The four rounded operations of the numerics record (R12). -/
inductive ArithOp where
  | add
  | sub
  | mul
  | div
deriving DecidableEq, Repr

/-- The rounded operation. -/
def ArithOp.rounded (nan : Val) : ArithOp → Val → Val → Val
  | .add => fadd nan
  | .sub => fsub nan
  | .mul => fmul nan
  | .div => fdiv nan

/-- The exact result it stands for. -/
def ArithOp.exact : ArithOp → Rat → Rat → Rat
  | .add, x, y => x + y
  | .sub, x, y => x - y
  | .mul, x, y => x * y
  | .div, x, y => x / y

/-- The operands the properties of R14 speak of: finite, and no division by zero. -/
abbrev ArithOp.admits (op : ArithOp) (a b : Val) : Prop :=
  isFinite a = true ∧ isFinite b = true ∧ (op = .div → isZero b = false)

end Sys2Proof.Machine
end

