-- ==== Sys2Proof/Certificates/Slice0/Obligations.lean ====
section
/-! DEFINITION. The statements for the provers. Each docstring says which words of the spec it formalises. -/

open Sys2Proof Sys2Proof.Machine

/-! ## Encoding -/

/-- 30_encoding.md: what the encoder writes for a well-formed command, the decoder reads back, on the command's own port and
whatever words follow. -/
def Obligations.DecodeOfEncodeIsTheCommand : Prop :=
  ∀ (i : Instr) (rest : List Word), i.WellFormed → decode i.port (encode i ++ rest) = .command i rest

/-- 30_encoding.md: each command has one encoding; the decoder reads a command only from the words the encoder writes for
it. -/
def Obligations.DecodedWordsAreTheEncoding : Prop :=
  ∀ (p : Port) (ws : List Word) (i : Instr) (rest : List Word), decode p ws = .command i rest →
    i.WellFormed ∧ i.port = p ∧ ws = encode i ++ rest

/-- R84, R86: the decoder calls a header illegal exactly in the rule's three cases, whatever follows the header. -/
def Obligations.HeaderIllegalExactlyInThreeCases : Prop :=
  ∀ (p : Port) (h : Word) (payload : List Word), (∃ why, decode p (h :: payload) = .illegal why) ↔ IllegalHeader p h

/-- R88: the worked encodings; words written out from the encoding tables decode to the commands they stand for. -/
def Obligations.WorkedEncodingsDecode : Prop :=
  decode .audio [0x01000000#32, 0x40E77000#32, 0x00000000#32, 0x00000200#32, 0x00000001#32] =
    .command (.prepare 0x40E7700000000000#64 512 1) [] ∧
  decode .audio [0x02000000#32] = .command .reset [] ∧
  decode .control [0x12000000#32, 0x41200000#32] = .command (.setCentreDelay 0x41200000#32) [] ∧
  decode .control [0x1C000000#32] = .command .getMix [] ∧
  decode .audio [0x03000002#32, 0x3F800000#32, 0x00000000#32] =
    .command (.process 2) [0x3F800000#32, 0x00000000#32]

/-! ## Framing and the step -/

/-- R72: when the words that arrive on a port at a command boundary are those of a well-formed command, the step takes them
and is that command's meaning. -/
def Obligations.StepRunsTheDecodedCommand : Prop :=
  ∀ (s : State) (i : Instr) (rest : List Input), AwaitsHeader i.port s → i.WellFormed →
    s.inputs = (encode i).map (.word i.port) ++ rest → step s = exec i { s with inputs := rest }

/-- R72, R206: a command of which some words, perhaps none, were taken earlier, some arrive, and the last does not, has no
effect yet: the engine holds the words taken. Nothing more arrives for the port: the arrivals end, or a word of the other
port or power-on comes next. -/
def Obligations.CommandShortOfWordsOnlyWaits : Prop :=
  ∀ (s : State) (i : Instr) (j k : Nat) (rest : List Input), s.fault = false → i.WellFormed →
    (i.port = .audio → s.blockRunning = false) → j < k → k < (encode i).length →
    s.taken i.port = (encode i).take j →
    s.inputs = (((encode i).take k).drop j).map (.word i.port) ++ rest → (∀ w r, rest ≠ .word i.port w :: r) →
    step s = .next (State.setTaken i.port ((encode i).take k) { s with inputs := rest })

/-- R58, R72, R206: a command whose first words were taken earlier executes, as one step, when the others arrive. -/
def Obligations.CommandResumesWhenItsWordsArrive : Prop :=
  ∀ (s : State) (i : Instr) (k : Nat) (rest : List Input), s.fault = false → i.WellFormed → k < (encode i).length →
    (i.port = .audio → s.blockRunning = false) → s.taken i.port = (encode i).take k →
    s.inputs = ((encode i).drop k).map (.word i.port) ++ rest →
    step s = exec i (State.setTaken i.port [] { s with inputs := rest })

/-! ## Parameter commands -/

/-- R101, R104 to R108: a SET of a value that is no NaN stores it clamped to the register's range, answers ST_OK, and
changes nothing else, in every state that is not faulted. -/
def Obligations.SetStoresTheClampedValue : Prop :=
  ∀ (v : Word) (s : State), s.fault = false → isNan v = false →
    exec (.setRate v) s = .next { s with
      params := { s.params with rate := clamp v 0x3DCCCCCD#32 0x42C80000#32 }
      controlOut := s.controlOut ++ [0x00000000#32] } ∧
    exec (.setDepth v) s = .next { s with
      params := { s.params with depth := clamp v 0x00000000#32 0x3F800000#32 }
      controlOut := s.controlOut ++ [0x00000000#32] } ∧
    exec (.setCentreDelay v) s = .next { s with
      params := { s.params with centreDelay := clamp v 0x3F800000#32 0x42C80000#32 }
      controlOut := s.controlOut ++ [0x00000000#32] } ∧
    exec (.setFeedback v) s = .next { s with
      params := { s.params with feedback := clamp v 0xBF800000#32 0x3F800000#32 }
      controlOut := s.controlOut ++ [0x00000000#32] } ∧
    exec (.setMix v) s = .next { s with
      params := { s.params with mix := clamp v 0x00000000#32 0x3F800000#32 }
      controlOut := s.controlOut ++ [0x00000000#32] }

/-- The common semantics of the SET commands, case by case: a NaN is refused and the register kept, any other value is stored
clamped to the register's range with ST_OK; nothing else changes. That `exec` of a whole SET in a fault discards both words
is the model's choice (log 14). -/
def Obligations.SetFollowsTheCommonSemantics : Prop :=
  ∀ (r : ParamReg) (v : Word) (s : State),
    (s.fault = true →
      exec (r.setCommand v) s = .next { s with controlOut := s.controlOut ++ [0x800000FF#32, 0x800000FF#32] }) ∧
    (s.fault = false → isNan v = true →
      exec (r.setCommand v) s = .next { s with controlOut := s.controlOut ++ [0x00000021#32] }) ∧
    (s.fault = false → isNan v = false →
      exec (r.setCommand v) s = .next { s with
        params := s.params.put r (clamp v r.lo r.hi), controlOut := s.controlOut ++ [0x00000000#32] })

/-- The common semantics of the GET commands: the answer is ST_OK and the live register, and no state is written. That `exec`
of a whole GET in a fault discards its word is the model's choice (log 14). -/
def Obligations.GetAnswersTheLiveRegister : Prop :=
  ∀ (s : State),
    (s.fault = true → ∀ r : ParamReg,
      exec r.getCommand s = .next { s with controlOut := s.controlOut ++ [0x800000FF#32] }) ∧
    (s.fault = false →
      exec .getRate s = .next { s with controlOut := s.controlOut ++ [0x00000000#32, s.params.rate] } ∧
      exec .getDepth s = .next { s with controlOut := s.controlOut ++ [0x00000000#32, s.params.depth] } ∧
      exec .getCentreDelay s = .next { s with controlOut := s.controlOut ++ [0x00000000#32, s.params.centreDelay] } ∧
      exec .getFeedback s = .next { s with controlOut := s.controlOut ++ [0x00000000#32, s.params.feedback] } ∧
      exec .getMix s = .next { s with controlOut := s.controlOut ++ [0x00000000#32, s.params.mix] })

/-- R115: a GET that no write of its register separates from a SET returns what the SET stored, or the old value if the SET
refused a NaN. -/
def Obligations.GetReturnsWhatSetStored : Prop :=
  ∀ (r : ParamReg) (v : Word) (s u t : State), s.fault = false → exec (r.setCommand v) s = .next u →
    t.fault = false → t.params.get r = u.params.get r →
    exec r.getCommand t = .next { t with controlOut := t.controlOut ++
      [0x00000000#32, if isNan v then s.params.get r else clamp v r.lo r.hi] }

/-- R100: the clamp gives a bound or the value itself, inside the range; it is the identity on the range, gives the
nearest bound outside it, and is idempotent. -/
def Obligations.ClampGivesTheNearestValueOfTheRange : Prop :=
  ∀ (v lo hi : Val), isNan v = false → fle lo hi = true →
    fle lo (clamp v lo hi) = true ∧ fle (clamp v lo hi) hi = true ∧
    (fle lo v = true → fle v hi = true → clamp v lo hi = v) ∧
    (flt v lo = true → clamp v lo hi = lo) ∧ (flt hi v = true → clamp v lo hi = hi) ∧
    clamp (clamp v lo hi) lo hi = clamp v lo hi

/-- R103: a SET stores -0 as it is where the range begins at zero, and +0 for every value below the range. -/
def Obligations.NegativeZeroIsStoredAsIs : Prop :=
  ∀ (s : State), s.fault = false →
    exec (.setDepth 0x80000000#32) s = .next { s with
      params := { s.params with depth := 0x80000000#32 }, controlOut := s.controlOut ++ [0x00000000#32] } ∧
    exec (.setMix 0x80000000#32) s = .next { s with
      params := { s.params with mix := 0x80000000#32 }, controlOut := s.controlOut ++ [0x00000000#32] } ∧
    ∀ v : Word, flt v 0x00000000#32 = true →
      exec (.setDepth v) s = .next { s with
        params := { s.params with depth := 0x00000000#32 }, controlOut := s.controlOut ++ [0x00000000#32] } ∧
      exec (.setMix v) s = .next { s with
        params := { s.params with mix := 0x00000000#32 }, controlOut := s.controlOut ++ [0x00000000#32] }

/-! ## PREPARE and RESET -/

/-- PREPARE with operands that pass every check configures the engine, clears every configured channel, leaves it
Prepared, answers ST_OK and changes nothing else. That it leaves the slots from CAP on and the channels
from NCH on as they were is the model's reading of R30 (log 12); that BLK_N, CH_IDX and SMP_IDX, which R34 leaves unspecified
here, keep their values is the model's choice (log 15). -/
def Obligations.PrepareConfiguresAndClears : Prop :=
  ∀ (r : BitVec 64) (m n : Int) (s : State) (sr : Val), sr = valOfF64 (s.nan .sampleRate) r →
    s.fault = false → isFinite sr = true → fle 0x3F800000#32 sr = true → 1 ≤ n → n ≤ (Config.nchMax : Int) → 1 ≤ m →
    capacity sr ≤ Config.capMax →
    exec (.prepare r m n) s = .next { s with
      engineState := .prepared
      sr := sr
      maxBlk := BitVec.ofInt 32 m
      nch := n.toNat
      cap := capacity sr
      chans := (s.chans.take n.toNat).map (fun c =>
        { phase := 0x00000000#32, cursor := 0, dl := Memory.clearBelow (capacity sr) c.dl }) ++ s.chans.drop n.toNat
      audioOut := s.audioOut ++ [0x00000000#32] }

/-- R172: PREPARE with an operand that fails a check leaves the engine Unprepared, answers the status of the first
check that fails, and keeps the parameters, the snapshot, the fault flags and the other port. After any PREPARE the status
word alone tells the engine state. -/
def Obligations.RefusedPrepareLeavesUnprepared : Prop :=
  (∀ (r : BitVec 64) (m n : Int) (s : State) (sr : Val), sr = valOfF64 (s.nan .sampleRate) r → s.fault = false →
    (isNan sr = true ∨ fle 0x3F800000#32 sr = false ∨ sr = 0x7F800000#32 ∨ n < 1 ∨ (Config.nchMax : Int) < n ∨ m < 1 ∨
      Config.capMax < capacity sr) →
    ∃ t, exec (.prepare r m n) s = .next t ∧ t.engineState = .unprepared ∧
      t.audioOut = s.audioOut ++
        [if isNan sr = true ∨ fle 0x3F800000#32 sr = false ∨ sr = 0x7F800000#32 then 0x00000011#32
         else if n < 1 ∨ (Config.nchMax : Int) < n then 0x00000012#32
         else if m < 1 then 0x00000013#32
         else 0x00000014#32] ∧
      t.params = s.params ∧ t.snapshot = s.snapshot ∧ t.inc = s.inc ∧ t.fault = false ∧ t.faultCode = s.faultCode ∧
      t.controlOut = s.controlOut ∧ t.controlTaken = s.controlTaken ∧ t.audioTaken = s.audioTaken ∧
      t.inputs = s.inputs ∧ t.blockRunning = s.blockRunning) ∧
  (∀ (r : BitVec 64) (m n : Int) (s t : State), s.fault = false → exec (.prepare r m n) s = .next t →
    ∃ st, t.audioOut = s.audioOut ++ [st] ∧ (st = 0x00000000#32 ↔ t.engineState = .prepared))

/-- PREPARE on any hardware. The open parameters decide which operands are accepted, and nothing else of what
an accepted PREPARE does; a refused one leaves the engine Unprepared with the status of the first check that fails. That an
accepted one leaves the slots from CAP on and the channels from NCH on as they were is the model's reading of R30 (log 12); that
BLK_N, CH_IDX and SMP_IDX, which R34 leaves unspecified there, keep their values is the model's choice (log 15). -/
def Obligations.PrepareOnAnyHardware : Prop :=
  ∀ (hw : Hardware) (r : BitVec 64) (m n : Int) (s : State) (sr : Val), sr = valOfF64 (s.nan .sampleRate) r →
    s.fault = false →
    (isFinite sr = true → fle 0x3F800000#32 sr = true → 1 ≤ n → n ≤ (hw.nchMax : Int) → 1 ≤ m →
      capacity sr ≤ hw.capMax →
      execOn hw (.prepare r m n) s = .next { s with
        engineState := .prepared
        sr := sr
        maxBlk := BitVec.ofInt 32 m
        nch := n.toNat
        cap := capacity sr
        chans := (s.chans.take n.toNat).map (fun c =>
          { phase := 0x00000000#32, cursor := 0, dl := Memory.clearBelow (capacity sr) c.dl }) ++ s.chans.drop n.toNat
        audioOut := s.audioOut ++ [0x00000000#32] }) ∧
    ((isNan sr = true ∨ fle 0x3F800000#32 sr = false ∨ sr = 0x7F800000#32 ∨ n < 1 ∨ (hw.nchMax : Int) < n ∨ m < 1 ∨
        hw.capMax < capacity sr) →
      ∃ t, execOn hw (.prepare r m n) s = .next t ∧ t.engineState = .unprepared ∧ t.params = s.params ∧
        t.fault = false ∧ t.audioOut = s.audioOut ++
          [if isNan sr = true ∨ fle 0x3F800000#32 sr = false ∨ sr = 0x7F800000#32 then 0x00000011#32
           else if n < 1 ∨ (hw.nchMax : Int) < n then 0x00000012#32
           else if m < 1 then 0x00000013#32
           else 0x00000014#32])

/-- R173: the capacity of a rate is the smallest power of two that is at least the rate's fifth, rounded up on the
exact rational value, plus two; at an accepted rate it is at least 4 (R28). -/
def Obligations.CapacityIsTheNextPowerOfTwo : Prop :=
  ∀ (sr : Val), isFinite sr = true → fle 0x00000000#32 sr = true →
    (∃ k : Nat, capacity sr = 2 ^ k ∧ ⌈ratOf sr / 5⌉ + 2 ≤ (2 : Int) ^ k ∧
      ∀ j : Nat, ⌈ratOf sr / 5⌉ + 2 ≤ (2 : Int) ^ j → k ≤ j) ∧
    (fle Config.srMin sr = true → 4 ≤ capacity sr)

/-- RESET in state Prepared clears and answers ST_OK; in state Unprepared it faults; nothing else changes. That it leaves the
slots from CAP on and the channels from NCH on as they were is the model's reading of R30 (log 12). That BLK_N, CH_IDX and
SMP_IDX, which R34 leaves unspecified after RESET, keep their values (log 15), and that `exec` of it in a fault discards its
word (log 14), are the model's choices. -/
def Obligations.ResetClearsWhenPrepared : Prop :=
  ∀ (s : State),
    (s.fault = true → exec .reset s = .next { s with audioOut := s.audioOut ++ [0x800000FF#32] }) ∧
    (s.fault = false → s.engineState = .prepared → exec .reset s = .next { s with
      chans := (s.chans.take s.nch).map (fun c =>
        { phase := 0x00000000#32, cursor := 0, dl := Memory.clearBelow s.cap c.dl }) ++ s.chans.drop s.nch
      audioOut := s.audioOut ++ [0x00000000#32] }) ∧
    (s.fault = false → s.engineState = .unprepared → exec .reset s = .next { s with
      fault := true
      faultCode := 0x80000001#32
      audioOut := s.audioOut ++ [0x80000001#32] })

/-- What RESET and an accepted PREPARE clear: every configured channel's phase, cursor and every slot below CAP become zero.
That every other channel and slot is left alone is the model's reading of R30 (log 12). -/
def Obligations.ClearingZerosExactlyTheConfiguredChannels : Prop :=
  ∀ (i : Instr) (s t : State), (i = .reset ∨ ∃ r m n, i = .prepare r m n) → s.fault = false → exec i s = .next t →
    t.engineState = .prepared →
    (∀ ch < t.nch, t.phase ch = 0x00000000#32 ∧ t.cursor ch = 0 ∧ ∀ k < t.cap, t.slot ch k = 0x00000000#32) ∧
    (∀ ch k, t.nch ≤ ch ∨ t.cap ≤ k → t.slot ch k = s.slot ch k) ∧
    (∀ ch, t.nch ≤ ch → t.phase ch = s.phase ch ∧ t.cursor ch = s.cursor ch)

/-- R178: RESET brings two engines of one configuration to the same channels, whatever they processed before, if they agree
where the configuration does not reach. -/
def Obligations.ResetForgetsWhatWasProcessed : Prop :=
  ∀ (a b ta tb : State), a.fault = false → b.fault = false → a.engineState = .prepared → b.engineState = .prepared →
    a.nch = b.nch → a.cap = b.cap → a.chans.length = b.chans.length →
    (∀ c ∈ a.chans, Memory.wf c.dl) → (∀ c ∈ b.chans, Memory.wf c.dl) →
    (∀ ch k, a.nch ≤ ch ∨ a.cap ≤ k → a.slot ch k = b.slot ch k) →
    (∀ ch, a.nch ≤ ch → a.phase ch = b.phase ch ∧ a.cursor ch = b.cursor ch) →
    exec .reset a = .next ta → exec .reset b = .next tb → ta.chans = tb.chans

/-! ## Faults -/

/-- R203: fault entry answers the code on the offending port, keeps the first cause, sets the latch and changes nothing
else; it is the whole execution of RESET and PROCESS before PREPARE and of a block that is too long. -/
def Obligations.FaultEntryChangesNothingElse : Prop :=
  (∀ (code : Word) (s : State),
    raiseFault .audio code s = { s with
      audioOut := s.audioOut ++ [code], faultCode := if s.fault then s.faultCode else code, fault := true } ∧
    raiseFault .control code s = { s with
      controlOut := s.controlOut ++ [code], faultCode := if s.fault then s.faultCode else code, fault := true }) ∧
  (∀ (n : Nat) (s : State), s.fault = false → s.engineState = .unprepared →
    exec .reset s = .next (raiseFault .audio 0x80000001#32 s) ∧
    exec (.process n) s = .next (raiseFault .audio 0x80000001#32 s)) ∧
  (∀ (n : Nat) (s : State), s.fault = false → s.engineState = .prepared → s.maxBlk.toNat < n →
    exec (.process n) s = .next (raiseFault .audio 0x80000002#32 s))

/-- R84: an illegal header raises FC_ILLEGAL_CMD: one answer on its port, the latch set, no payload consumed, nothing else
changed. -/
def Obligations.IllegalHeaderRaisesItsFault : Prop :=
  ∀ (h : Word) (rest : List Input) (s : State),
    (AwaitsHeader .audio s → IllegalHeader .audio h → s.inputs = .word .audio h :: rest →
      step s = .next { s with
        inputs := rest, fault := true, faultCode := 0x80000003#32, audioOut := s.audioOut ++ [0x80000003#32] }) ∧
    (AwaitsHeader .control s → IllegalHeader .control h → s.inputs = .word .control h :: rest →
      step s = .next { s with
        inputs := rest, fault := true, faultCode := 0x80000003#32, controlOut := s.controlOut ++ [0x80000003#32] })

/-- R201: the causes of a fault, complete: a step sets the latch only at an illegal header, at RESET or PROCESS in state
Unprepared, or at a block that is too long, each with its own code. -/
def Obligations.OnlyTheListedCausesFault : Prop :=
  ∀ (s t : State), step s = .next t → s.fault = false → t.fault = true →
    (∃ p rest, fetch p (s.taken p) s.inputs = .illegal rest ∧ t.faultCode = 0x80000003#32) ∨
    (∃ rest, fetch .audio s.audioTaken s.inputs = .command .reset rest ∧ s.engineState = .unprepared ∧
      t.faultCode = 0x80000001#32) ∨
    (∃ n rest, fetch .audio s.audioTaken s.inputs = .command (.process n) rest ∧ s.engineState = .unprepared ∧
      t.faultCode = 0x80000001#32) ∨
    (∃ n rest, fetch .audio s.audioTaken s.inputs = .command (.process n) rest ∧ s.engineState = .prepared ∧
      s.maxBlk.toNat < n ∧ t.faultCode = 0x80000002#32)

/-- R85, R204: while FAULT = 1 every word on either port is discarded, answered by one FC_FAULTED on that port, and changes
nothing. -/
def Obligations.FaultedWordIsDiscarded : Prop :=
  ∀ (w : Word) (rest : List Input) (s : State), s.fault = true →
    (s.inputs = .word .audio w :: rest →
      step s = .next { s with inputs := rest, audioOut := s.audioOut ++ [0x800000FF#32] }) ∧
    (s.inputs = .word .control w :: rest →
      step s = .next { s with inputs := rest, controlOut := s.controlOut ++ [0x800000FF#32] })

/-- R205, R207: without power-on reset a fault is for good: any number of steps answers one FC_FAULTED for each word and
changes nothing else. -/
def Obligations.FaultIsForGood : Prop :=
  ∀ (k : Nat) (s : State), s.fault = true → Input.powerOn ∉ s.inputs →
    runSteps k s = .next { s with
      inputs := s.inputs.drop k
      audioOut := s.audioOut ++ List.replicate ((s.inputs.take k).countP (Input.isOn .audio)) 0x800000FF#32
      controlOut := s.controlOut ++ List.replicate ((s.inputs.take k).countP (Input.isOn .control)) 0x800000FF#32 }

/-- R180, R85: a whole command received while FAULT = 1 is answered FC_FAULTED once for each of its words, and changes
nothing. The step never executes a whole command then; that `exec` answers so is the model's choice (log 14). -/
def Obligations.FaultedCommandIsAnsweredWordByWord : Prop :=
  ∀ (i : Instr) (s : State), s.fault = true →
    (i.port = .audio →
      exec i s = .next { s with audioOut := s.audioOut ++ List.replicate (encode i).length 0x800000FF#32 }) ∧
    (i.port = .control →
      exec i s = .next { s with controlOut := s.controlOut ++ List.replicate (encode i).length 0x800000FF#32 })

/-! ## PROCESS and the tick -/

/-- R159, R160: PROCESS in state Prepared with a block that is not too long answers ST_OK, copies the five parameters at
once, computes the increment, and starts the block; nothing else changes. A block of no samples is complete (R163). -/
def Obligations.ProcessLatchesAndStartsTheBlock : Prop :=
  ∀ (n : Nat) (s : State), s.fault = false → s.engineState = .prepared → n ≤ s.maxBlk.toNat →
    exec (.process n) s = .next { s with
      audioOut := s.audioOut ++ [0x00000000#32]
      snapshot := s.params
      inc := fdiv (s.nan .increment) s.params.rate s.sr
      blkN := n
      chIdx := 0
      smpIdx := 0
      blockRunning := decide (0 < s.nch * n)
      freeCount := s.freeCount + 1 }

/-- R156, with R122 to R124, R131 to R138, R150 to R155 and R165 written out: a sample word of a running block runs one tick
of the current channel, on any hardware. The delay `d` is inside the buffer, as in every state that meets the invariants. The NaN patterns
`q` are free values: nothing is said of them (log 7). -/
def Obligations.SampleTickFollowsThePipeline : Prop :=
  ∀ (hw : Hardware) (s : State) (x : Word) (rest : List Input) (c : Channel) (osc d w v y : Val),
    s.fault = false → s.blockRunning = true → s.inputs = .word .audio x :: rest →
    s.chans[s.chIdx]? = some c → s.chIdx < s.nch → c.cursor < s.cap →
    osc = hw.wave (wrap1 (s.nan .oscWrap) (fadd (s.nan .oscSum) c.phase (hw.phaseOffset s.chIdx))) →
    d = dclamp s.cap (fdiv (s.nan .delayD0) (fmul (s.nan .delayT4) (fadd (s.nan .delayT3) s.snapshot.centreDelay
      (fmul (s.nan .delayT2) (fmul (s.nan .delayT1) s.snapshot.depth s.snapshot.centreDelay) osc)) s.sr) 0x447A0000#32) →
    isFinite d = true → flt d 0x00000000#32 = false → natOf (ffloor d) < s.cap →
    w = (let a := Memory.read c.dl (((c.cursor : Int) - natOf (ffloor d)) % s.cap).toNat
         let b := Memory.read c.dl (((c.cursor : Int) - (natOf (ffloor d) + 1 : Nat)) % s.cap).toNat
         fadd (s.nan .lerpAdd) a
           (fmul (s.nan .lerpMul) (fsub (s.nan .split) d (ffloor d)) (fsub (s.nan .lerpSub) b a))) →
    v = fadd (s.nan .feedbackAdd) x (fmul (s.nan .feedbackMul) s.snapshot.feedback w) →
    y = (if feq s.snapshot.mix 0x00000000#32 then x
         else fadd (s.nan .mixSum)
           (fmul (s.nan .mixDry) (fsub (s.nan .mixGain) 0x3F800000#32 s.snapshot.mix) x)
           (fmul (s.nan .mixWet) s.snapshot.mix w)) →
    stepOn hw s = .next { s with
      inputs := rest
      chans := s.chans.set s.chIdx
        { phase := wrap1 (s.nan .phaseWrap) (fadd (s.nan .phaseSum) c.phase s.inc)
          cursor := (c.cursor + 1) % s.cap
          dl := Memory.write c.dl c.cursor v }
      audioOut := s.audioOut ++ [y]
      freeCount := s.freeCount + 1
      smpIdx := if s.smpIdx + 1 < s.blkN then s.smpIdx + 1 else 0
      chIdx := if s.smpIdx + 1 < s.blkN then s.chIdx else s.chIdx + 1
      blockRunning := decide (s.smpIdx + 1 < s.blkN ∨ s.chIdx + 1 < s.nch) }

/-- R156, R29, R51: the frame of a tick. It stores to one slot, the one at the write cursor of the current channel; every
other slot reads as before, no other channel's registers change, and nothing outside the channels changes but the block
counters, the AUDIO stream and the words arriving. -/
def Obligations.TickWritesOneSlotOfItsChannel : Prop :=
  ∀ (hw : Hardware) (s t : State) (x : Word) (rest : List Input),
    s.fault = false → s.blockRunning = true → s.inputs = .word .audio x :: rest → stepOn hw s = .next t →
    (∀ ch k, ch ≠ s.chIdx ∨ k ≠ s.cursor s.chIdx → t.slot ch k = s.slot ch k) ∧
    (∀ ch, ch ≠ s.chIdx → t.phase ch = s.phase ch ∧ t.cursor ch = s.cursor ch) ∧
    t.params = s.params ∧ t.snapshot = s.snapshot ∧ t.inc = s.inc ∧ t.engineState = s.engineState ∧
    t.fault = s.fault ∧ t.faultCode = s.faultCode ∧ t.sr = s.sr ∧ t.maxBlk = s.maxBlk ∧ t.nch = s.nch ∧ t.cap = s.cap ∧
    t.blkN = s.blkN ∧ t.audioTaken = s.audioTaken ∧ t.controlTaken = s.controlTaken ∧ t.controlOut = s.controlOut ∧
    t.inputs = rest ∧ t.chans.length = s.chans.length

/-- R134, R138: the value a tick writes lies one position behind the cursor it leaves, and what lay `k` positions behind the
cursor lies `k + 1` behind it, for every `k` but the overwritten slot's. -/
def Obligations.EachTickMovesTheHistoryOneBack : Prop :=
  ∀ (hw : Hardware) (s t : State) (x : Word) (rest : List Input),
    s.fault = false → s.blockRunning = true → s.inputs = .word .audio x :: rest → stepOn hw s = .next t →
    slotBehind s.cap (t.cursor s.chIdx) 1 = s.cursor s.chIdx ∧
    ∀ k, 1 ≤ k → k < s.cap →
      t.slot s.chIdx (slotBehind s.cap (t.cursor s.chIdx) (k + 1)) =
        s.slot s.chIdx (slotBehind s.cap (s.cursor s.chIdx) k)

/-- A tick does not read the live parameters: with any others it does the same. That the two ticks agree bit for bit also where
arithmetic produces a NaN, whose pattern U6 leaves open, is the model's choice (log 7). -/
def Obligations.TickIgnoresTheLiveParameters : Prop :=
  ∀ (hw : Hardware) (s t : State) (p : Params) (x : Word) (rest : List Input),
    s.fault = false → s.blockRunning = true → s.inputs = .word .audio x :: rest → stepOn hw s = .next t →
    stepOn hw { s with params := p } = .next { t with params := p }

/-- A tick neither reads nor writes another channel: with any contents there it does the same. That the two ticks agree bit for
bit also where arithmetic produces a NaN, whose pattern U6 leaves open, is the model's choice (log 7). -/
def Obligations.TicksOfOneChannelIgnoreTheOthers : Prop :=
  ∀ (hw : Hardware) (s t : State) (ch : Nat) (c : Channel) (x : Word) (rest : List Input), ch ≠ s.chIdx →
    s.fault = false → s.blockRunning = true → s.inputs = .word .audio x :: rest → stepOn hw s = .next t →
    stepOn hw { s with chans := s.chans.set ch c } = .next { t with chans := t.chans.set ch c }

/-- R153: depth zero removes the modulation: the delay is the same for every finite value of the oscillator. -/
def Obligations.DepthZeroRemovesTheModulation : Prop :=
  ∀ (nan : NanSite → Val) (snap : Params) (sr osc : Val), isZero snap.depth = true →
    isFinite snap.centreDelay = true → isZero snap.centreDelay = false → isFinite osc = true →
    delayCalc nan snap sr osc =
      fdiv (nan .delayD0) (fmul (nan .delayT4) snap.centreDelay sr) 0x447A0000#32

/-- R154, R142: with the snapshot in range, an accepted sample rate and an oscillator value in `[-1, 1]`, the delay is finite and
not negative, its far tap lies inside the buffer and is not the slot at the cursor, and the clamp passes it unchanged, for
every capacity up to 2^22; up to 2^16 it is at most `CAP - 2`. -/
def Obligations.DelayStaysInsideTheBuffer : Prop :=
  ∀ (nan : NanSite → Val) (snap : Params) (sr osc : Val), snap.inRange → isFinite sr = true →
    fle Config.srMin sr = true → capacity sr ≤ 2 ^ 22 →
    fle 0xBF800000#32 osc = true → fle osc 0x3F800000#32 = true →
    isFinite (delayCalc nan snap sr osc) = true ∧ fle 0x00000000#32 (delayCalc nan snap sr osc) = true ∧
    natOf (ffloor (delayCalc nan snap sr osc)) + 1 < capacity sr ∧
    dclamp (capacity sr) (delayCalc nan snap sr osc) = delayCalc nan snap sr osc ∧
    (capacity sr ≤ 2 ^ 16 → fle (delayCalc nan snap sr osc) (valOfNat (capacity sr - 2)) = true)

/-- R141, R136: the read at a whole number `k` of samples gives the sample `k` positions behind the cursor, under `feq`, if it
and the next one are finite and their difference does not overflow. -/
def Obligations.IntegerDelayReadsThatSample : Prop :=
  ∀ (nan : NanSite → Val) (cap k : Nat) (c : Channel), k < cap → cap ≤ 2 ^ 24 →
    isFinite (Memory.read c.dl (slotBehind cap c.cursor k)) = true →
    isFinite (Memory.read c.dl (slotBehind cap c.cursor (k + 1))) = true →
    isFinite (fsub (nan .lerpSub) (Memory.read c.dl (slotBehind cap c.cursor (k + 1)))
      (Memory.read c.dl (slotBehind cap c.cursor k))) = true →
    ∃ w, fracRead nan cap c (valOfNat k) = some w ∧
      feq w (Memory.read c.dl (slotBehind cap c.cursor k)) = true

/-- R131: the circular index is the mathematical remainder of the difference, always a slot of the buffer, and at a
power of two the low bits of the two's complement difference. -/
def Obligations.CircularIndexStaysInTheBuffer : Prop :=
  ∀ (cap cursor k : Nat), 0 < cap → cursor < cap →
    slotBehind cap cursor k < cap ∧
    (slotBehind cap cursor k : Int) = ((cursor : Int) - k) % cap ∧
    slotBehind cap cursor 0 = cursor ∧ slotBehind cap cursor cap = cursor ∧
    ∀ e : Nat, cap = 2 ^ e → slotBehind cap cursor k = (BitVec.ofInt e ((cursor : Int) - k)).toNat

/-! ## The oscillator and the numerics -/

/-- R121: the machine's wave function has the named properties W1, W2 and W3, whatever the free function behind it is. -/
def Obligations.WaveHasItsNamedProperties : Prop := WaveOk lfoWave

/-- R123, and N5 of R14: the wrap of a finite value that is not negative is its exact fractional part, in `[0, 1)`. -/
def Obligations.WrapIsTheExactFractionalPart : Prop :=
  ∀ (nan v : Val), isFinite v = true → fle 0x00000000#32 v = true →
    phaseInUnit (wrap1 nan v) ∧ ratOf (wrap1 nan v) = ratOf v - (⌊ratOf v⌋ : Rat)

/-- N1 of R14: an exact result that is a value is returned; a zero result is a zero of either sign. -/
def Obligations.ExactResultsAreReturned : Prop :=
  ∀ (op : ArithOp) (nan a b c : Val), op.admits a b → isFinite c = true → op.exact (ratOf a) (ratOf b) = ratOf c →
    if isZero c then isZero (op.rounded nan a b) = true else op.rounded nan a b = c

/-- N2 and N3 of R14: a product with a zero is a zero; adding a zero gives the other operand, bit for bit when that is not a
zero. -/
def Obligations.ZeroOperandsActAsZeros : Prop :=
  ∀ (nan z a : Val), isZero z = true →
    (isFinite a = true → isZero (fmul nan z a) = true ∧ isZero (fmul nan a z) = true) ∧
    (isNan a = false → feq (fadd nan a z) a = true ∧ feq (fadd nan z a) a = true ∧
      (isZero a = false → fadd nan a z = a ∧ fadd nan z a = a))

/-- N4 of R14: rounding is monotone, across the four operations. -/
def Obligations.RoundingIsMonotone : Prop :=
  ∀ (op op' : ArithOp) (nan a b c d : Val), op.admits a b → op'.admits c d →
    op.exact (ratOf a) (ratOf b) ≤ op'.exact (ratOf c) (ratOf d) →
    fle (op.rounded nan a b) (op'.rounded nan c d) = true

/-- N6 of R14: a product with a factor in `[-1, 1]` is no larger in magnitude than the other factor. -/
def Obligations.UnitFactorDoesNotEnlarge : Prop :=
  ∀ (nan a b : Val), fle 0xBF800000#32 a = true → fle a 0x3F800000#32 = true → isFinite b = true →
    isFinite (fmul nan a b) = true ∧ magUnits (fmul nan a b) ≤ magUnits b

/-! ## Who may write what -/

/-- R196, R29: a step at a word of the CONTROL port leaves everything the AUDIO side owns as it was. -/
def Obligations.ControlPortCannotReachTheAudioSide : Prop :=
  ∀ (s t : State) (w : Word) (rest : List Input), s.inputs = .word .control w :: rest → step s = .next t →
    t.engineState = s.engineState ∧ t.snapshot = s.snapshot ∧ t.inc = s.inc ∧ t.sr = s.sr ∧ t.maxBlk = s.maxBlk ∧
    t.nch = s.nch ∧ t.cap = s.cap ∧ t.chans = s.chans ∧ t.blkN = s.blkN ∧ t.chIdx = s.chIdx ∧ t.smpIdx = s.smpIdx ∧
    t.blockRunning = s.blockRunning ∧ t.audioTaken = s.audioTaken ∧ t.audioOut = s.audioOut

/-- R196, R26: a step at a word of the AUDIO port leaves the live parameters and the CONTROL port as they were. -/
def Obligations.AudioPortCannotWriteTheParameters : Prop :=
  ∀ (s t : State) (w : Word) (rest : List Input), s.inputs = .word .audio w :: rest → step s = .next t →
    t.params = s.params ∧ t.controlTaken = s.controlTaken ∧ t.controlOut = s.controlOut

/-- R26: a parameter register changes only when its own SET command executes, or at power-on. -/
def Obligations.ParametersChangeOnlyByTheirSet : Prop :=
  ∀ (r : ParamReg) (s t : State), step s = .next t → t.params.get r ≠ s.params.get r →
    (∃ rest, s.inputs = .powerOn :: rest) ∨
    ∃ v rest, fetch .control s.controlTaken s.inputs = .command (r.setCommand v) rest

/-- R22: ENGINE_STATE changes only when a PREPARE executes, or at power-on. -/
def Obligations.EngineStateChangesOnlyByPrepare : Prop :=
  ∀ (s t : State), step s = .next t → t.engineState ≠ s.engineState →
    (∃ rest, s.inputs = .powerOn :: rest) ∨
    ∃ r m n rest, fetch .audio s.audioTaken s.inputs = .command (.prepare r m n) rest

/-! ## The open parameters -/

/-- The machine, its `exec`, `step` and reset state, is the engine on the default hardware: the defaults of R8 by the model's
choice (log 6), with the free wave by the model's choice (log 5). The default hardware is one that R8 admits. -/
def Obligations.TheMachineIsTheDefaultHardware : Prop :=
  HardwareOk defaultHardware ∧ (∀ i s, exec i s = execOn defaultHardware i s) ∧
  (∀ s, step s = stepOn defaultHardware s) ∧ State.reset = State.resetOn defaultHardware

/-- R8, R32: the open parameters are read by nothing but power-on, the ticks and PREPARE: a step that is none of these does the
same on any hardware. That an increment that is a NaN, whose pattern U6 leaves open, is the same on both is the model's choice
(log 7). -/
def Obligations.OnlyThreeThingsReadTheOpenParameters : Prop :=
  ∀ (hw : Hardware) (s : State), (∀ rest, s.inputs ≠ .powerOn :: rest) →
    (s.fault = false → s.blockRunning = true → ∀ w rest, s.inputs ≠ .word .audio w :: rest) →
    (∀ r m n rest, fetch .audio s.audioTaken s.inputs ≠ .command (.prepare r m n) rest) →
    stepOn hw s = step s

/-! ## Power-on, invariants, runs -/

/-- The specified values after power-on reset, in the reset state and after a power-on event in any state, faulted or in
mid-command, on any hardware. Nothing is said of the registers that the spec leaves unspecified. In the reset state both input
streams are empty; that the words still to arrive are kept over an event is the model's choice (log 10). -/
def Obligations.PowerOnGivesTheSpecifiedValues : Prop :=
  ∀ (hw : Hardware) (s : State) (rest : List Input), s.inputs = .powerOn :: rest →
    State.reset.inputs = [] ∧
    ∃ t, stepOn hw s = .next t ∧ t.inputs = rest ∧ ∀ u, (u = t ∨ u = State.reset) →
      u.engineState = .unprepared ∧ u.fault = false ∧ u.faultCode = 0x00000000#32 ∧
      u.params = ⟨0x3F800000#32, 0x00000000#32, 0x3F800000#32, 0x3F800000#32, 0x3F000000#32⟩ ∧
      u.snapshot = u.params ∧ u.inc = 0x00000000#32 ∧
      u.audioTaken = [] ∧ u.controlTaken = [] ∧ u.blockRunning = false ∧ u.audioOut = [] ∧ u.controlOut = []

/-- R25: every step keeps every register of the live bank in its range and no NaN, and the snapshot likewise. -/
def Obligations.StepKeepsTheParameterRanges : Prop :=
  ∀ (s t : State), s.params.inRange → s.snapshot.inRange → step s = .next t → t.params.inRange ∧ t.snapshot.inRange

/-- R28, R33, R31, R72: every step keeps the structural invariants: configuration, cursors, banks in canonical form, block
counters and framing. -/
def Obligations.StepKeepsTheStructure : Prop := ∀ (s t : State), StructInv s → step s = .next t → StructInv t

/-- R33, R25, R29, R126: every step keeps all the invariants, the phases in `[0, 1)` and the increment's range among them. -/
def Obligations.StepKeepsTheInvariants : Prop := ∀ (s t : State), Inv s → step s = .next t → Inv t

/-- R8, R25, R33: the invariants are kept on every hardware that R8 admits, and hold there after power-on reset; the latter rests
on the model's choice of zeros (log 9). -/
def Obligations.EveryHardwareKeepsTheInvariants : Prop :=
  ∀ (hw : Hardware), HardwareOk hw →
    InvOn hw (State.resetOn hw) ∧ ∀ (s t : State), InvOn hw s → stepOn hw s = .next t → InvOn hw t

/-- The invariants hold at reset. That the zeros of the registers the spec leaves unspecified meet them rests on the model's
choice (log 9). -/
def Obligations.ResetMeetsTheInvariants : Prop := Inv State.reset

/-- R194: on every hardware that R8 admits, from a state that meets the invariants no step stops: no access leaves the address
space. -/
def Obligations.NoStepStops : Prop :=
  ∀ (hw : Hardware) (s : State), HardwareOk hw → InvOn hw s → ∃ t, stepOn hw s = .next t

/-- R159, R163, R58, R102: on every hardware that R8 admits, from a state that meets the invariants, a PROCESS command followed
by its whole payload, with legal CONTROL commands arriving anywhere between the samples, answers ST_OK and exactly one output
word for each sample, and leaves the port at a command boundary with nothing consumed beyond the payload. Without the CONTROL
words the answers and the channels are the same; that they agree bit for bit also where arithmetic produces a NaN, whose
pattern U6 leaves open, is the model's choice (log 7). -/
def Obligations.BlockAnswersEverySample : Prop :=
  ∀ (hw : Hardware) (s : State) (n : Nat) (body : Interleaved) (rest : List Input), HardwareOk hw → InvOn hw s →
    AwaitsHeader .audio s → s.engineState = .prepared → n ≤ s.maxBlk.toNat → n < 2 ^ 24 →
    body.length = s.nch * n → LegalControl (s.controlTaken ++ body.control) →
    s.inputs = (encode (.process n)).map (.word .audio) ++ body.inputs ++ rest →
    ∃ k t u ys, k ≤ (encode (.process n)).length + body.inputs.length ∧ runStepsOn hw k s = .next t ∧
      ys.length = s.nch * n ∧ t.audioOut = s.audioOut ++ 0x00000000#32 :: ys ∧ t.inputs = rest ∧
      AwaitsHeader .audio t ∧ t.engineState = .prepared ∧
      runStepsOn hw (1 + s.nch * n)
        { s with inputs := (encode (.process n) ++ body.samples).map (.word .audio) ++ rest } = .next u ∧
      u.audioOut = t.audioOut ∧ u.chans = t.chans ∧ u.inputs = rest ∧ AwaitsHeader .audio u

/-- R155: the bypass law. With the mix equal to zero at the block's start, the output block is the input block, bit for bit,
for every input block, every hardware that R8 admits, every state that meets the invariants, and whatever legal CONTROL
commands arrive between the samples. -/
def Obligations.BypassReturnsTheBlockUnchanged : Prop :=
  ∀ (hw : Hardware) (s : State) (n : Nat) (body : Interleaved) (rest : List Input), HardwareOk hw → InvOn hw s →
    AwaitsHeader .audio s → s.engineState = .prepared → n ≤ s.maxBlk.toNat → n < 2 ^ 24 →
    body.length = s.nch * n → LegalControl (s.controlTaken ++ body.control) →
    feq s.params.mix 0x00000000#32 = true →
    s.inputs = (encode (.process n)).map (.word .audio) ++ body.inputs ++ rest →
    ∃ k t, k ≤ (encode (.process n)).length + body.inputs.length ∧ runStepsOn hw k s = .next t ∧
      t.audioOut = s.audioOut ++ 0x00000000#32 :: body.samples ∧ t.inputs = rest
end

