-- ==== Sys2Proof/Laws/Memory.lean ====
section
/-! SUPPORT. The basic laws of a delay RAM bank: a read after a write, the canonical form is kept, and two canonical banks
that read alike are equal. -/

namespace Sys2Proof.Machine

@[simp] theorem Memory.read_nil (k : Nat) : Memory.read [] k = blankWord := rfl

/-- A slot below every listed slot reads as an unlisted one. -/
theorem Memory.read_of_lt {m : Memory} {k : Nat} (h : ∀ c ∈ m, k < c.1) : Memory.read m k = blankWord := by
  induction m with
  | nil => rfl
  | cons c m ih =>
    obtain ⟨a, v⟩ := c
    have ha : k < a := h (a, v) (by simp)
    simp only [Memory.read, if_neg (by omega : ¬ a = k)]
    exact ih fun c hc => h c (by simp [hc])

/-- The same for a slot that is not listed. -/
theorem Memory.read_of_not_listed {m : Memory} {k : Nat} (h : ∀ c ∈ m, c.1 ≠ k) : Memory.read m k = blankWord := by
  induction m with
  | nil => rfl
  | cons c m ih =>
    obtain ⟨a, v⟩ := c
    simp only [Memory.read, if_neg (h (a, v) (by simp))]
    exact ih fun c hc => h c (by simp [hc])

/-- A listed slot of a canonical bank reads as listed. -/
theorem Memory.read_of_mem {m : Memory} (hm : Memory.wf m) {c : Nat × Word} (hc : c ∈ m) : Memory.read m c.1 = c.2 := by
  induction m with
  | nil => simp at hc
  | cons d m ih =>
    obtain ⟨a, v⟩ := d
    obtain ⟨hp, hv⟩ := hm
    rw [List.pairwise_cons] at hp
    rcases List.mem_cons.mp hc with rfl | hc'
    · simp [Memory.read]
    · have : a < c.1 := hp.1 c hc'
      simp only [Memory.read, if_neg (by omega : ¬ a = c.1)]
      exact ih ⟨hp.2, fun x hx => hv x (by simp [hx])⟩ hc'

/-- Every slot listed after a write was listed before, or is the written one. -/
theorem Memory.mem_write {m : Memory} {k : Nat} {v : Word} {c : Nat × Word} (h : c ∈ Memory.write m k v) :
    c ∈ m ∨ c = (k, v) := by
  induction m with
  | nil => simp only [Memory.write] at h; split at h <;> simp_all
  | cons d m ih =>
    obtain ⟨a, u⟩ := d
    simp only [Memory.write] at h
    split at h
    · split at h <;> simp_all; tauto
    · split at h
      · split at h <;> simp_all; tauto
      · rcases List.mem_cons.mp h with rfl | h'
        · simp
        · rcases ih h' with h'' | rfl <;> simp_all

/-- A write keeps the canonical form. -/
theorem Memory.wf_write {m : Memory} (hm : Memory.wf m) (k : Nat) (v : Word) : Memory.wf (Memory.write m k v) := by
  induction m with
  | nil =>
    simp only [Memory.write]
    split <;> simp_all [Memory.wf]
  | cons d m ih =>
    obtain ⟨a, u⟩ := d
    obtain ⟨hp, hv⟩ := hm
    rw [List.pairwise_cons] at hp
    have hu : u ≠ blankWord := hv (a, u) (by simp)
    have hv' : ∀ c ∈ m, c.2 ≠ blankWord := fun c hc => hv c (by simp [hc])
    have hcons : Memory.wf ((a, u) :: m) := ⟨List.pairwise_cons.mpr hp, hv⟩
    simp only [Memory.write]
    split
    · rename_i hka
      split
      · exact hcons
      · rename_i hvb
        refine ⟨List.pairwise_cons.mpr ⟨?_, hcons.1⟩, ?_⟩
        · intro c hc
          rcases List.mem_cons.mp hc with rfl | hc'
          · exact hka
          · exact lt_trans hka (hp.1 c hc')
        · intro c hc
          rcases List.mem_cons.mp hc with rfl | hc'
          · exact hvb
          · exact hv c hc'
    · rename_i hka
      split
      · rename_i he
        split
        · exact ⟨hp.2, hv'⟩
        · rename_i hvb
          refine ⟨List.pairwise_cons.mpr ⟨fun c hc => ?_, hp.2⟩, ?_⟩
          · rw [he]; exact hp.1 c hc
          · intro c hc
            rcases List.mem_cons.mp hc with rfl | hc'
            · exact hvb
            · exact hv' c hc'
      · rename_i hne
        obtain ⟨ip, iv⟩ := ih ⟨hp.2, hv'⟩
        refine ⟨List.pairwise_cons.mpr ⟨?_, ip⟩, ?_⟩
        · intro c hc
          rcases Memory.mem_write hc with hc' | rfl
          · exact hp.1 c hc'
          · show a < k; omega
        · intro c hc
          rcases List.mem_cons.mp hc with rfl | hc'
          · exact hu
          · exact iv c hc'

/-- A read after a write to the same slot gives the value written. -/
theorem Memory.read_write_same {m : Memory} (hm : Memory.wf m) (k : Nat) (v : Word) :
    Memory.read (Memory.write m k v) k = v := by
  induction m with
  | nil => simp only [Memory.write]; split <;> simp_all [Memory.read]
  | cons d m ih =>
    obtain ⟨a, u⟩ := d
    obtain ⟨hp, hv⟩ := hm
    rw [List.pairwise_cons] at hp
    have hv' : ∀ c ∈ m, c.2 ≠ blankWord := fun c hc => hv c (by simp [hc])
    simp only [Memory.write]
    split
    · rename_i hka
      split
      · rename_i hvb
        rw [hvb]
        apply Memory.read_of_lt
        intro c hc
        rcases List.mem_cons.mp hc with rfl | hc'
        · exact hka
        · exact lt_trans hka (hp.1 c hc')
      · simp [Memory.read]
    · split
      · rename_i he
        split
        · rename_i hvb
          rw [hvb]
          apply Memory.read_of_lt
          intro c hc
          rw [he]; exact hp.1 c hc
        · simp [Memory.read]
      · rename_i hne
        simp only [Memory.read, if_neg (Ne.symm hne)]
        exact ih ⟨hp.2, hv'⟩

/-- A write leaves every other slot alone. -/
theorem Memory.read_write_other (m : Memory) {k j : Nat} (v : Word) (h : j ≠ k) :
    Memory.read (Memory.write m k v) j = Memory.read m j := by
  induction m with
  | nil => simp only [Memory.write]; split <;> simp [Memory.read, Ne.symm h]
  | cons d m ih =>
    obtain ⟨a, u⟩ := d
    simp only [Memory.write]
    split
    · split
      · rfl
      · simp [Memory.read, Ne.symm h]
    · split
      · rename_i he
        split
        · simp [Memory.read, ← he, Ne.symm h]
        · simp [Memory.read, ← he, Ne.symm h]
      · simp only [Memory.read, ih]

/-- Clearing keeps the canonical form. -/
theorem Memory.wf_clearBelow {m : Memory} (hm : Memory.wf m) (cap : Nat) : Memory.wf (Memory.clearBelow cap m) :=
  ⟨hm.1.sublist List.filter_sublist, fun c hc => hm.2 c (List.mem_of_mem_filter hc)⟩

/-- After clearing, every slot below `cap` reads +0. -/
theorem Memory.read_clearBelow_lt (m : Memory) {cap k : Nat} (h : k < cap) :
    Memory.read (Memory.clearBelow cap m) k = blankWord := by
  apply Memory.read_of_not_listed
  intro c hc
  have := (List.mem_filter.mp hc).2
  simp at this
  omega

/-- Clearing leaves the slots from `cap` on alone. -/
theorem Memory.read_clearBelow_ge (m : Memory) {cap k : Nat} (h : cap ≤ k) :
    Memory.read (Memory.clearBelow cap m) k = Memory.read m k := by
  induction m with
  | nil => rfl
  | cons d m ih =>
    obtain ⟨a, v⟩ := d
    unfold Memory.clearBelow at *
    by_cases ha : cap ≤ a
    · simp only [List.filter_cons, ha, decide_true, if_true, Memory.read, ih]
    · have : ¬ a = k := by omega
      simp only [List.filter_cons, ha, decide_false, Memory.read, if_neg this]
      exact ih

/-- A bank made by writes is in canonical form. -/
theorem Memory.wf_ofWrites (ws : List (Nat × Word)) : Memory.wf (Memory.ofWrites ws) := by
  have key : ∀ (ws : List (Nat × Word)) (m : Memory), Memory.wf m →
      Memory.wf (ws.foldl (fun m c => Memory.write m c.1 c.2) m) := by
    intro ws
    induction ws with
    | nil => intro m hm; exact hm
    | cons c ws ih => intro m hm; exact ih _ (Memory.wf_write hm _ _)
  exact key ws [] (by simp [Memory.wf])

/-- A bank made by writes lists only slots that were written. -/
theorem Memory.mem_ofWrites {ws : List (Nat × Word)} {c : Nat × Word} (h : c ∈ Memory.ofWrites ws) : c ∈ ws := by
  have key : ∀ (ws : List (Nat × Word)) (m : Memory),
      c ∈ ws.foldl (fun m c => Memory.write m c.1 c.2) m → c ∈ m ∨ c ∈ ws := by
    intro ws
    induction ws with
    | nil => intro m h; exact Or.inl h
    | cons d ws ih =>
      intro m h
      rcases ih _ h with h' | h'
      · rcases Memory.mem_write h' with h'' | rfl
        · exact Or.inl h''
        · exact Or.inr (by simp)
      · exact Or.inr (by simp [h'])
  simpa using key ws [] h

/-- Two canonical banks that read alike are the same bank. -/
theorem Memory.ext_of_read {m n : Memory} (hm : Memory.wf m) (hn : Memory.wf n)
    (h : ∀ k, Memory.read m k = Memory.read n k) : m = n := by
  have sub : ∀ {m n : Memory}, Memory.wf m → Memory.wf n → (∀ k, Memory.read m k = Memory.read n k) → m ⊆ n := by
    intro m n hm hn h c hc
    have h1 : Memory.read n c.1 = c.2 := by rw [← h, Memory.read_of_mem hm hc]
    by_contra hcn
    by_cases hl : ∃ d ∈ n, d.1 = c.1
    · obtain ⟨d, hd, hdc⟩ := hl
      have h2 := Memory.read_of_mem hn hd
      rw [hdc, h1] at h2
      exact hcn ((Prod.ext hdc h2.symm : d = c) ▸ hd)
    · have h2 : Memory.read n c.1 = blankWord := Memory.read_of_not_listed fun d hd he => hl ⟨d, hd, he⟩
      exact hm.2 c hc (by rw [← h1, h2])
  have nodup : ∀ {m : Memory}, Memory.wf m → m.Nodup := fun hm =>
    hm.1.imp fun hxy he => by rw [he] at hxy; exact lt_irrefl _ hxy
  have hperm : m.Perm n :=
    (List.perm_ext_iff_of_nodup (nodup hm) (nodup hn)).mpr fun c =>
      ⟨fun hc => sub hm hn h hc, fun hc => sub hn hm (fun k => (h k).symm) hc⟩
  exact hperm.eq_of_pairwise (le := fun x y => x.1 < y.1) (fun a b _ _ hab hba => absurd hba (by omega)) hm.1 hn.1

end Sys2Proof.Machine
end

