-- ==== Sys2Proof/Laws/Numerics.lean ====
section
/-! SUPPORT. What the numerics do: the fields of a value built from its sign and magnitude, and the three facts about
rounding from which the rest follows (it never gives a NaN, it is exact on representable values, it is monotone). -/

namespace Sys2Proof.Machine

/-! ## Sign and magnitude -/

/-- The units a value with magnitude bits `mag` stands for. -/
def unitsOfMag (mag : Nat) : Nat :=
  if mag / 2 ^ 23 = 0 then mag % 2 ^ 23 else (2 ^ 23 + mag % 2 ^ 23) * 2 ^ (mag / 2 ^ 23 - 1)

theorem magBits_lt (a : Val) : magBits a < 2 ^ 31 := Nat.mod_lt _ (by norm_num)

theorem magUnits_eq (a : Val) : magUnits a = unitsOfMag (magBits a) := by
  have h : fracField a = magBits a % 2 ^ 23 := by
    unfold fracField magBits
    rw [Nat.mod_mod_of_dvd _ (by norm_num : 2 ^ 23 ∣ 2 ^ 31)]
  simp only [magUnits, unitsOfMag, expField, h]

theorem withSign_toNat {neg : Bool} {mag : Nat} (h : mag < 2 ^ 31) :
    (withSign neg mag).toNat = (if neg then 2 ^ 31 else 0) + mag := by
  unfold withSign
  rw [BitVec.toNat_ofNat]
  apply Nat.mod_eq_of_lt
  cases neg <;> simp <;> omega

@[simp] theorem magBits_withSign {neg : Bool} {mag : Nat} (h : mag < 2 ^ 31) : magBits (withSign neg mag) = mag := by
  unfold magBits
  rw [withSign_toNat h]
  cases neg
  · simp; omega
  · simp; omega

@[simp] theorem signBit_withSign {neg : Bool} {mag : Nat} (h : mag < 2 ^ 31) : signBit (withSign neg mag) = neg := by
  unfold signBit
  rw [BitVec.msb_eq_decide, withSign_toNat h]
  cases neg <;> simp <;> omega

/-- A value is its sign and its magnitude. -/
theorem withSign_self (a : Val) : withSign (signBit a) (magBits a) = a := by
  apply BitVec.eq_of_toNat_eq
  rw [withSign_toNat (magBits_lt a)]
  unfold signBit magBits
  rw [BitVec.msb_eq_decide]
  have := a.isLt
  by_cases h : 2147483648 ≤ a.toNat <;> simp [h] <;> omega

theorem val_ext {a b : Val} (hs : signBit a = signBit b) (hm : magBits a = magBits b) : a = b := by
  rw [← withSign_self a, ← withSign_self b, hs, hm]

theorem isFinite_iff {a : Val} : isFinite a = true ↔ magBits a < infBits := by simp [isFinite]

theorem not_nan_of_finite {a : Val} (h : isFinite a = true) : isNan a = false := by
  simp [isFinite, isNan] at *; omega

theorem not_inf_of_finite {a : Val} (h : isFinite a = true) : isInf a = false := by
  simp [isFinite, isInf] at *; omega

theorem finite_of_not {a : Val} (hn : isNan a = false) (hi : isInf a = false) : isFinite a = true := by
  simp [isFinite, isInf, isNan] at *; omega

/-! ## Magnitudes and units -/

/-- Magnitude bits are ordered as the units they stand for. -/
theorem unitsOfMag_lt {m n : Nat} (h : m < n) : unitsOfMag m < unitsOfMag n := by
  unfold unitsOfMag
  have hm : m % 2 ^ 23 < 2 ^ 23 := Nat.mod_lt _ (by norm_num)
  have hn : n % 2 ^ 23 < 2 ^ 23 := Nat.mod_lt _ (by norm_num)
  have dm := Nat.div_add_mod m (2 ^ 23)
  have dn := Nat.div_add_mod n (2 ^ 23)
  have hle : m / 2 ^ 23 ≤ n / 2 ^ 23 := Nat.div_le_div_right h.le
  generalize m / 2 ^ 23 = e at *
  generalize n / 2 ^ 23 = e' at *
  generalize m % 2 ^ 23 = f at *
  generalize n % 2 ^ 23 = f' at *
  rcases Nat.lt_or_ge e e' with he | he
  · rw [if_neg (by omega : ¬ e' = 0)]
    have h1 : (if e = 0 then f else (2 ^ 23 + f) * 2 ^ (e - 1)) < 2 ^ 23 * 2 ^ (e' - 1) := by
      split
      · exact lt_of_lt_of_le hm (Nat.le_mul_of_pos_right _ (by positivity))
      · calc (2 ^ 23 + f) * 2 ^ (e - 1) < 2 ^ 24 * 2 ^ (e - 1) := by
              apply Nat.mul_lt_mul_of_pos_right _ (by positivity); omega
          _ = 2 ^ 23 * 2 ^ e := by
              obtain ⟨k, rfl⟩ : ∃ k, e = k + 1 := ⟨e - 1, by omega⟩
              simp [pow_succ]; ring
          _ ≤ 2 ^ 23 * 2 ^ (e' - 1) := by
              apply Nat.mul_le_mul_left; exact Nat.pow_le_pow_right (by norm_num) (by omega)
    exact lt_of_lt_of_le h1 (Nat.mul_le_mul_right _ (by omega))
  · obtain rfl : e = e' := by omega
    have hf : f < f' := by omega
    split
    · exact hf
    · apply Nat.mul_lt_mul_of_pos_right _ (by positivity); omega

theorem unitsOfMag_inj {m n : Nat} (h : unitsOfMag m = unitsOfMag n) : m = n := by
  rcases Nat.lt_trichotomy m n with hl | he | hg
  · exact absurd (unitsOfMag_lt hl) (by omega)
  · exact he
  · exact absurd (unitsOfMag_lt hg) (by omega)

theorem unitsOfMag_le_iff {m n : Nat} : unitsOfMag m ≤ unitsOfMag n ↔ m ≤ n := by
  constructor
  · intro h; by_contra hc; exact absurd (unitsOfMag_lt (not_le.mp hc)) (by omega)
  · intro h
    rcases Nat.lt_or_eq_of_le h with hl | rfl
    · exact (unitsOfMag_lt hl).le
    · exact le_rfl

@[simp] theorem unitsOfMag_zero : unitsOfMag 0 = 0 := rfl

theorem magUnits_eq_zero {a : Val} : magUnits a = 0 ↔ isZero a = true := by
  rw [magUnits_eq]
  constructor
  · intro h
    have : magBits a = 0 := unitsOfMag_inj (by simpa using h)
    simp [isZero, this]
  · intro h
    have : magBits a = 0 := by simpa [isZero] using h
    simp [this]

/-! ## Rounding -/

theorem roundMag_le_inf (num den : Nat) : roundMag num den ≤ infBits := by
  unfold roundMag; exact min_le_right _ _

theorem roundMag_lt (num den : Nat) : roundMag num den < 2 ^ 31 :=
  lt_of_le_of_lt (roundMag_le_inf num den) (by norm_num [infBits])

/-- A rounded result is never a NaN. -/
@[simp] theorem isNan_roundVal (neg : Bool) (num den : Nat) : isNan (roundVal neg num den) = false := by
  simp only [isNan, roundVal, magBits_withSign (roundMag_lt num den), decide_eq_false_iff_not, not_lt]
  exact roundMag_le_inf num den

@[simp] theorem magBits_roundVal (neg : Bool) (num den : Nat) : magBits (roundVal neg num den) = roundMag num den :=
  magBits_withSign (roundMag_lt num den)

@[simp] theorem signBit_roundVal (neg : Bool) (num den : Nat) : signBit (roundVal neg num den) = neg :=
  signBit_withSign (roundMag_lt num den)

/-- Rounding half to even of `num / d`. -/
def halfEven (num d : Nat) : Nat :=
  if d < 2 * (num % d) ∨ (2 * (num % d) = d ∧ num / d % 2 = 1) then num / d + 1 else num / d

theorem halfEven_ge (num d : Nat) : num / d ≤ halfEven num d := by unfold halfEven; split <;> omega

theorem halfEven_le (num d : Nat) : halfEven num d ≤ num / d + 1 := by unfold halfEven; split <;> omega

/-- A whole quotient is not changed. -/
theorem halfEven_mul (m d : Nat) (hd : 0 < d) : halfEven (m * d) d = m := by
  have h0 : m * d % d = 0 := Nat.mul_mod_left m d
  have h1 : m * d / d = m := Nat.mul_div_cancel m hd
  unfold halfEven
  rw [h0, h1, if_neg]
  omega

theorem halfEven_scale (num d k : Nat) (hk : 0 < k) : halfEven (num * k) (d * k) = halfEven num d := by
  unfold halfEven
  rw [Nat.mul_mod_mul_right, Nat.mul_div_mul_right _ _ hk]
  have e1 : (d * k < 2 * (num % d * k)) ↔ (d < 2 * (num % d)) := by
    rw [show 2 * (num % d * k) = 2 * (num % d) * k by ring]; exact Nat.mul_lt_mul_right hk
  have e2 : (2 * (num % d * k) = d * k) ↔ (2 * (num % d) = d) := by
    rw [show 2 * (num % d * k) = 2 * (num % d) * k by ring]
    exact ⟨fun h => Nat.eq_of_mul_eq_mul_right hk h, fun h => by rw [h]⟩
  simp only [e1, e2]

theorem halfEven_mono {x y d : Nat} (h : x ≤ y) : halfEven x d ≤ halfEven y d := by
  rcases Nat.eq_zero_or_pos d with rfl | hd
  · unfold halfEven; simp
    split <;> split <;> omega
  have hq : x / d ≤ y / d := Nat.div_le_div_right h
  rcases Nat.lt_or_eq_of_le hq with hl | he
  · have := halfEven_le x d; have := halfEven_ge y d; omega
  · have hx := Nat.div_add_mod x d
    have hy := Nat.div_add_mod y d
    have hr : x % d ≤ y % d := by rw [he] at hx; omega
    unfold halfEven
    rw [he]
    split <;> split <;> omega

theorem roundMag_eq (num den : Nat) :
    roundMag num den = min ((Nat.log2 (num / den) - 23) * 2 ^ 23 +
      halfEven num (den * 2 ^ (Nat.log2 (num / den) - 23))) infBits := rfl

theorem log2_mono {a b : Nat} (h : a ≤ b) : Nat.log2 a ≤ Nat.log2 b := by
  simp only [Nat.log2_eq_log_two]; exact Nat.log_mono_right h

/-- Below the kept bits the quotient has exactly 24 bits, unless none are dropped. -/
theorem quotient_bounds (num den : Nat) :
    num / (den * 2 ^ (Nat.log2 (num / den) - 23)) < 2 ^ 24 ∧
    (0 < Nat.log2 (num / den) - 23 → 2 ^ 23 ≤ num / (den * 2 ^ (Nat.log2 (num / den) - 23))) := by
  rw [← Nat.div_div_eq_div_mul]
  generalize num / den = q
  rcases Nat.eq_zero_or_pos q with rfl | hq
  · simp
  constructor
  · rw [Nat.div_lt_iff_lt_mul (by positivity), ← pow_add]
    exact lt_of_lt_of_le (Nat.lt_log2_self (n := q)) (Nat.pow_le_pow_right (by norm_num) (by omega))
  · intro hs
    rw [Nat.le_div_iff_mul_le (by positivity), ← pow_add]
    have : 23 + (q.log2 - 23) = q.log2 := by omega
    rw [this]
    exact Nat.log2_self_le (by omega)

/-- Rounding with a common factor. -/
theorem roundMag_scale (num den k : Nat) (hk : 0 < k) : roundMag (num * k) (den * k) = roundMag num den := by
  rw [roundMag_eq, roundMag_eq, Nat.mul_div_mul_right _ _ hk]
  congr 2
  rw [show den * k * 2 ^ ((num / den).log2 - 23) = den * 2 ^ ((num / den).log2 - 23) * k by ring]
  exact halfEven_scale _ _ _ hk

theorem roundMag_mono_same {x y den : Nat} (h : x ≤ y) : roundMag x den ≤ roundMag y den := by
  rw [roundMag_eq, roundMag_eq]
  apply min_le_min_right
  have hlog := log2_mono (Nat.div_le_div_right (c := den) h)
  obtain ⟨bx, _⟩ := quotient_bounds x den
  obtain ⟨_, by'⟩ := quotient_bounds y den
  generalize hsx : Nat.log2 (x / den) - 23 = sx at *
  generalize hsy : Nat.log2 (y / den) - 23 = sy at *
  rcases Nat.lt_or_ge sx sy with hs | hs
  · have h1 := halfEven_le x (den * 2 ^ sx)
    have h2 := halfEven_ge y (den * 2 ^ sy)
    have h3 := by' (by omega)
    have h4 : sx * 2 ^ 23 + 2 ^ 23 ≤ sy * 2 ^ 23 := by
      have : (sx + 1) * 2 ^ 23 ≤ sy * 2 ^ 23 := Nat.mul_le_mul_right _ hs
      omega
    omega
  · obtain rfl : sx = sy := by omega
    exact Nat.add_le_add_left (halfEven_mono h) _

/-- Rounding is monotone (R14, N4). -/
theorem roundMag_mono {x d y e : Nat} (hd : 0 < d) (he : 0 < e) (h : x * e ≤ y * d) : roundMag x d ≤ roundMag y e := by
  rw [← roundMag_scale x d e he, ← roundMag_scale y e d hd, Nat.mul_comm e d]
  exact roundMag_mono_same h

/-- Rounding is exact on the values that have an encoding (R14, N1). -/
theorem roundMag_exact {mag den : Nat} (hd : 0 < den) (h : mag ≤ infBits) : roundMag (unitsOfMag mag * den) den = mag := by
  rw [roundMag_eq, Nat.mul_div_cancel _ hd]
  have hdm := Nat.div_add_mod mag (2 ^ 23)
  have hf : mag % 2 ^ 23 < 2 ^ 23 := Nat.mod_lt _ (by norm_num)
  generalize mag / 2 ^ 23 = e at *
  generalize hfe : mag % 2 ^ 23 = f at *
  have hu : unitsOfMag mag = if e = 0 then f else (2 ^ 23 + f) * 2 ^ (e - 1) := by
    unfold unitsOfMag
    have : mag / 2 ^ 23 = e := by omega
    rw [this, hfe]
  rw [hu]
  by_cases he : e = 0
  · rw [if_pos he]
    have hl : Nat.log2 f - 23 = 0 := by
      rcases Nat.eq_zero_or_pos f with rfl | hp
      · simp
      · have : Nat.log2 f < 23 := (Nat.log2_lt (by omega)).2 hf
        omega
    rw [hl, pow_zero, mul_one, halfEven_mul _ _ hd]
    omega
  · rw [if_neg he]
    have hl : Nat.log2 ((2 ^ 23 + f) * 2 ^ (e - 1)) - 23 = e - 1 := by
      have hp : (2 ^ 23 + f) * 2 ^ (e - 1) ≠ 0 := by positivity
      have h1 : Nat.log2 ((2 ^ 23 + f) * 2 ^ (e - 1)) < 24 + (e - 1) := by
        rw [Nat.log2_lt hp, pow_add]
        apply Nat.mul_lt_mul_of_pos_right _ (by positivity); omega
      have h2 : 23 + (e - 1) ≤ Nat.log2 ((2 ^ 23 + f) * 2 ^ (e - 1)) := by
        rw [Nat.le_log2 hp, pow_add]
        apply Nat.mul_le_mul_right; omega
      omega
    rw [hl, show (2 ^ 23 + f) * 2 ^ (e - 1) * den = (2 ^ 23 + f) * (den * 2 ^ (e - 1)) by ring,
      halfEven_mul _ _ (by positivity)]
    have hk : (e - 1) * 2 ^ 23 + (2 ^ 23 + f) = mag := by
      rw [← hdm]
      obtain ⟨k, rfl⟩ : ∃ k, e = k + 1 := ⟨e - 1, (Nat.succ_pred_eq_of_ne_zero he).symm⟩
      rw [Nat.add_sub_cancel]
      ring
    rw [hk]
    exact min_eq_left h

/-- The value of a rounded result that has an encoding. -/
theorem roundVal_exact {neg : Bool} {a : Val} {den : Nat} (hd : 0 < den) (ha : isNan a = false) (hs : signBit a = neg) :
    roundVal neg (magUnits a * den) den = a := by
  have hm : magBits a ≤ infBits := by simpa [isNan] using ha
  apply val_ext
  · simp [hs]
  · rw [magBits_roundVal, magUnits_eq, roundMag_exact hd hm]

/-- A bound on what is rounded bounds the result (R14, N4). -/
theorem roundMag_le_of_le {num den mag : Nat} (hd : 0 < den) (hm : mag ≤ infBits) (h : num ≤ unitsOfMag mag * den) :
    roundMag num den ≤ mag := by
  calc roundMag num den ≤ roundMag (unitsOfMag mag * den) den := roundMag_mono_same h
    _ = mag := roundMag_exact hd hm

theorem roundMag_ge_of_ge {num den mag : Nat} (hd : 0 < den) (hm : mag ≤ infBits) (h : unitsOfMag mag * den ≤ num) :
    mag ≤ roundMag num den := by
  calc mag = roundMag (unitsOfMag mag * den) den := (roundMag_exact hd hm).symm
    _ ≤ roundMag num den := roundMag_mono_same h

@[simp] theorem roundMag_zero {den : Nat} (hd : 0 < den) : roundMag 0 den = 0 := by
  have := roundMag_exact (mag := 0) hd (by norm_num [infBits])
  simpa using this

theorem unitsPerOne_pos : 0 < unitsPerOne := by unfold unitsPerOne; positivity

/-! ## Comparisons -/

theorem fle_iff {a b : Val} : fle a b = true ↔ isNan a = false ∧ isNan b = false ∧ toUnits a ≤ toUnits b := by
  simp [fle, and_assoc]

theorem flt_iff {a b : Val} : flt a b = true ↔ isNan a = false ∧ isNan b = false ∧ toUnits a < toUnits b := by
  simp [flt, and_assoc]

theorem feq_iff {a b : Val} : feq a b = true ↔ isNan a = false ∧ isNan b = false ∧ toUnits a = toUnits b := by
  simp [feq, and_assoc]

/-- On values that are no NaN, one of `flt a b` and `fle b a` holds. -/
theorem flt_eq_not_fle {a b : Val} (ha : isNan a = false) (hb : isNan b = false) : flt a b = !fle b a := by
  by_cases h : toUnits a < toUnits b
  · simp [flt, fle, ha, hb, h]
  · simp [flt, fle, ha, hb, h, not_lt.mp h]

/-! ## The operations on finite operands -/

theorem fneg_signBit (a : Val) : signBit (fneg a) = !signBit a := by
  unfold signBit fneg negZero
  rw [BitVec.msb_xor]
  have : (0x80000000#32).msb = true := by decide
  rw [this]; simp

theorem fneg_magBits (a : Val) : magBits (fneg a) = magBits a := by
  have h : (fneg a).toNat % 2 ^ 31 = a.toNat % 2 ^ 31 := by
    unfold fneg negZero
    rw [BitVec.toNat_xor]
    have := Nat.xor_mod_two_pow (a := a.toNat) (b := (0x80000000#32).toNat) (n := 31)
    rw [this]
    have h0 : (0x80000000#32).toNat % 2 ^ 31 = 0 := by decide
    rw [h0, Nat.xor_zero]
  exact h

theorem fneg_isNan (a : Val) : isNan (fneg a) = isNan a := by simp [isNan, fneg_magBits]

theorem fneg_isInf (a : Val) : isInf (fneg a) = isInf a := by simp [isInf, fneg_magBits]

theorem fneg_toUnits (a : Val) : toUnits (fneg a) = -toUnits a := by
  unfold toUnits
  rw [fneg_signBit, magUnits_eq, magUnits_eq, fneg_magBits]
  cases signBit a <;> simp

theorem toUnits_natAbs (a : Val) : (toUnits a).natAbs = magUnits a := by
  unfold toUnits; split <;> simp

/-- `fadd` of finite operands is the exact sum rounded once. -/
theorem fadd_finite {nan a b : Val} (ha : isFinite a = true) (hb : isFinite b = true) :
    fadd nan a b =
      if toUnits a + toUnits b = 0 then (if signBit a && signBit b then negZero else posZero)
      else roundVal (decide (toUnits a + toUnits b < 0)) (toUnits a + toUnits b).natAbs 1 := by
  simp [fadd, not_nan_of_finite ha, not_nan_of_finite hb, not_inf_of_finite ha, not_inf_of_finite hb]

/-- `fmul` of finite operands is the exact product rounded once. -/
theorem fmul_finite {nan a b : Val} (ha : isFinite a = true) (hb : isFinite b = true) :
    fmul nan a b = roundVal (signBit a != signBit b) (magUnits a * magUnits b) unitsPerOne := by
  simp [fmul, not_nan_of_finite ha, not_nan_of_finite hb, not_inf_of_finite ha, not_inf_of_finite hb]

/-- `fdiv` of finite operands, the divisor not zero, is the exact quotient rounded once. -/
theorem fdiv_finite {nan a b : Val} (ha : isFinite a = true) (hb : isFinite b = true) (hz : isZero b = false) :
    fdiv nan a b = roundVal (signBit a != signBit b) (magUnits a * unitsPerOne) (magUnits b) := by
  simp [fdiv, not_nan_of_finite ha, not_nan_of_finite hb, not_inf_of_finite ha, not_inf_of_finite hb, hz]

/-- Any word made a NaN is one (U6). -/
theorem asNan_isNan (raw : Word) : isNan (asNan raw) = true := by
  have key : ∀ w : Word, w &&& 0x7F800000#32 = 0x7F800000#32 → fracField w ≠ 0 → isNan w = true := by
    intro w hw hf
    have h1 : w.toNat &&& (255 * 2 ^ 23) = 255 * 2 ^ 23 := by
      have := congrArg BitVec.toNat hw; simpa using this
    have h2 : w.toNat / 2 ^ 23 % 2 ^ 8 = 255 := by
      have h3 : (w.toNat &&& (255 * 2 ^ 23)) / 2 ^ 23 = 255 := by rw [h1]; norm_num
      have h4 : (w.toNat &&& (255 * 2 ^ 23)) >>> 23 = (w.toNat >>> 23) &&& 255 := by
        rw [Nat.shiftRight_and_distrib]; rfl
      rw [← Nat.shiftRight_eq_div_pow, h4, show (255 : Nat) = 2 ^ 8 - 1 by norm_num, Nat.and_two_pow_sub_one_eq_mod,
        Nat.shiftRight_eq_div_pow] at h3
      exact h3
    unfold fracField at hf
    have := w.isLt
    have : infBits < magBits w := by unfold magBits infBits; omega
    simpa [isNan] using this
  unfold asNan
  simp only
  split
  · apply key
    · ext i hi
      simp only [BitVec.getElem_and, BitVec.getElem_or]
      cases hb : (0x7F800000#32)[i] <;> simp
    · rename_i h0
      intro hc
      unfold fracField at hc h0
      have h5 : ((raw ||| 0x7F800000#32 ||| 0x00400000#32).toNat).testBit 22 = true := by
        rw [BitVec.toNat_or, Nat.testBit_or]
        simp [Nat.testBit, Nat.shiftRight_eq_div_pow]
      have h6 : ((raw ||| 0x7F800000#32 ||| 0x00400000#32).toNat % 2 ^ 23).testBit 22 = true := by
        rw [Nat.testBit_mod_two_pow, h5]; rfl
      rw [hc] at h6
      simp at h6
  · rename_i h0
    apply key _ _ h0
    ext i hi
    simp only [BitVec.getElem_and, BitVec.getElem_or]
    cases hb : (0x7F800000#32)[i] <;> simp

end Sys2Proof.Machine
end

