-- ==== Sys2Proof/Laws/State.lean ====
section
/-! SUPPORT. One lemma per field and per named update of State: what the update leaves alone, and what it writes. -/

namespace Sys2Proof.Machine

/-! ## `respond` -/

@[simp] theorem respond_engineState (p : Port) (w : Word) (s : State) :
    (respond p w s).engineState = s.engineState := by cases p <;> rfl

@[simp] theorem respond_fault (p : Port) (w : Word) (s : State) : (respond p w s).fault = s.fault := by cases p <;> rfl

@[simp] theorem respond_faultCode (p : Port) (w : Word) (s : State) :
    (respond p w s).faultCode = s.faultCode := by cases p <;> rfl

@[simp] theorem respond_params (p : Port) (w : Word) (s : State) :
    (respond p w s).params = s.params := by cases p <;> rfl

@[simp] theorem respond_snapshot (p : Port) (w : Word) (s : State) :
    (respond p w s).snapshot = s.snapshot := by cases p <;> rfl

@[simp] theorem respond_inc (p : Port) (w : Word) (s : State) : (respond p w s).inc = s.inc := by cases p <;> rfl

@[simp] theorem respond_sr (p : Port) (w : Word) (s : State) : (respond p w s).sr = s.sr := by cases p <;> rfl

@[simp] theorem respond_maxBlk (p : Port) (w : Word) (s : State) :
    (respond p w s).maxBlk = s.maxBlk := by cases p <;> rfl

@[simp] theorem respond_nch (p : Port) (w : Word) (s : State) : (respond p w s).nch = s.nch := by cases p <;> rfl

@[simp] theorem respond_cap (p : Port) (w : Word) (s : State) : (respond p w s).cap = s.cap := by cases p <;> rfl

@[simp] theorem respond_chans (p : Port) (w : Word) (s : State) : (respond p w s).chans = s.chans := by cases p <;> rfl

@[simp] theorem respond_blkN (p : Port) (w : Word) (s : State) : (respond p w s).blkN = s.blkN := by cases p <;> rfl

@[simp] theorem respond_chIdx (p : Port) (w : Word) (s : State) : (respond p w s).chIdx = s.chIdx := by cases p <;> rfl

@[simp] theorem respond_smpIdx (p : Port) (w : Word) (s : State) :
    (respond p w s).smpIdx = s.smpIdx := by cases p <;> rfl

@[simp] theorem respond_blockRunning (p : Port) (w : Word) (s : State) :
    (respond p w s).blockRunning = s.blockRunning := by cases p <;> rfl

@[simp] theorem respond_audioTaken (p : Port) (w : Word) (s : State) :
    (respond p w s).audioTaken = s.audioTaken := by cases p <;> rfl

@[simp] theorem respond_controlTaken (p : Port) (w : Word) (s : State) :
    (respond p w s).controlTaken = s.controlTaken := by cases p <;> rfl

@[simp] theorem respond_inputs (p : Port) (w : Word) (s : State) :
    (respond p w s).inputs = s.inputs := by cases p <;> rfl

@[simp] theorem respond_freeCount (p : Port) (w : Word) (s : State) :
    (respond p w s).freeCount = s.freeCount := by cases p <;> rfl

@[simp] theorem respond_audio_audioOut (w : Word) (s : State) : (respond .audio w s).audioOut = s.audioOut ++ [w] := rfl

@[simp] theorem respond_audio_controlOut (w : Word) (s : State) : (respond .audio w s).controlOut = s.controlOut := rfl

@[simp] theorem respond_control_audioOut (w : Word) (s : State) : (respond .control w s).audioOut = s.audioOut := rfl

@[simp] theorem respond_control_controlOut (w : Word) (s : State) :
    (respond .control w s).controlOut = s.controlOut ++ [w] := rfl

@[simp] theorem respond_out_same (p : Port) (w : Word) (s : State) : (respond p w s).out p = s.out p ++ [w] := by
  cases p <;> rfl

/-! ## `State.setTaken` -/

@[simp] theorem setTaken_engineState (p : Port) (ws : List Word) (s : State) :
    (State.setTaken p ws s).engineState = s.engineState := by cases p <;> rfl

@[simp] theorem setTaken_fault (p : Port) (ws : List Word) (s : State) :
    (State.setTaken p ws s).fault = s.fault := by cases p <;> rfl

@[simp] theorem setTaken_faultCode (p : Port) (ws : List Word) (s : State) :
    (State.setTaken p ws s).faultCode = s.faultCode := by cases p <;> rfl

@[simp] theorem setTaken_params (p : Port) (ws : List Word) (s : State) :
    (State.setTaken p ws s).params = s.params := by cases p <;> rfl

@[simp] theorem setTaken_snapshot (p : Port) (ws : List Word) (s : State) :
    (State.setTaken p ws s).snapshot = s.snapshot := by cases p <;> rfl

@[simp] theorem setTaken_inc (p : Port) (ws : List Word) (s : State) :
    (State.setTaken p ws s).inc = s.inc := by cases p <;> rfl

@[simp] theorem setTaken_sr (p : Port) (ws : List Word) (s : State) :
    (State.setTaken p ws s).sr = s.sr := by cases p <;> rfl

@[simp] theorem setTaken_maxBlk (p : Port) (ws : List Word) (s : State) :
    (State.setTaken p ws s).maxBlk = s.maxBlk := by cases p <;> rfl

@[simp] theorem setTaken_nch (p : Port) (ws : List Word) (s : State) :
    (State.setTaken p ws s).nch = s.nch := by cases p <;> rfl

@[simp] theorem setTaken_cap (p : Port) (ws : List Word) (s : State) :
    (State.setTaken p ws s).cap = s.cap := by cases p <;> rfl

@[simp] theorem setTaken_chans (p : Port) (ws : List Word) (s : State) :
    (State.setTaken p ws s).chans = s.chans := by cases p <;> rfl

@[simp] theorem setTaken_blkN (p : Port) (ws : List Word) (s : State) :
    (State.setTaken p ws s).blkN = s.blkN := by cases p <;> rfl

@[simp] theorem setTaken_chIdx (p : Port) (ws : List Word) (s : State) :
    (State.setTaken p ws s).chIdx = s.chIdx := by cases p <;> rfl

@[simp] theorem setTaken_smpIdx (p : Port) (ws : List Word) (s : State) :
    (State.setTaken p ws s).smpIdx = s.smpIdx := by cases p <;> rfl

@[simp] theorem setTaken_blockRunning (p : Port) (ws : List Word) (s : State) :
    (State.setTaken p ws s).blockRunning = s.blockRunning := by cases p <;> rfl

@[simp] theorem setTaken_audioOut (p : Port) (ws : List Word) (s : State) :
    (State.setTaken p ws s).audioOut = s.audioOut := by cases p <;> rfl

@[simp] theorem setTaken_controlOut (p : Port) (ws : List Word) (s : State) :
    (State.setTaken p ws s).controlOut = s.controlOut := by cases p <;> rfl

@[simp] theorem setTaken_inputs (p : Port) (ws : List Word) (s : State) :
    (State.setTaken p ws s).inputs = s.inputs := by cases p <;> rfl

@[simp] theorem setTaken_freeCount (p : Port) (ws : List Word) (s : State) :
    (State.setTaken p ws s).freeCount = s.freeCount := by cases p <;> rfl

@[simp] theorem setTaken_taken_same (p : Port) (ws : List Word) (s : State) : (State.setTaken p ws s).taken p = ws := by
  cases p <;> rfl

@[simp] theorem setTaken_audio_audioTaken (ws : List Word) (s : State) :
    (State.setTaken .audio ws s).audioTaken = ws := rfl

@[simp] theorem setTaken_audio_controlTaken (ws : List Word) (s : State) :
    (State.setTaken .audio ws s).controlTaken = s.controlTaken := rfl

@[simp] theorem setTaken_control_audioTaken (ws : List Word) (s : State) :
    (State.setTaken .control ws s).audioTaken = s.audioTaken := rfl

@[simp] theorem setTaken_control_controlTaken (ws : List Word) (s : State) :
    (State.setTaken .control ws s).controlTaken = ws := rfl

/-- Recording the words a port has already is no change. -/
theorem setTaken_self {p : Port} {s : State} {ws : List Word} (h : s.taken p = ws) : State.setTaken p ws s = s := by
  subst h
  cases p <;> rfl

/-! ## `setFaultFlags` -/

@[simp] theorem setFaultFlags_engineState (code : Word) (s : State) :
    (setFaultFlags code s).engineState = s.engineState := rfl

@[simp] theorem setFaultFlags_fault (code : Word) (s : State) : (setFaultFlags code s).fault = true := rfl

@[simp] theorem setFaultFlags_faultCode (code : Word) (s : State) :
    (setFaultFlags code s).faultCode = if s.fault then s.faultCode else code := rfl

@[simp] theorem setFaultFlags_params (code : Word) (s : State) : (setFaultFlags code s).params = s.params := rfl

@[simp] theorem setFaultFlags_snapshot (code : Word) (s : State) : (setFaultFlags code s).snapshot = s.snapshot := rfl

@[simp] theorem setFaultFlags_inc (code : Word) (s : State) : (setFaultFlags code s).inc = s.inc := rfl

@[simp] theorem setFaultFlags_sr (code : Word) (s : State) : (setFaultFlags code s).sr = s.sr := rfl

@[simp] theorem setFaultFlags_maxBlk (code : Word) (s : State) : (setFaultFlags code s).maxBlk = s.maxBlk := rfl

@[simp] theorem setFaultFlags_nch (code : Word) (s : State) : (setFaultFlags code s).nch = s.nch := rfl

@[simp] theorem setFaultFlags_cap (code : Word) (s : State) : (setFaultFlags code s).cap = s.cap := rfl

@[simp] theorem setFaultFlags_chans (code : Word) (s : State) : (setFaultFlags code s).chans = s.chans := rfl

@[simp] theorem setFaultFlags_blkN (code : Word) (s : State) : (setFaultFlags code s).blkN = s.blkN := rfl

@[simp] theorem setFaultFlags_chIdx (code : Word) (s : State) : (setFaultFlags code s).chIdx = s.chIdx := rfl

@[simp] theorem setFaultFlags_smpIdx (code : Word) (s : State) : (setFaultFlags code s).smpIdx = s.smpIdx := rfl

@[simp] theorem setFaultFlags_blockRunning (code : Word) (s : State) :
    (setFaultFlags code s).blockRunning = s.blockRunning := rfl

@[simp] theorem setFaultFlags_audioTaken (code : Word) (s : State) :
    (setFaultFlags code s).audioTaken = s.audioTaken := rfl

@[simp] theorem setFaultFlags_controlTaken (code : Word) (s : State) :
    (setFaultFlags code s).controlTaken = s.controlTaken := rfl

@[simp] theorem setFaultFlags_audioOut (code : Word) (s : State) : (setFaultFlags code s).audioOut = s.audioOut := rfl

@[simp] theorem setFaultFlags_controlOut (code : Word) (s : State) :
    (setFaultFlags code s).controlOut = s.controlOut := rfl

@[simp] theorem setFaultFlags_inputs (code : Word) (s : State) : (setFaultFlags code s).inputs = s.inputs := rfl

@[simp] theorem setFaultFlags_freeCount (code : Word) (s : State) :
    (setFaultFlags code s).freeCount = s.freeCount := rfl

/-! ## `raiseFault` -/

@[simp] theorem raiseFault_engineState (p : Port) (code : Word) (s : State) :
    (raiseFault p code s).engineState = s.engineState := by cases p <;> rfl

@[simp] theorem raiseFault_fault (p : Port) (code : Word) (s : State) :
    (raiseFault p code s).fault = true := by cases p <;> rfl

@[simp] theorem raiseFault_params (p : Port) (code : Word) (s : State) :
    (raiseFault p code s).params = s.params := by cases p <;> rfl

@[simp] theorem raiseFault_snapshot (p : Port) (code : Word) (s : State) :
    (raiseFault p code s).snapshot = s.snapshot := by cases p <;> rfl

@[simp] theorem raiseFault_inc (p : Port) (code : Word) (s : State) :
    (raiseFault p code s).inc = s.inc := by cases p <;> rfl

@[simp] theorem raiseFault_sr (p : Port) (code : Word) (s : State) :
    (raiseFault p code s).sr = s.sr := by cases p <;> rfl

@[simp] theorem raiseFault_maxBlk (p : Port) (code : Word) (s : State) :
    (raiseFault p code s).maxBlk = s.maxBlk := by cases p <;> rfl

@[simp] theorem raiseFault_nch (p : Port) (code : Word) (s : State) :
    (raiseFault p code s).nch = s.nch := by cases p <;> rfl

@[simp] theorem raiseFault_cap (p : Port) (code : Word) (s : State) :
    (raiseFault p code s).cap = s.cap := by cases p <;> rfl

@[simp] theorem raiseFault_chans (p : Port) (code : Word) (s : State) :
    (raiseFault p code s).chans = s.chans := by cases p <;> rfl

@[simp] theorem raiseFault_blkN (p : Port) (code : Word) (s : State) :
    (raiseFault p code s).blkN = s.blkN := by cases p <;> rfl

@[simp] theorem raiseFault_chIdx (p : Port) (code : Word) (s : State) :
    (raiseFault p code s).chIdx = s.chIdx := by cases p <;> rfl

@[simp] theorem raiseFault_smpIdx (p : Port) (code : Word) (s : State) :
    (raiseFault p code s).smpIdx = s.smpIdx := by cases p <;> rfl

@[simp] theorem raiseFault_blockRunning (p : Port) (code : Word) (s : State) :
    (raiseFault p code s).blockRunning = s.blockRunning := by cases p <;> rfl

@[simp] theorem raiseFault_audioTaken (p : Port) (code : Word) (s : State) :
    (raiseFault p code s).audioTaken = s.audioTaken := by cases p <;> rfl

@[simp] theorem raiseFault_controlTaken (p : Port) (code : Word) (s : State) :
    (raiseFault p code s).controlTaken = s.controlTaken := by cases p <;> rfl

@[simp] theorem raiseFault_inputs (p : Port) (code : Word) (s : State) :
    (raiseFault p code s).inputs = s.inputs := by cases p <;> rfl

@[simp] theorem raiseFault_freeCount (p : Port) (code : Word) (s : State) :
    (raiseFault p code s).freeCount = s.freeCount := by cases p <;> rfl

theorem raiseFault_faultCode (p : Port) (code : Word) {s : State} (h : s.fault = false) :
    (raiseFault p code s).faultCode = code := by
  cases p <;> simp [raiseFault, h]

/-! ## `clearAll` -/

@[simp] theorem clearAll_engineState (s : State) : (clearAll s).engineState = s.engineState := rfl

@[simp] theorem clearAll_fault (s : State) : (clearAll s).fault = s.fault := rfl

@[simp] theorem clearAll_faultCode (s : State) : (clearAll s).faultCode = s.faultCode := rfl

@[simp] theorem clearAll_params (s : State) : (clearAll s).params = s.params := rfl

@[simp] theorem clearAll_snapshot (s : State) : (clearAll s).snapshot = s.snapshot := rfl

@[simp] theorem clearAll_inc (s : State) : (clearAll s).inc = s.inc := rfl

@[simp] theorem clearAll_sr (s : State) : (clearAll s).sr = s.sr := rfl

@[simp] theorem clearAll_maxBlk (s : State) : (clearAll s).maxBlk = s.maxBlk := rfl

@[simp] theorem clearAll_nch (s : State) : (clearAll s).nch = s.nch := rfl

@[simp] theorem clearAll_cap (s : State) : (clearAll s).cap = s.cap := rfl

@[simp] theorem clearAll_chans (s : State) :
    (clearAll s).chans = (s.chans.take s.nch).map (Channel.clear s.cap) ++ s.chans.drop s.nch := rfl

@[simp] theorem clearAll_blkN (s : State) : (clearAll s).blkN = s.blkN := rfl

@[simp] theorem clearAll_chIdx (s : State) : (clearAll s).chIdx = s.chIdx := rfl

@[simp] theorem clearAll_smpIdx (s : State) : (clearAll s).smpIdx = s.smpIdx := rfl

@[simp] theorem clearAll_blockRunning (s : State) : (clearAll s).blockRunning = s.blockRunning := rfl

@[simp] theorem clearAll_audioTaken (s : State) : (clearAll s).audioTaken = s.audioTaken := rfl

@[simp] theorem clearAll_controlTaken (s : State) : (clearAll s).controlTaken = s.controlTaken := rfl

@[simp] theorem clearAll_audioOut (s : State) : (clearAll s).audioOut = s.audioOut := rfl

@[simp] theorem clearAll_controlOut (s : State) : (clearAll s).controlOut = s.controlOut := rfl

@[simp] theorem clearAll_inputs (s : State) : (clearAll s).inputs = s.inputs := rfl

@[simp] theorem clearAll_freeCount (s : State) : (clearAll s).freeCount = s.freeCount := rfl

/-! ## `latch` -/

@[simp] theorem latch_engineState (s : State) : (latch s).engineState = s.engineState := rfl

@[simp] theorem latch_fault (s : State) : (latch s).fault = s.fault := rfl

@[simp] theorem latch_faultCode (s : State) : (latch s).faultCode = s.faultCode := rfl

@[simp] theorem latch_params (s : State) : (latch s).params = s.params := rfl

@[simp] theorem latch_snapshot (s : State) : (latch s).snapshot = s.params := rfl

@[simp] theorem latch_inc (s : State) : (latch s).inc = increment s.nan s.params.rate s.sr := rfl

@[simp] theorem latch_sr (s : State) : (latch s).sr = s.sr := rfl

@[simp] theorem latch_maxBlk (s : State) : (latch s).maxBlk = s.maxBlk := rfl

@[simp] theorem latch_nch (s : State) : (latch s).nch = s.nch := rfl

@[simp] theorem latch_cap (s : State) : (latch s).cap = s.cap := rfl

@[simp] theorem latch_chans (s : State) : (latch s).chans = s.chans := rfl

@[simp] theorem latch_blkN (s : State) : (latch s).blkN = s.blkN := rfl

@[simp] theorem latch_chIdx (s : State) : (latch s).chIdx = s.chIdx := rfl

@[simp] theorem latch_smpIdx (s : State) : (latch s).smpIdx = s.smpIdx := rfl

@[simp] theorem latch_blockRunning (s : State) : (latch s).blockRunning = s.blockRunning := rfl

@[simp] theorem latch_audioTaken (s : State) : (latch s).audioTaken = s.audioTaken := rfl

@[simp] theorem latch_controlTaken (s : State) : (latch s).controlTaken = s.controlTaken := rfl

@[simp] theorem latch_audioOut (s : State) : (latch s).audioOut = s.audioOut := rfl

@[simp] theorem latch_controlOut (s : State) : (latch s).controlOut = s.controlOut := rfl

@[simp] theorem latch_inputs (s : State) : (latch s).inputs = s.inputs := rfl

@[simp] theorem latch_freeCount (s : State) : (latch s).freeCount = s.freeCount + 1 := rfl

/-! ## `beginBlock` -/

@[simp] theorem beginBlock_engineState (n : Nat) (s : State) : (beginBlock n s).engineState = s.engineState := rfl

@[simp] theorem beginBlock_fault (n : Nat) (s : State) : (beginBlock n s).fault = s.fault := rfl

@[simp] theorem beginBlock_faultCode (n : Nat) (s : State) : (beginBlock n s).faultCode = s.faultCode := rfl

@[simp] theorem beginBlock_params (n : Nat) (s : State) : (beginBlock n s).params = s.params := rfl

@[simp] theorem beginBlock_snapshot (n : Nat) (s : State) : (beginBlock n s).snapshot = s.snapshot := rfl

@[simp] theorem beginBlock_inc (n : Nat) (s : State) : (beginBlock n s).inc = s.inc := rfl

@[simp] theorem beginBlock_sr (n : Nat) (s : State) : (beginBlock n s).sr = s.sr := rfl

@[simp] theorem beginBlock_maxBlk (n : Nat) (s : State) : (beginBlock n s).maxBlk = s.maxBlk := rfl

@[simp] theorem beginBlock_nch (n : Nat) (s : State) : (beginBlock n s).nch = s.nch := rfl

@[simp] theorem beginBlock_cap (n : Nat) (s : State) : (beginBlock n s).cap = s.cap := rfl

@[simp] theorem beginBlock_chans (n : Nat) (s : State) : (beginBlock n s).chans = s.chans := rfl

@[simp] theorem beginBlock_blkN (n : Nat) (s : State) : (beginBlock n s).blkN = n := rfl

@[simp] theorem beginBlock_chIdx (n : Nat) (s : State) : (beginBlock n s).chIdx = 0 := rfl

@[simp] theorem beginBlock_smpIdx (n : Nat) (s : State) : (beginBlock n s).smpIdx = 0 := rfl

@[simp] theorem beginBlock_blockRunning (n : Nat) (s : State) :
    (beginBlock n s).blockRunning = decide (0 < s.nch * n) := rfl

@[simp] theorem beginBlock_audioTaken (n : Nat) (s : State) : (beginBlock n s).audioTaken = s.audioTaken := rfl

@[simp] theorem beginBlock_controlTaken (n : Nat) (s : State) : (beginBlock n s).controlTaken = s.controlTaken := rfl

@[simp] theorem beginBlock_audioOut (n : Nat) (s : State) : (beginBlock n s).audioOut = s.audioOut := rfl

@[simp] theorem beginBlock_controlOut (n : Nat) (s : State) : (beginBlock n s).controlOut = s.controlOut := rfl

@[simp] theorem beginBlock_inputs (n : Nat) (s : State) : (beginBlock n s).inputs = s.inputs := rfl

@[simp] theorem beginBlock_freeCount (n : Nat) (s : State) : (beginBlock n s).freeCount = s.freeCount := rfl

/-! ## `advanceBlock` -/

@[simp] theorem advanceBlock_engineState (s : State) :
    (advanceBlock s).engineState = s.engineState := by unfold advanceBlock; split <;> rfl

@[simp] theorem advanceBlock_fault (s : State) :
    (advanceBlock s).fault = s.fault := by unfold advanceBlock; split <;> rfl

@[simp] theorem advanceBlock_faultCode (s : State) :
    (advanceBlock s).faultCode = s.faultCode := by unfold advanceBlock; split <;> rfl

@[simp] theorem advanceBlock_params (s : State) :
    (advanceBlock s).params = s.params := by unfold advanceBlock; split <;> rfl

@[simp] theorem advanceBlock_snapshot (s : State) :
    (advanceBlock s).snapshot = s.snapshot := by unfold advanceBlock; split <;> rfl

@[simp] theorem advanceBlock_inc (s : State) : (advanceBlock s).inc = s.inc := by unfold advanceBlock; split <;> rfl

@[simp] theorem advanceBlock_sr (s : State) : (advanceBlock s).sr = s.sr := by unfold advanceBlock; split <;> rfl

@[simp] theorem advanceBlock_maxBlk (s : State) :
    (advanceBlock s).maxBlk = s.maxBlk := by unfold advanceBlock; split <;> rfl

@[simp] theorem advanceBlock_nch (s : State) : (advanceBlock s).nch = s.nch := by unfold advanceBlock; split <;> rfl

@[simp] theorem advanceBlock_cap (s : State) : (advanceBlock s).cap = s.cap := by unfold advanceBlock; split <;> rfl

@[simp] theorem advanceBlock_chans (s : State) :
    (advanceBlock s).chans = s.chans := by unfold advanceBlock; split <;> rfl

@[simp] theorem advanceBlock_blkN (s : State) : (advanceBlock s).blkN = s.blkN := by unfold advanceBlock; split <;> rfl

@[simp] theorem advanceBlock_audioTaken (s : State) :
    (advanceBlock s).audioTaken = s.audioTaken := by unfold advanceBlock; split <;> rfl

@[simp] theorem advanceBlock_controlTaken (s : State) :
    (advanceBlock s).controlTaken = s.controlTaken := by unfold advanceBlock; split <;> rfl

@[simp] theorem advanceBlock_audioOut (s : State) :
    (advanceBlock s).audioOut = s.audioOut := by unfold advanceBlock; split <;> rfl

@[simp] theorem advanceBlock_controlOut (s : State) :
    (advanceBlock s).controlOut = s.controlOut := by unfold advanceBlock; split <;> rfl

@[simp] theorem advanceBlock_inputs (s : State) :
    (advanceBlock s).inputs = s.inputs := by unfold advanceBlock; split <;> rfl

@[simp] theorem advanceBlock_freeCount (s : State) :
    (advanceBlock s).freeCount = s.freeCount := by unfold advanceBlock; split <;> rfl

/-! ## `loseConfig` -/

@[simp] theorem loseConfig_engineState (hw : Hardware) (s : State) : (loseConfig hw s).engineState = .unprepared := rfl

@[simp] theorem loseConfig_fault (hw : Hardware) (s : State) : (loseConfig hw s).fault = s.fault := rfl

@[simp] theorem loseConfig_faultCode (hw : Hardware) (s : State) : (loseConfig hw s).faultCode = s.faultCode := rfl

@[simp] theorem loseConfig_params (hw : Hardware) (s : State) : (loseConfig hw s).params = s.params := rfl

@[simp] theorem loseConfig_snapshot (hw : Hardware) (s : State) : (loseConfig hw s).snapshot = s.snapshot := rfl

@[simp] theorem loseConfig_inc (hw : Hardware) (s : State) : (loseConfig hw s).inc = s.inc := rfl

@[simp] theorem loseConfig_blkN (hw : Hardware) (s : State) : (loseConfig hw s).blkN = s.blkN := rfl

@[simp] theorem loseConfig_chIdx (hw : Hardware) (s : State) : (loseConfig hw s).chIdx = s.chIdx := rfl

@[simp] theorem loseConfig_smpIdx (hw : Hardware) (s : State) : (loseConfig hw s).smpIdx = s.smpIdx := rfl

@[simp] theorem loseConfig_blockRunning (hw : Hardware) (s : State) : (loseConfig hw s).blockRunning = s.blockRunning := rfl

@[simp] theorem loseConfig_audioTaken (hw : Hardware) (s : State) : (loseConfig hw s).audioTaken = s.audioTaken := rfl

@[simp] theorem loseConfig_controlTaken (hw : Hardware) (s : State) : (loseConfig hw s).controlTaken = s.controlTaken := rfl

@[simp] theorem loseConfig_audioOut (hw : Hardware) (s : State) : (loseConfig hw s).audioOut = s.audioOut := rfl

@[simp] theorem loseConfig_controlOut (hw : Hardware) (s : State) : (loseConfig hw s).controlOut = s.controlOut := rfl

@[simp] theorem loseConfig_inputs (hw : Hardware) (s : State) : (loseConfig hw s).inputs = s.inputs := rfl

@[simp] theorem loseConfig_freeCount (hw : Hardware) (s : State) : (loseConfig hw s).freeCount = s.freeCount + 1 := rfl

/-! ## `configure` -/

@[simp] theorem configure_engineState (sr : Val) (m n : Int) (s : State) :
    (configure sr m n s).engineState = .prepared := rfl

@[simp] theorem configure_fault (sr : Val) (m n : Int) (s : State) : (configure sr m n s).fault = s.fault := rfl

@[simp] theorem configure_faultCode (sr : Val) (m n : Int) (s : State) :
    (configure sr m n s).faultCode = s.faultCode := rfl

@[simp] theorem configure_params (sr : Val) (m n : Int) (s : State) : (configure sr m n s).params = s.params := rfl

@[simp] theorem configure_snapshot (sr : Val) (m n : Int) (s : State) :
    (configure sr m n s).snapshot = s.snapshot := rfl

@[simp] theorem configure_inc (sr : Val) (m n : Int) (s : State) : (configure sr m n s).inc = s.inc := rfl

@[simp] theorem configure_sr (sr : Val) (m n : Int) (s : State) : (configure sr m n s).sr = sr := rfl

@[simp] theorem configure_maxBlk (sr : Val) (m n : Int) (s : State) :
    (configure sr m n s).maxBlk = BitVec.ofInt 32 m := rfl

@[simp] theorem configure_nch (sr : Val) (m n : Int) (s : State) : (configure sr m n s).nch = n.toNat := rfl

@[simp] theorem configure_cap (sr : Val) (m n : Int) (s : State) : (configure sr m n s).cap = capacity sr := rfl

@[simp] theorem configure_blkN (sr : Val) (m n : Int) (s : State) : (configure sr m n s).blkN = s.blkN := rfl

@[simp] theorem configure_chIdx (sr : Val) (m n : Int) (s : State) : (configure sr m n s).chIdx = s.chIdx := rfl

@[simp] theorem configure_smpIdx (sr : Val) (m n : Int) (s : State) : (configure sr m n s).smpIdx = s.smpIdx := rfl

@[simp] theorem configure_blockRunning (sr : Val) (m n : Int) (s : State) :
    (configure sr m n s).blockRunning = s.blockRunning := rfl

@[simp] theorem configure_audioTaken (sr : Val) (m n : Int) (s : State) :
    (configure sr m n s).audioTaken = s.audioTaken := rfl

@[simp] theorem configure_controlTaken (sr : Val) (m n : Int) (s : State) :
    (configure sr m n s).controlTaken = s.controlTaken := rfl

@[simp] theorem configure_audioOut (sr : Val) (m n : Int) (s : State) :
    (configure sr m n s).audioOut = s.audioOut := rfl

@[simp] theorem configure_controlOut (sr : Val) (m n : Int) (s : State) :
    (configure sr m n s).controlOut = s.controlOut := rfl

@[simp] theorem configure_inputs (sr : Val) (m n : Int) (s : State) : (configure sr m n s).inputs = s.inputs := rfl

@[simp] theorem configure_freeCount (sr : Val) (m n : Int) (s : State) :
    (configure sr m n s).freeCount = s.freeCount := rfl

/-! ## `powerOn` -/

@[simp] theorem powerOn_engineState (hw : Hardware) (rest : List Input) (s : State) :
    (powerOn hw rest s).engineState = .unprepared := rfl

@[simp] theorem powerOn_fault (hw : Hardware) (rest : List Input) (s : State) :
    (powerOn hw rest s).fault = false := rfl

@[simp] theorem powerOn_inputs (hw : Hardware) (rest : List Input) (s : State) :
    (powerOn hw rest s).inputs = rest := rfl

@[simp] theorem powerOn_freeCount (hw : Hardware) (rest : List Input) (s : State) :
    (powerOn hw rest s).freeCount = s.freeCount := rfl

end Sys2Proof.Machine
end

