-- ==== Sys2Proof/Laws/Ops.lean ====
section
/-! SUPPORT. One lemma for each shared operation and each meaning: everything it can do, for the provers to cite instead of
unfolding it. -/

namespace Sys2Proof.Machine

/-! ## Words received while faulted -/

theorem discardWords_audio (k : Nat) (s : State) :
    discardWords .audio k s = { s with audioOut := s.audioOut ++ List.replicate k fcFaulted } := by
  induction k generalizing s with
  | zero => simp [discardWords]
  | succ k ih => simp [discardWords, discardWord, respond, ih, List.replicate_succ]

theorem discardWords_control (k : Nat) (s : State) :
    discardWords .control k s = { s with controlOut := s.controlOut ++ List.replicate k fcFaulted } := by
  induction k generalizing s with
  | zero => simp [discardWords]
  | succ k ih => simp [discardWords, discardWord, respond, ih, List.replicate_succ]

/-! ## Parameter commands -/

/-- Everything a SET can do (R101). -/
theorem setParam_cases (r : ParamReg) (v : Word) (s : State) :
    (s.fault = true ∧ setParam r v s = { s with controlOut := s.controlOut ++ [fcFaulted, fcFaulted] }) ∨
    (s.fault = false ∧ isNan v = true ∧ setParam r v s = respond .control stParamNan s) ∨
    (s.fault = false ∧ isNan v = false ∧
      setParam r v s = respond .control stOk { s with params := s.params.put r (clamp v r.lo r.hi) }) := by
  unfold setParam
  cases hf : s.fault
  · cases hn : isNan v <;> simp
  · simp [discardWords_control, hf]

/-- Everything a GET can do (R109). -/
theorem getParam_cases (r : ParamReg) (s : State) :
    (s.fault = true ∧ getParam r s = { s with controlOut := s.controlOut ++ [fcFaulted] }) ∨
    (s.fault = false ∧ getParam r s = { s with controlOut := s.controlOut ++ [stOk, s.params.get r] }) := by
  unfold getParam
  cases hf : s.fault <;> simp [respond, discardWords_control, hf]

@[simp] theorem Params.get_put_same (r : ParamReg) (v : Val) (p : Params) : (p.put r v).get r = v := by cases r <;> rfl

theorem Params.get_put_other {r q : ParamReg} (h : q ≠ r) (v : Val) (p : Params) : (p.put r v).get q = p.get q := by
  cases r <;> cases q <;> first | rfl | exact absurd rfl h

/-! ## PREPARE and RESET -/

/-- When the configuration is accepted (R171). -/
theorem checkCfg_ok_iff (hw : Hardware) (sr : Val) (m n : Int) :
    checkCfg hw sr m n = stOk ↔
      isNan sr = false ∧ fle Config.srMin sr = true ∧ sr ≠ posInf ∧ 1 ≤ n ∧ n ≤ (hw.nchMax : Int) ∧ 1 ≤ m ∧
      capacity sr ≤ hw.capMax := by
  have e1 : stCfgSampleRate ≠ stOk := by decide
  have e2 : stCfgChannels ≠ stOk := by decide
  have e3 : stCfgBlockSize ≠ stOk := by decide
  have e4 : stCfgCapacity ≠ stOk := by decide
  unfold checkCfg
  split
  · rename_i h
    simp only [e1, false_iff]
    rintro ⟨h1, h2, h3, -⟩
    simp [h1, h2, h3] at h
  · rename_i h
    simp only [Bool.or_eq_true, Bool.not_eq_true', beq_iff_eq, not_or, Bool.not_eq_true, Bool.not_eq_false] at h
    obtain ⟨⟨h1, h2⟩, h3⟩ := h
    split
    · rename_i h4
      simp only [e2, false_iff]
      rintro ⟨-, -, -, h5, h6, -⟩
      omega
    · rename_i h4
      split
      · rename_i h5
        simp only [e3, false_iff]
        rintro ⟨-, -, -, -, -, h6, -⟩
        omega
      · rename_i h5
        split
        · rename_i h6
          simp only [e4, false_iff]
          rintro ⟨-, -, -, -, -, -, h7⟩
          omega
        · rename_i h6
          simp only [true_iff]
          exact ⟨h1, h2, h3, by omega, by omega, by omega, by omega⟩

/-- Everything PREPARE can do (R170). -/
theorem execPrepareOn_cases (hw : Hardware) (sampleRate : BitVec 64) (m n : Int) (s : State) :
    (s.fault = true ∧ execPrepareOn hw sampleRate m n s = .next (discardWords .audio 5 s)) ∨
    (s.fault = false ∧ checkCfg hw (valOfF64 (s.nan .sampleRate) sampleRate) m n = stOk ∧
      execPrepareOn hw sampleRate m n s =
        .next (respond .audio stOk (configure (valOfF64 (s.nan .sampleRate) sampleRate) m n s))) ∨
    (s.fault = false ∧ checkCfg hw (valOfF64 (s.nan .sampleRate) sampleRate) m n ≠ stOk ∧
      execPrepareOn hw sampleRate m n s =
        .next (respond .audio (checkCfg hw (valOfF64 (s.nan .sampleRate) sampleRate) m n) (loseConfig hw s))) := by
  unfold execPrepareOn
  cases hf : s.fault <;> simp
  by_cases h : checkCfg hw (valOfF64 (s.nan .sampleRate) sampleRate) m n = stOk <;> simp [h]

/-- Everything RESET can do (R177). -/
theorem execReset_cases (s : State) :
    (s.fault = true ∧ execReset s = .next (discardWords .audio 1 s)) ∨
    (s.fault = false ∧ s.engineState = .unprepared ∧ execReset s = .next (raiseFault .audio fcNotPrepared s)) ∨
    (s.fault = false ∧ s.engineState = .prepared ∧ execReset s = .next (respond .audio stOk (clearAll s))) := by
  unfold execReset
  cases hf : s.fault <;> cases he : s.engineState <;> simp

/-- Everything PROCESS can do in its first step (R159). -/
theorem execProcess_cases (n : Nat) (s : State) :
    (s.fault = true ∧ execProcess n s = .next (discardWords .audio 1 s)) ∨
    (s.fault = false ∧ s.engineState = .unprepared ∧ execProcess n s = .next (raiseFault .audio fcNotPrepared s)) ∨
    (s.fault = false ∧ s.engineState = .prepared ∧ s.maxBlk.toNat < n ∧
      execProcess n s = .next (raiseFault .audio fcBlockTooLong s)) ∨
    (s.fault = false ∧ s.engineState = .prepared ∧ n ≤ s.maxBlk.toNat ∧
      execProcess n s = .next (beginBlock n (latch (respond .audio stOk s)))) := by
  unfold execProcess
  cases hf : s.fault <;> cases he : s.engineState <;> simp
  rcases Nat.lt_or_ge s.maxBlk.toNat n with h | h
  · simp [h]
  · simp [h, not_lt.mpr h]

/-! ## CLEAR -/

/-- The channels after CLEAR, one by one (R176). -/
theorem clearAll_getElem? (s : State) (ch : Nat) :
    (clearAll s).chans[ch]? = if ch < s.nch then (s.chans[ch]?).map (Channel.clear s.cap) else s.chans[ch]? := by
  simp only [clearAll_chans]
  by_cases h : ch < s.nch
  · rw [if_pos h]
    by_cases hl : ch < s.chans.length
    · rw [List.getElem?_append_left (by simp; omega)]
      simp [List.getElem?_map, h]
    · rw [List.getElem?_append_right (by simp; omega)]
      have h1 : s.chans[ch]? = none := List.getElem?_eq_none (by omega)
      rw [h1, Option.map_none, List.getElem?_eq_none]
      simp; omega
  · rw [if_neg h]
    by_cases hl : s.nch ≤ s.chans.length
    · rw [List.getElem?_append_right (by simp; omega)]
      rw [List.getElem?_drop]
      congr 1
      simp; omega
    · rw [List.getElem?_append_right (by simp; omega)]
      have h1 : s.chans[ch]? = none := List.getElem?_eq_none (by omega)
      rw [h1, List.getElem?_eq_none]
      simp; omega

@[simp] theorem clearAll_length (s : State) : (clearAll s).chans.length = s.chans.length := by
  simp; omega

/-! ## Ticks -/

/-- Everything a sample word of a block can do when it answers a next state (R156, R159): one tick of the channel the
counters name. -/
theorem sampleStep_next {hw : Hardware} {w : Word} {s t : State}
    (h : sampleStep hw w s = .next t) :
    ∃ c c' y, s.chans[s.chIdx]? = some c ∧ s.chIdx < s.nch ∧
      tickChannel hw.wave (hw.phaseOffset s.chIdx) s.nan s.snapshot s.inc s.sr s.cap c w = some (c', y) ∧
      t = advanceBlock (respond .audio y { s with chans := s.chans.set s.chIdx c', freeCount := s.freeCount + 1 }) := by
  unfold sampleStep at h
  split at h
  · cases h
  · rename_i c hc
    split at h
    · rename_i hlt
      split at h
      · cases h
      · rename_i c' y ht
        cases h
        exact ⟨c, c', y, hc, hlt, ht, rfl⟩
    · cases h

/-- Everything a tick does when it stays in the channel's address space (R156): the read at a delay `d` inside the buffer
gives the wet sample, the write goes to the write cursor, the cursor and the phase advance, and the output is mixed. -/
theorem tickChannel_some {wave : Val → Val} {offset : Val} {nan : NanSite → Val} {snap : Params} {inc sr : Val} {cap : Nat}
    {c c' : Channel} {x y : Val} (h : tickChannel wave offset nan snap inc sr cap c x = some (c', y)) :
    ∃ w, fracRead nan cap c (dclamp cap (delayCalc nan snap sr (oscValue wave offset nan c.phase))) = some w ∧
      c.cursor < cap ∧
      c'.dl = Memory.write c.dl c.cursor (fbValue nan snap.feedback x w) ∧
      c'.cursor = (c.cursor + 1) % cap ∧
      c'.phase = wrap1 (nan .phaseWrap) (fadd (nan .phaseSum) c.phase inc) ∧
      y = mixOut nan snap.mix x w := by
  unfold tickChannel at h
  simp only at h
  split at h
  · cases h
  · rename_i w hw
    split at h
    · rename_i hlt
      simp only [Option.some.injEq, Prod.mk.injEq] at h
      obtain ⟨rfl, rfl⟩ := h
      exact ⟨w, hw, hlt, rfl, rfl, rfl, rfl⟩
    · cases h

/-! ## The arms of `exec` -/

@[simp] theorem exec_setRate (v : Word) (s : State) : exec (.setRate v) s = .next (setParam .rate v s) := rfl
@[simp] theorem exec_setDepth (v : Word) (s : State) : exec (.setDepth v) s = .next (setParam .depth v s) := rfl
@[simp] theorem exec_setCentreDelay (v : Word) (s : State) :
    exec (.setCentreDelay v) s = .next (setParam .centreDelay v s) := rfl
@[simp] theorem exec_setFeedback (v : Word) (s : State) : exec (.setFeedback v) s = .next (setParam .feedback v s) := rfl
@[simp] theorem exec_setMix (v : Word) (s : State) : exec (.setMix v) s = .next (setParam .mix v s) := rfl
@[simp] theorem exec_getRate (s : State) : exec .getRate s = .next (getParam .rate s) := rfl
@[simp] theorem exec_getDepth (s : State) : exec .getDepth s = .next (getParam .depth s) := rfl
@[simp] theorem exec_getCentreDelay (s : State) : exec .getCentreDelay s = .next (getParam .centreDelay s) := rfl
@[simp] theorem exec_getFeedback (s : State) : exec .getFeedback s = .next (getParam .feedback s) := rfl
@[simp] theorem exec_getMix (s : State) : exec .getMix s = .next (getParam .mix s) := rfl
@[simp] theorem exec_reset (s : State) : exec .reset s = execReset s := rfl
@[simp] theorem exec_process (n : Nat) (s : State) : exec (.process n) s = execProcess n s := rfl
/-- Everything the machine's PREPARE can do: the same, on the default hardware. -/
theorem execPrepare_eq (sampleRate : BitVec 64) (m n : Int) (s : State) :
    execPrepare sampleRate m n s = execPrepareOn defaultHardware sampleRate m n s := rfl

@[simp] theorem exec_prepare (r : BitVec 64) (m n : Int) (s : State) : exec (.prepare r m n) s = execPrepare r m n s := rfl

end Sys2Proof.Machine
end

