-- ==== Sys2Proof/Laws/PerInstr.lean ====
section
/-! SUPPORT. Facts stated for each command alone: one lemma per constructor of Instr. -/

namespace Sys2Proof.Laws.EncodedLength

/-- The encoder writes as many words as the command's format has (R75, R82). -/
def Statement (i : Instr) : Prop := (encode i).length = i.words

theorem prepare (sampleRate : BitVec 64) (maxBlockSize numChannels : Int) :
    Statement (.prepare sampleRate maxBlockSize numChannels) := rfl
theorem reset : Statement .reset := rfl
theorem process (numSamples : Nat) : Statement (.process numSamples) := rfl
theorem setRate (value : Word) : Statement (.setRate value) := rfl
theorem setDepth (value : Word) : Statement (.setDepth value) := rfl
theorem setCentreDelay (value : Word) : Statement (.setCentreDelay value) := rfl
theorem setFeedback (value : Word) : Statement (.setFeedback value) := rfl
theorem setMix (value : Word) : Statement (.setMix value) := rfl
theorem getRate : Statement .getRate := rfl
theorem getDepth : Statement .getDepth := rfl
theorem getCentreDelay : Statement .getCentreDelay := rfl
theorem getFeedback : Statement .getFeedback := rfl
theorem getMix : Statement .getMix := rfl

end Sys2Proof.Laws.EncodedLength
end

