-- ==== Sys2Proof/Laws/Step.lean ====
section
/-! SUPPORT. What decoding, fetching and one step can do: the inversion lemmas every statement about a step starts from. -/

namespace Sys2Proof.Machine

/-! ## Decoding -/

/-- A row of the opcode map is its command's row. -/
theorem row_of_mem {r : Row} (h : r ∈ opcodeTable) : r = r.op.row := by
  simp only [opcodeTable, List.mem_cons, List.not_mem_nil, or_false] at h
  rcases h with rfl | rfl | rfl | rfl | rfl | rfl | rfl | rfl | rfl | rfl | rfl | rfl | rfl <;> rfl

/-- What a header that selects a row looks like. -/
theorem rowOf_some {h : Word} {r : Row} (hr : rowOf h = some r) : r = r.op.row ∧ h &&& r.mask = r.matchBits := by
  have h1 := List.find?_some hr
  exact ⟨row_of_mem (List.mem_of_find?_eq_some hr), by simpa [Row.selects] using h1⟩

/-- The row of every command is in the opcode map. -/
theorem row_mem (op : Op) : op.row ∈ opcodeTable := by cases op <;> simp [opcodeTable]

/-- Every command the decoder answers on a port belongs to the row its header selects, and to that port. -/
theorem decode_command {p : Port} {ws : List Word} {i : Instr} {rest : List Word} (h : decode p ws = .command i rest) :
    ∃ hd payload, ws = hd :: payload ∧ rowOf hd = some i.op.row ∧ i.port = p ∧
      assemble i.op hd payload = .command i rest := by
  unfold decode at h
  split at h
  · cases h
  · rename_i hd payload
    split at h
    · cases h
    · rename_i r hr
      split at h
      · rename_i hp
        have hrow := (rowOf_some hr).1
        have hop : i.op = r.op := by
          revert h
          cases hro : r.op <;> intro h <;>
            simp only [assemble, Decoded.command.injEq] at h <;>
            first
              | (obtain ⟨rfl, -⟩ := h; rfl)
              | (unfold takePrepare at h; split at h <;> simp only [Decoded.command.injEq, reduceCtorEq] at h;
                 obtain ⟨rfl, -⟩ := h; rfl)
              | (unfold takeValue at h; split at h <;> simp only [Decoded.command.injEq, reduceCtorEq] at h;
                 obtain ⟨rfl, -⟩ := h; rfl)
        refine ⟨hd, payload, rfl, ?_, ?_, ?_⟩
        · rw [hr, hop, ← hrow]
        · unfold Instr.port; rw [hop, ← hrow]; exact hp
        · rw [hop]; exact h
      · cases h

/-- The commands of the CONTROL port are the SET and GET commands. -/
theorem decode_control {ws : List Word} {i : Instr} {rest : List Word} (h : decode .control ws = .command i rest) :
    (∃ v, i = .setRate v ∨ i = .setDepth v ∨ i = .setCentreDelay v ∨ i = .setFeedback v ∨ i = .setMix v) ∨
    i = .getRate ∨ i = .getDepth ∨ i = .getCentreDelay ∨ i = .getFeedback ∨ i = .getMix := by
  obtain ⟨-, -, -, -, hp, -⟩ := decode_command h
  cases i <;> first | (simp [Instr.port, Instr.op, Op.row] at hp; done) | simp

/-- The commands of the AUDIO port are PREPARE, RESET and PROCESS. -/
theorem decode_audio {ws : List Word} {i : Instr} {rest : List Word} (h : decode .audio ws = .command i rest) :
    (∃ r m n, i = .prepare r m n) ∨ i = .reset ∨ ∃ n, i = .process n := by
  obtain ⟨-, -, -, -, hp, -⟩ := decode_command h
  cases i <;> first | (simp [Instr.port, Instr.op, Op.row] at hp; done) | simp

/-! ## Fetching -/

/-- What a port has after taking words: it took at least the first word for it, and what it answers is what the decoder
makes of the words taken (R72). -/
theorem fetch_spec (p : Port) (w : Word) (taken : List Word) (rest : List Input) :
    ∃ ws left, .word p w :: rest = (w :: ws).map (.word p) ++ left ∧
      (∀ k, 0 < k → k ≤ ws.length → decode p (taken ++ (w :: ws).take k) = .incomplete) ∧
      ((∃ i extra, decode p (taken ++ w :: ws) = .command i extra ∧
          fetch p taken (.word p w :: rest) = .command i (extra.map (.word p) ++ left)) ∨
        (∃ why, decode p (taken ++ w :: ws) = .illegal why ∧ fetch p taken (.word p w :: rest) = .illegal left) ∨
        (decode p (taken ++ w :: ws) = .incomplete ∧ fetch p taken (.word p w :: rest) = .short (taken ++ w :: ws) left)) := by
  induction rest generalizing taken w with
  | nil =>
    refine ⟨[], [], rfl, fun k h0 hk => absurd hk (by simp; omega), ?_⟩
    rw [fetch]
    simp only [if_true]
    cases hd : decode p (taken ++ [w]) with
    | command i extra => exact Or.inl ⟨i, extra, rfl, by simp⟩
    | illegal why => exact Or.inr (Or.inl ⟨why, rfl, by simp⟩)
    | incomplete => exact Or.inr (Or.inr ⟨rfl, by simp [fetch]⟩)
  | cons x rest ih =>
    cases hd : decode p (taken ++ [w]) with
    | command i extra =>
      refine ⟨[], x :: rest, rfl, fun k h0 hk => absurd hk (by simp; omega), Or.inl ⟨i, extra, hd, ?_⟩⟩
      rw [fetch]; simp [hd]
    | illegal why =>
      refine ⟨[], x :: rest, rfl, fun k h0 hk => absurd hk (by simp; omega), Or.inr (Or.inl ⟨why, hd, ?_⟩)⟩
      rw [fetch]; simp [hd]
    | incomplete =>
      have hstop : (∀ v, x ≠ .word p v) → fetch p (taken ++ [w]) (x :: rest) = .short (taken ++ [w]) (x :: rest) := by
        intro hx
        rcases x with ⟨q, v⟩ | _
        · have hq : q ≠ p := fun he => hx v (by rw [he])
          rw [fetch]; simp [hq]
        · rw [fetch]; simp
      by_cases hx : ∃ v, x = .word p v
      · obtain ⟨v, rfl⟩ := hx
        obtain ⟨ws, left, hs, hinc, hc⟩ := ih v (taken ++ [w])
        refine ⟨v :: ws, left, by simp only [List.map_cons, List.cons_append] at hs ⊢; rw [hs], ?_, ?_⟩
        · intro k h0 hk
          obtain ⟨k, rfl⟩ : ∃ j, k = j + 1 := ⟨k - 1, by omega⟩
          rcases Nat.eq_zero_or_pos k with rfl | hpos
          · simpa using hd
          · have := hinc k hpos (by simpa using hk)
            simpa [List.append_assoc] using this
        · have hf : fetch p taken (.word p w :: .word p v :: rest) = fetch p (taken ++ [w]) (.word p v :: rest) := by
            rw [fetch]; simp [hd]
          rw [hf]
          simpa [List.append_assoc] using hc
      · refine ⟨[], x :: rest, rfl, fun k h0 hk => absurd hk (by simp; omega), Or.inr (Or.inr ⟨hd, ?_⟩)⟩
        rw [fetch]; simp only [if_true, hd]
        exact hstop fun v hv => hx ⟨v, hv⟩

/-! ## The hardware -/

/-- A command that is no PREPARE does the same on any hardware (R8). -/
theorem execOn_eq_exec (hw : Hardware) {i : Instr} (h : i.op ≠ .prepare) (s : State) : execOn hw i s = exec i s := by
  cases i <;> first | rfl | exact absurd rfl h

/-- The machine's meanings are those of the default hardware. -/
theorem execOn_default (i : Instr) (s : State) : execOn defaultHardware i s = exec i s := by cases i <;> rfl

/-! ## One step -/

/-- Everything one step can do (R58, R86): nothing arrives; power-on; a word is discarded; a sample is processed; a port
takes words of a command, and executes it, faults, or waits for more. -/
theorem stepOn_cases (hw : Hardware) (s : State) :
    (s.inputs = [] ∧ stepOn hw s = .next s) ∨
    (∃ rest, s.inputs = .powerOn :: rest ∧ stepOn hw s = .next (powerOn hw rest s)) ∨
    (∃ p w rest, s.inputs = .word p w :: rest ∧ s.fault = true ∧
      stepOn hw s = .next (discardWord p { s with inputs := rest })) ∨
    (∃ w rest, s.inputs = .word .audio w :: rest ∧ s.fault = false ∧ s.blockRunning = true ∧
      stepOn hw s = sampleStep hw w { s with inputs := rest }) ∨
    (∃ p w rest, s.inputs = .word p w :: rest ∧ s.fault = false ∧ ¬(p = .audio ∧ s.blockRunning = true) ∧
      stepOn hw s = commandStep hw p s) := by
  unfold stepOn
  rcases hi : s.inputs with _ | ⟨⟨p, w⟩ | _, rest⟩
  · exact Or.inl ⟨rfl, rfl⟩
  · right; right
    cases hf : s.fault
    · right
      by_cases hb : p = .audio ∧ s.blockRunning = true
      · obtain ⟨rfl, hb'⟩ := hb
        exact Or.inl ⟨w, rest, rfl, rfl, hb', by simp [hb']⟩
      · exact Or.inr ⟨p, w, rest, rfl, rfl, hb, by simp [hb]⟩
    · exact Or.inl ⟨p, w, rest, rfl, rfl, by simp⟩
  · exact Or.inr (Or.inl ⟨rest, rfl, rfl⟩)

/-- Everything a step at a command can do, in terms of the decoder (R72, R84, R86). -/
theorem commandStep_cases (hw : Hardware) {p : Port} {w : Word} {rest : List Input} {s : State} (h : s.inputs = .word p w :: rest) :
    ∃ ws left, s.inputs = (w :: ws).map (.word p) ++ left ∧
      ((∃ i extra, decode p (s.taken p ++ w :: ws) = .command i extra ∧
          commandStep hw p s = execOn hw i (State.setTaken p [] { s with inputs := extra.map (.word p) ++ left })) ∨
        (∃ why, decode p (s.taken p ++ w :: ws) = .illegal why ∧
          commandStep hw p s = .next (raiseFault p fcIllegalCmd (State.setTaken p [] { s with inputs := left }))) ∨
        (decode p (s.taken p ++ w :: ws) = .incomplete ∧
          commandStep hw p s = .next (State.setTaken p (s.taken p ++ w :: ws) { s with inputs := left }))) := by
  obtain ⟨ws, left, hs, -, hc⟩ := fetch_spec p w (s.taken p) rest
  refine ⟨ws, left, by rw [h, hs], ?_⟩
  unfold commandStep
  rw [h]
  rcases hc with ⟨i, extra, hd, hf⟩ | ⟨why, hd, hf⟩ | ⟨hd, hf⟩
  · exact Or.inl ⟨i, extra, hd, by rw [hf]⟩
  · exact Or.inr (Or.inl ⟨why, hd, by rw [hf]⟩)
  · exact Or.inr (Or.inr ⟨hd, by rw [hf]⟩)

/-! ## Runs -/

@[simp] theorem runStepsOn_zero (hw : Hardware) (s : State) : runStepsOn hw 0 s = .next s := rfl

theorem runStepsOn_succ {hw : Hardware} {s t : State} (h : stepOn hw s = .next t) (k : Nat) :
    runStepsOn hw (k + 1) s = runStepsOn hw k t := by rw [runStepsOn, h]

/-- A run is a run, continued. -/
theorem runStepsOn_add {hw : Hardware} {j : Nat} {s t : State} (h : runStepsOn hw j s = .next t) (k : Nat) :
    runStepsOn hw (j + k) s = runStepsOn hw k t := by
  induction j generalizing s with
  | zero => cases h; rw [Nat.zero_add]
  | succ j ih =>
    rw [Nat.succ_add, runStepsOn]
    rw [runStepsOn] at h
    cases hs : stepOn hw s with
    | next u => rw [hs] at h; exact ih h
    | fault r => rw [hs] at h; cases h
    | refused r => rw [hs] at h; cases h

/-! ## Reset -/

/-- The delay RAM is in canonical form at reset. -/
theorem reset_canonical : ∀ c ∈ State.reset.chans, Memory.wf c.dl := by decide

end Sys2Proof.Machine
end

