-- ==== Sys2Proof/Tests/Slice0.lean ====
section
/-! SUPPORT. Tests of one step or one operation each, their expected results taken from spec/95_test_vectors.md (the vector is
named in each comment) or worked out from the rule named; and, for every statement with hypotheses, a theorem that shows
a case that meets them together. -/

namespace Sys2Proof.Tests

open Sys2Proof Sys2Proof.Machine

/-! ## Helpers -/

/-- Words arriving on one port. -/
def words (p : Port) (ws : List Word) : List Input := ws.map (.word p)

/-- Right after power-on, with words to arrive. -/
def fresh (p : Port) (ws : List Word) : State := { State.reset with inputs := words p ws }

/-- As `PREPARE 1000.0, 8, 2` leaves the engine, with words to arrive. -/
def ready (p : Port) (ws : List Word) : State :=
  { State.reset with
    engineState := .prepared, sr := 0x447A0000#32, maxBlk := 8#32, nch := 2, cap := 256, inputs := words p ws }

/-- In the middle of a block of two samples a channel, at the second sample of channel 0. -/
def midBlock (p : Port) (ws : List Word) : State :=
  { ready p ws with
    blkN := 2, smpIdx := 1, blockRunning := true, inc := 0x3A83126F#32
    chans := [{ phase := 0x00000000#32, cursor := 1, dl := [(0, 0x3F800000#32)] }, Channel.blank] }

/-- Faulted by a RESET before PREPARE. -/
def faulted (p : Port) (ws : List Word) : State :=
  { fresh p ws with fault := true, faultCode := 0x80000001#32 }

/-- The next state, if there is one. -/
def nextOf : Host.Outcome State Fault Refusal → Option State
  | .next s => some s
  | _ => none

/-- What one step leaves, seen through `f`. -/
def after {α : Type} (s : State) (f : State → α) : Option α := (nextOf (step s)).map f

/-- A wave with the named properties, three values and zero. -/
def squareWave (p : Val) : Val :=
  if p = 0x3E800000#32 then 0x3F800000#32 else if p = 0x3F400000#32 then 0xBF800000#32 else 0x00000000#32

/-- Hardware with three channels of 131072 words, the second a quarter turn ahead (U12). -/
def wideHardware : Hardware where
  nchMax := 3
  capMax := 131072
  phaseOffset ch := if ch = 1 then 0x3E800000#32 else 0x00000000#32
  wave := squareWave

/-! ## Well-formedness: a term each check refuses, and the terms at the ends of the ranges -/

theorem test_wellFormed_refuses_wide_maxBlockSize : ¬ (Instr.prepare 0 2147483648 1).WellFormed := by decide
theorem test_wellFormed_refuses_low_maxBlockSize : ¬ (Instr.prepare 0 (-2147483649) 1).WellFormed := by decide
theorem test_wellFormed_refuses_wide_numChannels : ¬ (Instr.prepare 0 512 2147483648).WellFormed := by decide
theorem test_wellFormed_refuses_long_process : ¬ (Instr.process 16777216).WellFormed := by decide
theorem test_wellFormed_ends :
    (Instr.prepare 0 2147483647 (-2147483648)).WellFormed ∧ (Instr.process 16777215).WellFormed := by decide

/-! ## Decoding: a word written out from the encoding of each command (R76; V-ENC, R88) -/

theorem test_decode_prepare :
    decode .audio [0x01000000#32, 0x40E77000#32, 0x083126E9#32, 0xFFFFFFFB#32, 0x00000003#32] =
      .command (.prepare 0x40E77000083126E9#64 (-5) 3) [] := by decide
theorem test_decode_reset : decode .audio [0x02000000#32] = .command .reset [] := by decide
theorem test_decode_process : decode .audio [0x03FFFFFF#32] = .command (.process 16777215) [] := by decide
theorem test_decode_setRate : decode .control [0x10000000#32, 0x437A0000#32] = .command (.setRate 0x437A0000#32) [] := by
  decide
theorem test_decode_setDepth :
    decode .control [0x11000000#32, 0xC0400000#32] = .command (.setDepth 0xC0400000#32) [] := by decide
theorem test_decode_setCentreDelay :
    decode .control [0x12000000#32, 0x41200000#32] = .command (.setCentreDelay 0x41200000#32) [] := by decide
theorem test_decode_setFeedback :
    decode .control [0x13000000#32, 0xBF000000#32] = .command (.setFeedback 0xBF000000#32) [] := by decide
theorem test_decode_setMix : decode .control [0x14000000#32, 0x3E800000#32] = .command (.setMix 0x3E800000#32) [] := by
  decide
theorem test_decode_getRate : decode .control [0x18000000#32] = .command .getRate [] := by decide
theorem test_decode_getDepth : decode .control [0x19000000#32] = .command .getDepth [] := by decide
theorem test_decode_getCentreDelay : decode .control [0x1A000000#32] = .command .getCentreDelay [] := by decide
theorem test_decode_getFeedback : decode .control [0x1B000000#32] = .command .getFeedback [] := by decide
theorem test_decode_getMix : decode .control [0x1C000000#32] = .command .getMix [] := by decide

/-- V-ENC-2 to V-ENC-6: each illegal header under the name of its case. -/
theorem test_decode_illegal :
    decode .audio [0x02000001#32] = .illegal .nonzeroArg ∧ decode .audio [0x00000000#32] = .illegal .reservedOpcode ∧
    decode .control [0x00000000#32] = .illegal .reservedOpcode ∧
    decode .control [0x15000000#32] = .illegal .reservedOpcode ∧
    decode .audio [0x10000000#32, 0x3F800000#32] = .illegal .wrongPort ∧
    decode .control [0x03000000#32] = .illegal .wrongPort := by decide

/-- R82: a command short of its payload is not a command yet. -/
theorem test_decode_incomplete :
    decode .audio [0x01000000#32, 0#32, 0#32, 0#32] = .incomplete ∧ decode .control [0x10000000#32] = .incomplete := by
  decide

/-- No header selects two rows of the opcode map. -/
theorem test_rows_disjoint :
    opcodeTable.Pairwise (fun r q => r.matchBits &&& (r.mask &&& q.mask) ≠ q.matchBits &&& (r.mask &&& q.mask)) := by
  decide

/-- R88: the encoder writes the worked encodings. -/
theorem test_encode :
    encode (.prepare 0x40E7700000000000#64 512 1) =
      [0x01000000#32, 0x40E77000#32, 0x00000000#32, 0x00000200#32, 0x00000001#32] ∧
    encode (.setCentreDelay 0x41200000#32) = [0x12000000#32, 0x41200000#32] ∧ encode (.process 2) = [0x03000002#32] := by
  decide

/-- The opcode table's numbering: the header alone, the operand words zero; and all five words given. -/
theorem test_decodeTableWord :
    decodeTableWord 32 0x12000000 = some (.setCentreDelay 0#32) ∧
    decodeTableWord 64 0x4120000012000000 = some (.setCentreDelay 0x41200000#32) ∧
    decodeTableWord 160 0x00000001000002000000000040E7700001000000 = some (.prepare 0x40E7700000000000#64 512 1) ∧
    decodeTableWord 32 0x15000000 = none := by decide

/-- The placed word is the one the next step runs (SETMIX 0.25, V-PAR-12). -/
theorem test_withFetchWord :
    after (State.reset.withFetchWord 64 0x3E80000014000000) (fun t => (t.params.mix, t.inputs)) =
      some (0x3E800000#32, []) := by decide

/-! ## Numerics (the pattern table of 95_test_vectors.md, and the vectors marked b32) -/

theorem test_lit :
    lit false 1 10 = 0x3DCCCCCD#32 ∧ lit false 7 10 = 0x3F333333#32 ∧ lit true 3 1 = 0xC0400000#32 ∧
    lit false 250 1 = 0x437A0000#32 := by decide

/-- V-OSC-1, V-DL-5, V-DL-7, V-MIX-4, V-MIX-11, P8. -/
theorem test_arithmetic :
    fdiv 0#32 0x3F800000#32 0x473B8000#32 = 0x37AEC33E#32 ∧ fdiv 0#32 0x42C80000#32 0x473B8000#32 = 0x3B088889#32 ∧
    fsub 0#32 0x42306666#32 0x42300000#32 = 0x3DCCCC00#32 ∧
    fadd 0#32 0x3F666666#32 0x3DCCCCCD#32 = 0x3F800000#32 ∧ fsub 0#32 0x3F800000#32 0x3DCCCCCD#32 = 0x3F666666#32 ∧
    fadd 0#32 0x3DCCCCCD#32 (fmul 0#32 0x3F333333#32 0x3E99999A#32) = 0x3E9EB852#32 := by decide

/-- IEEE 754: ties to even, overflow to infinity, subnormal results, signed zeros, and where a NaN comes out. -/
theorem test_arithmetic_corners :
    fadd 0#32 0x3F7FFFFF#32 0x33000000#32 = 0x3F800000#32 ∧ fmul 0#32 0x7F7FFFFF#32 0x40000000#32 = 0x7F800000#32 ∧
    fmul 0#32 0x00800000#32 0x3F000000#32 = 0x00400000#32 ∧ fsub 0#32 0x3F800000#32 0x3F800000#32 = 0x00000000#32 ∧
    fmul 0#32 0xBF800000#32 0x00000000#32 = 0x80000000#32 ∧ fdiv 7#32 0x00000000#32 0x00000000#32 = 7#32 ∧
    fadd 7#32 0x7F800000#32 0xFF800000#32 = 7#32 ∧ fmul 7#32 0x00000000#32 0x7F800000#32 = 7#32 := by decide

theorem test_compare :
    flt 0x80000000#32 0x00000000#32 = false ∧ feq 0x80000000#32 0x00000000#32 = true ∧
    fle 0x7FC00000#32 0x7FC00000#32 = false ∧ flt 0xFF800000#32 0xBF800000#32 = true := by decide

/-- V-LIFE-30: the rate is rounded once. -/
theorem test_valOfF64 :
    valOfF64 0#32 0x40E5889000000000#64 = 0x472C4480#32 ∧ valOfF64 0#32 0x40E77000083126E9#64 = 0x473B8000#32 ∧
    valOfF64 0#32 0xFFF0000000000000#64 = 0xFF800000#32 ∧ valOfF64 7#32 0x7FF8000000000000#64 = 7#32 := by decide +kernel

theorem test_ffloor_natOf :
    ffloor 0x40300000#32 = 0x40000000#32 ∧ ffloor 0xBF000000#32 = 0xBF800000#32 ∧ natOf 0x43F00000#32 = 480 ∧
    valOfNat 65535 = 0x477FFF00#32 := by decide

/-- V-LIFE-1 to V-LIFE-13, some rows. -/
theorem test_capacity :
    capacity 0x3F800000#32 = 4 ∧ capacity 0x41200000#32 = 4 ∧ capacity 0x441D8000#32 = 128 ∧
    capacity 0x441EC000#32 = 256 ∧ capacity 0x473B8000#32 = 16384 ∧ capacity (lit false 327670 1) = 65536 ∧
    capacity (lit false 327675 1) = 131072 := by decide

/-! ## Oscillator, delay line, mixer -/

/-- V-OSC-5, V-OSC-6, V-OSC-7. -/
theorem test_wrap1 :
    wrap1 0#32 0x40300000#32 = 0x3F400000#32 ∧ wrap1 0#32 0x3F800000#32 = 0x00000000#32 ∧
    wrap1 0#32 (fadd 0#32 0x3F7FFFFF#32 0x33000000#32) = 0x00000000#32 := by decide

/-- V-OSC-12: the tenth step of a tenth wraps. -/
theorem test_oscAdvance :
    (oscAdvance (fun _ => 0#32) 0x3DCCCCCD#32 { Channel.blank with phase := 0x3F666668#32 }).phase = 0x34000000#32 := by
  decide

/-- V-OSC-9, V-OSC-10. -/
theorem test_oscValue :
    oscValue lfoWave 0x00000000#32 (fun _ => 0#32) 0x3E800000#32 = 0x3F800000#32 ∧
    oscValue lfoWave 0x3E800000#32 (fun _ => 0#32) 0x3F400000#32 = 0x00000000#32 := by decide

/-- The sine of an eighth of a turn is the square root of one half, 0.70710678. -/
theorem test_sineWave :
    sineWave 0x3E000000#32 = 0x3F3504F3#32 ∧ sineWave 0x3F200000#32 = 0xBF3504F3#32 := by decide +kernel

/-- V-DL-1. -/
theorem test_slotBehind :
    slotBehind 128 7 3 = 4 ∧ slotBehind 128 7 7 = 0 ∧ slotBehind 128 7 8 = 127 ∧ slotBehind 128 7 128 = 7 := by decide

/-- V-DL-2. -/
theorem test_dlSplit :
    dlSplit (fun _ => 0#32) 128 0x40900000#32 = some (4, 0x3F000000#32) ∧
    dlSplit (fun _ => 0#32) 128 0x42FE0000#32 = some (127, 0x00000000#32) ∧
    dlSplit (fun _ => 0#32) 128 0x43000000#32 = none := by decide

/-- V-DL-3. -/
theorem test_fracRead :
    fracRead (fun _ => 0#32) 128 { phase := 0#32, cursor := 7, dl := [(3, 0x40800000#32), (4, 0x40A00000#32)] }
      0x40600000#32 = some 0x40900000#32 := by decide

/-- V-DL-4, V-DL-5, V-DL-6. -/
theorem test_lerp :
    lerp (fun _ => 0#32) 0xBF800000#32 0x3F800000#32 0x3F400000#32 = 0x3F000000#32 ∧
    lerp (fun _ => 0#32) 0x3F800000#32 0x00000000#32 0x3DCCCCCD#32 = 0x3F666666#32 ∧
    lerp (fun _ => 7#32) 0x7F800000#32 0x00000000#32 0x3F000000#32 = 7#32 := by decide

/-- V-DL-7, V-DL-8. -/
theorem test_write_and_cursor :
    (fbWrite (fun _ => 0#32) 0x3F000000#32 0x3F800000#32 0x3F800000#32 { Channel.blank with cursor := 5 }).dl =
      [(5, 0x3FC00000#32)] ∧
    (cursorAdvance 128 { Channel.blank with cursor := 127 }).cursor = 0 := by decide

/-- V-MIX-2, V-MIX-4, V-MIX-5. -/
theorem test_delayCalc :
    delayCalc (fun _ => 0#32) ⟨0#32, 0x3E000000#32, 0x41200000#32, 0#32, 0#32⟩ 0x43C80000#32 0xBF800000#32 =
      0x40600000#32 ∧
    delayCalc (fun _ => 0#32) ⟨0#32, 0x00000000#32, 0x3F800000#32, 0#32, 0#32⟩ 0x472C4400#32 0x3F000000#32 =
      0x42306666#32 ∧
    delayCalc (fun _ => 0#32) ⟨0#32, 0x3F800000#32, 0x3F800000#32, 0#32, 0#32⟩ 0x473B8000#32 0xBF800000#32 =
      0x00000000#32 := by decide

/-- V-MIX-6. -/
theorem test_dclamp :
    dclamp 128 0x43020000#32 = 0x42FE0000#32 ∧ dclamp 128 0xC0000000#32 = 0x00000000#32 ∧
    dclamp 128 0x80000000#32 = 0x80000000#32 ∧ dclamp 128 0x7F800000#32 = 0x42FE0000#32 := by decide

/-- V-MIX-10, V-MIX-12, V-MIX-13, V-MIX-14. -/
theorem test_mixOut :
    mixOut (fun _ => 0#32) 0x3E800000#32 0x3F800000#32 0x40000000#32 = 0x3FA00000#32 ∧
    mixOut (fun _ => 0#32) 0x3F000000#32 0xBF800000#32 0x3F800000#32 = 0x00000000#32 ∧
    mixOut (fun _ => 7#32) 0x3F800000#32 0x7F800000#32 0x00000000#32 = 7#32 ∧
    mixOut (fun _ => 0#32) 0x80000000#32 0x7FC00001#32 0x3F800000#32 = 0x7FC00001#32 := by decide

/-- Program P3, tick 7: phase 0.75, delay 3.5, taps 5 and 4, output 4.5. -/
theorem test_tick :
    (tickChannel lfoWave 0x00000000#32 (fun _ => 0#32)
      ⟨0x42C80000#32, 0x3E000000#32, 0x41200000#32, 0x00000000#32, 0x3F800000#32⟩ 0x3E800000#32 0x43C80000#32 128
      { phase := 0x3F400000#32, cursor := 7, dl := [(3, 0x40800000#32), (4, 0x40A00000#32)] } 0x41000000#32) =
    some ({ phase := 0x00000000#32, cursor := 8,
            dl := [(3, 0x40800000#32), (4, 0x40A00000#32), (7, 0x41000000#32)] }, 0x40900000#32) := by decide

/-! ## One step of each command -/

/-- V-LIFE-26. -/
theorem test_prepare :
    after (fresh .audio [0x01000000#32, 0x40E77000#32, 0x00000000#32, 0x00000200#32, 0x00000002#32])
      (fun t => (t.sr, t.maxBlk, t.nch, t.cap, t.audioOut)) =
    some (0x473B8000#32, 512#32, 2, 16384, [0x00000000#32]) := by decide +kernel

/-- V-LIFE-14, 19, 21, 23, 24, 25 and 13: the status of a refused PREPARE. -/
theorem test_checkCfg :
    checkCfg defaultHardware (valOfF64 0#32 0#64) 512 1 = 0x00000011#32 ∧ checkCfg defaultHardware 0x473B8000#32 512 0 = 0x00000012#32 ∧
    checkCfg defaultHardware 0x473B8000#32 512 (-1) = 0x00000012#32 ∧ checkCfg defaultHardware 0x473B8000#32 (-5) 1 = 0x00000013#32 ∧
    checkCfg defaultHardware 0x00000000#32 0 0 = 0x00000011#32 ∧ checkCfg defaultHardware 0x473B8000#32 0 0 = 0x00000012#32 ∧
    checkCfg defaultHardware (lit false 327675 1) 512 1 = 0x00000014#32 := by decide

/-- R8, V-LIFE-13, V-LIFE-20: wider hardware accepts what the default refuses. -/
theorem test_prepare_wide :
    (nextOf (stepOn wideHardware (fresh .audio [0x01000000#32, 0x4113FFEC#32, 0#32, 512#32, 3#32]))).map
      (fun t => (t.nch, t.cap, t.audioOut)) = some (3, 131072, [0x00000000#32]) := by decide +kernel

/-- R177: RESET in state Prepared clears; V-EXC-2: before PREPARE it faults. -/
theorem test_reset :
    after { midBlock .audio [0x02000000#32] with blockRunning := false }
      (fun t => (t.chans, t.params, t.audioOut)) =
    some ([Channel.blank, Channel.blank], Params.default, [0x00000000#32]) := by decide
theorem test_reset_before_prepare :
    after (fresh .audio [0x02000000#32]) (fun t => (t.fault, t.faultCode, t.audioOut)) =
    some (true, 0x80000001#32, [0x80000001#32]) := by decide

/-- R160, R125: PROCESS latches and computes the increment (INC of program P2); V-EXC-1: the order of the checks. -/
theorem test_process :
    after (ready .audio [0x03000008#32]) (fun t => (t.snapshot, t.inc, t.blkN, t.blockRunning, t.audioOut)) =
    some (Params.default, 0x3A83126F#32, 8, true, [0x00000000#32]) := by decide
theorem test_process_before_prepare :
    after (fresh .audio [0x03FFFFFF#32]) (fun t => (t.faultCode, t.audioOut)) =
    some (0x80000001#32, [0x80000001#32]) := by decide

/-- V-DL-12: with the defaults the impulse comes back one tick later at half weight. -/
theorem test_sample :
    after (midBlock .audio [0x00000000#32]) (fun t => (t.audioOut, t.slot 0 1, t.cursor 0, t.chIdx, t.blockRunning)) =
    some ([0x3F000000#32], 0x3F800000#32, 2, 1, true) := by decide

/-- V-PAR-1, V-PAR-5. -/
theorem test_setRate :
    after (fresh .control [0x10000000#32, 0x437A0000#32]) (fun t => (t.params.rate, t.controlOut)) =
    some (0x42C80000#32, [0x00000000#32]) := by decide
theorem test_setRate_nan :
    after (fresh .control [0x10000000#32, 0x7FC00000#32]) (fun t => (t.params.rate, t.controlOut)) =
    some (0x3F800000#32, [0x00000021#32]) := by decide
/-- V-PAR-6, V-PAR-7. -/
theorem test_setDepth :
    after (fresh .control [0x11000000#32, 0xC0400000#32]) (fun t => t.params.depth) = some 0x00000000#32 := by
  decide
theorem test_setDepth_negZero :
    after (fresh .control [0x11000000#32, 0x80000000#32]) (fun t => t.params.depth) = some 0x80000000#32 := by
  decide
/-- V-PAR-8. -/
theorem test_setCentreDelay :
    after (fresh .control [0x12000000#32, 0x3F000000#32]) (fun t => t.params.centreDelay) = some 0x3F800000#32 := by
  decide
/-- V-PAR-10. -/
theorem test_setFeedback :
    after (fresh .control [0x13000000#32, 0xC0400000#32]) (fun t => t.params.feedback) = some 0xBF800000#32 := by
  decide
/-- V-PAR-11. -/
theorem test_setMix :
    after (fresh .control [0x14000000#32, 0x40000000#32]) (fun t => t.params.mix) = some 0x3F800000#32 := by
  decide
/-- V-PAR-13. -/
theorem test_getRate :
    after (fresh .control [0x18000000#32]) State.controlOut = some [0x00000000#32, 0x3F800000#32] := by decide
theorem test_getDepth :
    after (fresh .control [0x19000000#32]) State.controlOut = some [0x00000000#32, 0x00000000#32] := by decide
theorem test_getCentreDelay :
    after (fresh .control [0x1A000000#32]) State.controlOut = some [0x00000000#32, 0x3F800000#32] := by decide
theorem test_getFeedback :
    after (fresh .control [0x1B000000#32]) State.controlOut = some [0x00000000#32, 0x3F800000#32] := by decide
theorem test_getMix :
    after (fresh .control [0x1C000000#32]) State.controlOut = some [0x00000000#32, 0x3F000000#32] := by decide

/-- V-EXC-8: the payload of a SET cut off by a fault. -/
theorem test_cut_command :
    after { faulted .control [0x3F800000#32] with controlTaken := [0x14000000#32] }
      (fun t => (t.params.mix, t.controlOut)) = some (0x3F000000#32, [0x800000FF#32]) := by decide

/-- V-EXC-7: an illegal CONTROL header between two samples. -/
theorem test_fault_inside_block :
    after (midBlock .control [0x15000000#32]) (fun t => (t.fault, t.faultCode, t.controlOut, t.audioOut)) =
    some (true, 0x80000003#32, [0x80000003#32], []) := by decide

/-! ## Witnesses: the hypotheses of the statements can be met -/

theorem witness_DecodeOfEncodeIsTheCommand :
    (Instr.prepare 0x40E7700000000000#64 (-2147483648) 2147483647).WellFormed ∧ (Instr.process 0).WellFormed ∧
    Instr.getMix.WellFormed := by decide

theorem witness_DecodedWordsAreTheEncoding :
    decode .audio [0x03000002#32, 0x3F800000#32] = .command (.process 2) [0x3F800000#32] := by decide

/-- Each case of the rule, alone. -/
theorem witness_HeaderIllegalExactlyInThreeCases :
    IllegalHeader .control 0x15000000#32 ∧ IllegalHeader .audio 0x01000001#32 ∧ IllegalHeader .control 0x03FFFFFF#32 ∧
    IllegalHeader .audio 0x1C000000#32 ∧ ¬ IllegalHeader .audio 0x03FFFFFF#32 ∧ ¬ IllegalHeader .control 0x1C000000#32 :=
  ⟨by decide, by decide, by decide, by decide, by decide, by decide⟩

theorem witness_StepRunsTheDecodedCommand :
    AwaitsHeader .control (fresh .control [0x14000000#32, 0x3E800000#32, 0x1C000000#32]) ∧
    (Instr.setMix 0x3E800000#32).WellFormed ∧
    (fresh .control [0x14000000#32, 0x3E800000#32, 0x1C000000#32]).inputs =
      (encode (.setMix 0x3E800000#32)).map (.word .control) ++ [.word .control 0x1C000000#32] := by decide

/-- From its header on, with nothing more to come; and resumed, with a word of the other port, or power-on, next. -/
theorem witness_CommandShortOfWordsOnlyWaits :
    (let s := ready .audio [0x01000000#32, 0#32, 0#32, 512#32]
     let i := Instr.prepare 0#64 512 1
     s.fault = false ∧ i.WellFormed ∧ s.blockRunning = false ∧ 4 < (encode i).length ∧
     s.taken .audio = (encode i).take 0 ∧ s.inputs = (((encode i).take 4).drop 0).map (.word .audio) ++ []) ∧
    (let s := { ready .audio [] with
       audioTaken := [0x01000000#32], inputs := [.word .audio 0#32, .word .control 0x1C000000#32] }
     let i := Instr.prepare 0#64 512 1
     s.taken .audio = (encode i).take 1 ∧
     s.inputs = (((encode i).take 2).drop 1).map (.word .audio) ++ [.word .control 0x1C000000#32]) ∧
    (let s := { midBlock .audio [] with inputs := [.word .control 0x14000000#32, .powerOn] }
     let i := Instr.setMix 0#32
     s.fault = false ∧ s.taken .control = (encode i).take 0 ∧ 1 < (encode i).length ∧
     s.inputs = (((encode i).take 1).drop 0).map (.word .control) ++ [.powerOn]) ∧
    (∀ w r, [Input.word .control 0x1C000000#32] ≠ .word .audio w :: r) ∧
    (∀ w r, [Input.powerOn] ≠ .word .control w :: r) :=
  ⟨by decide, by decide, by decide, by simp, by simp⟩

theorem witness_CommandResumesWhenItsWordsArrive :
    let s := { ready .control [0x3F800000#32] with controlTaken := [0x14000000#32] }
    s.fault = false ∧ (Instr.setMix 0x3F800000#32).WellFormed ∧ 1 < (encode (.setMix 0x3F800000#32)).length ∧
    s.taken .control = (encode (.setMix 0x3F800000#32)).take 1 ∧
    s.inputs = ((encode (.setMix 0x3F800000#32)).drop 1).map (.word .control) ++ [] := by decide

/-- A value below, in and above each kind of range, and the infinities. -/
theorem witness_SetStoresTheClampedValue :
    State.reset.fault = false ∧ isNan 0x00000000#32 = false ∧ isNan 0x7F800000#32 = false ∧ isNan 0xFF800000#32 = false := by
  decide

theorem witness_SetFollowsTheCommonSemantics :
    (faulted .audio []).fault = true ∧ (ready .audio []).fault = false ∧ isNan 0x7F800001#32 = true ∧
    isNan 0xFFFFFFFF#32 = true ∧ isNan 0x7F800000#32 = false := by decide

theorem witness_GetAnswersTheLiveRegister :
    (faulted .audio []).fault = true ∧ (midBlock .audio []).fault = false := by decide

theorem witness_GetReturnsWhatSetStored :
    let u := { State.reset with
      params := { Params.default with mix := 0x3F800000#32 }, controlOut := [0x00000000#32] }
    State.reset.fault = false ∧ exec (ParamReg.mix.setCommand 0x40000000#32) State.reset = .next u ∧
    u.fault = false ∧ u.params.get .mix = u.params.get .mix := ⟨rfl, by
      have h : setParam .mix 0x40000000#32 State.reset = { State.reset with
        params := { Params.default with mix := 0x3F800000#32 }, controlOut := [0x00000000#32] } := by decide
      exact congrArg _ h, rfl, rfl⟩

/-- In the range, at both bounds, below and above. -/
theorem witness_ClampGivesTheNearestValueOfTheRange :
    fle 0x3F800000#32 0x42C80000#32 = true ∧ isNan 0x3F800000#32 = false ∧ isNan 0x42C80000#32 = false ∧
    fle 0x3F800000#32 0x40000000#32 = true ∧ fle 0x40000000#32 0x42C80000#32 = true ∧
    flt 0x3F000000#32 0x3F800000#32 = true ∧ flt 0x42C80000#32 0x7F800000#32 = true := by decide

theorem witness_NegativeZeroIsStoredAsIs : State.reset.fault = false ∧ flt 0xC0400000#32 0x00000000#32 = true := by
  decide

/-- The lowest and the highest accepted operands of the default configuration. -/
theorem witness_PrepareConfiguresAndClears :
    State.reset.fault = false ∧
    (valOfF64 (State.reset.nan .sampleRate) 0x3FF0000000000000#64 = 0x3F800000#32 ∧ isFinite 0x3F800000#32 = true ∧
      fle 0x3F800000#32 0x3F800000#32 = true ∧ capacity 0x3F800000#32 ≤ Config.capMax) ∧
    (valOfF64 (State.reset.nan .sampleRate) 0x4113FFD800000000#64 = 0x489FFEC0#32 ∧ isFinite 0x489FFEC0#32 = true ∧
      fle 0x3F800000#32 0x489FFEC0#32 = true ∧ capacity 0x489FFEC0#32 ≤ Config.capMax) ∧
    (1 : Int) ≤ 2 ∧ (2 : Int) ≤ (Config.nchMax : Int) := by decide +kernel

/-- Each of the checks fails alone. -/
theorem witness_RefusedPrepareLeavesUnprepared :
    (ready .audio []).fault = false ∧ isNan (valOfF64 0x7FC00000#32 0x7FF8000000000000#64) = true ∧
    fle 0x3F800000#32 (valOfF64 0#32 0x3FE0000000000000#64) = false ∧
    valOfF64 0#32 0x7FF0000000000000#64 = 0x7F800000#32 ∧ (0 : Int) < 1 ∧ (Config.nchMax : Int) < 3 ∧
    Config.capMax < capacity (valOfF64 0#32 0x4113FFEC00000000#64) := by decide +kernel

/-- Three channels, which the default hardware refuses and the wide one accepts; four, which both refuse. -/
theorem witness_PrepareOnAnyHardware :
    State.reset.fault = false ∧ valOfF64 (State.reset.nan .sampleRate) 0x4113FFEC00000000#64 = 0x489FFF60#32 ∧
    isFinite 0x489FFF60#32 = true ∧ fle 0x3F800000#32 0x489FFF60#32 = true ∧ (3 : Int) ≤ (wideHardware.nchMax : Int) ∧
    capacity 0x489FFF60#32 ≤ wideHardware.capMax ∧ (defaultHardware.nchMax : Int) < 3 ∧
    defaultHardware.capMax < capacity 0x489FFF60#32 ∧ (wideHardware.nchMax : Int) < 4 := by decide +kernel

theorem witness_CapacityIsTheNextPowerOfTwo :
    isFinite 0x00000000#32 = true ∧ fle 0x00000000#32 0x00000000#32 = true ∧ isFinite 0x7F7FFFFF#32 = true ∧
    fle Config.srMin 0x7F7FFFFF#32 = true := by decide

theorem witness_ResetClearsWhenPrepared :
    (ready .audio []).fault = false ∧ (ready .audio []).engineState = .prepared ∧ State.reset.fault = false ∧
    State.reset.engineState = .unprepared ∧ (faulted .audio []).fault = true := by decide

/-- With one channel configured and the other not, by RESET and by PREPARE. -/
theorem witness_ClearingZerosExactlyTheConfiguredChannels :
    (∃ t, exec .reset { midBlock .audio [] with nch := 1 } = .next t ∧ t.engineState = .prepared ∧ t.nch = 1 ∧
      t.chans.length = 2 ∧ 0 < t.cap) ∧
    (∃ t, exec (.prepare 0x408F400000000000#64 8 1) (midBlock .audio []) = .next t ∧ t.engineState = .prepared ∧
      t.nch = 1 ∧ t.chans.length = 2 ∧ t.cap = 256) := by
  refine ⟨⟨_, rfl, rfl, rfl, rfl, by decide⟩, ?_⟩
  have h : (nextOf (exec (.prepare 0x408F400000000000#64 8 1) (midBlock .audio []))).map
      (fun t => decide (t.engineState = .prepared ∧ t.nch = 1 ∧ t.chans.length = 2 ∧ t.cap = 256)) = some true := by
    decide +kernel
  cases he : exec (.prepare 0x408F400000000000#64 8 1) (midBlock .audio []) with
  | next t => rw [he] at h; exact ⟨t, rfl, by simpa [nextOf] using h⟩
  | fault r => rw [he] at h; cases h
  | refused r => rw [he] at h; cases h

theorem witness_ResetForgetsWhatWasProcessed :
    (ready .audio []).chans ≠ (midBlock .audio []).chans ∧ (ready .audio []).nch = (midBlock .audio []).nch ∧
    (ready .audio []).cap = (midBlock .audio []).cap ∧
    (ready .audio []).chans.length = (midBlock .audio []).chans.length ∧
    (∀ c ∈ (ready .audio []).chans, Memory.wf c.dl) ∧ (∀ c ∈ (midBlock .audio []).chans, Memory.wf c.dl) ∧
    (∀ ch k, (ready .audio []).nch ≤ ch ∨ (ready .audio []).cap ≤ k →
      (ready .audio []).slot ch k = (midBlock .audio []).slot ch k) ∧
    (∀ ch, (ready .audio []).nch ≤ ch →
      (ready .audio []).phase ch = (midBlock .audio []).phase ch ∧
      (ready .audio []).cursor ch = (midBlock .audio []).cursor ch) := by
  refine ⟨by decide, rfl, rfl, rfl, by decide, by decide, ?_, ?_⟩
  · intro ch k h
    match ch, h with
    | 0, h =>
      have hk : (0 : Nat) ≠ k := by
        rcases h with h | h
        · exact absurd h (by decide)
        · intro e; subst e; exact absurd h (by decide)
      show blankWord = if 0 = k then 0x3F800000#32 else blankWord
      rw [if_neg hk]
    | 1, _ => rfl
    | _ + 2, _ => rfl
  · intro ch h
    match ch, h with
    | 0, h => exact absurd h (by decide)
    | 1, h => exact absurd h (by decide)
    | _ + 2, _ => exact ⟨rfl, rfl⟩

theorem witness_FaultEntryChangesNothingElse :
    State.reset.fault = false ∧ State.reset.engineState = .unprepared ∧ (ready .audio []).fault = false ∧
    (ready .audio []).engineState = .prepared ∧ (ready .audio []).maxBlk.toNat < 9 := by decide

theorem witness_IllegalHeaderRaisesItsFault :
    (AwaitsHeader .audio (ready .audio [0x10000000#32]) ∧ IllegalHeader .audio 0x10000000#32 ∧
      (ready .audio [0x10000000#32]).inputs = .word .audio 0x10000000#32 :: []) ∧
    (AwaitsHeader .control (midBlock .control [0x15000000#32]) ∧ IllegalHeader .control 0x15000000#32 ∧
      (midBlock .control [0x15000000#32]).inputs = .word .control 0x15000000#32 :: []) := by decide

/-- Each of the listed causes sets the latch. -/
theorem witness_OnlyTheListedCausesFault :
    after (fresh .control [0x15000000#32]) State.fault = some true ∧ after (fresh .audio [0x02000000#32]) State.fault = some true ∧
    after (fresh .audio [0x03000000#32]) State.fault = some true ∧
    after (ready .audio [0x03000009#32]) State.fault = some true ∧ State.reset.fault = false := by decide

theorem witness_FaultedWordIsDiscarded :
    (faulted .audio [0x01000000#32]).fault = true ∧
    (faulted .audio [0x01000000#32]).inputs = .word .audio 0x01000000#32 :: [] ∧
    (faulted .control [0x1C000000#32]).inputs = .word .control 0x1C000000#32 :: [] := by decide

theorem witness_FaultIsForGood :
    (faulted .audio [1#32, 2#32]).fault = true ∧ Input.powerOn ∉ (faulted .audio [1#32, 2#32]).inputs := by decide

theorem witness_FaultedCommandIsAnsweredWordByWord :
    (faulted .audio []).fault = true ∧ Instr.port .reset = .audio ∧ Instr.port .getMix = .control := by decide

theorem witness_ProcessLatchesAndStartsTheBlock :
    (ready .audio []).fault = false ∧ (ready .audio []).engineState = .prepared ∧ 0 ≤ (ready .audio []).maxBlk.toNat ∧
    8 ≤ (ready .audio []).maxBlk.toNat := by decide

/-- The tick of `test_sample`: delay 1.0, taps 1.0 and +0. -/
theorem witness_SampleTickFollowsThePipeline :
    let s := midBlock .audio [0x00000000#32]
    let c : Channel := { phase := 0x00000000#32, cursor := 1, dl := [(0, 0x3F800000#32)] }
    let osc := wideHardware.wave
      (wrap1 (s.nan .oscWrap) (fadd (s.nan .oscSum) c.phase (wideHardware.phaseOffset s.chIdx)))
    let d := dclamp s.cap (fdiv (s.nan .delayD0) (fmul (s.nan .delayT4) (fadd (s.nan .delayT3) s.snapshot.centreDelay
      (fmul (s.nan .delayT2) (fmul (s.nan .delayT1) s.snapshot.depth s.snapshot.centreDelay) osc)) s.sr) 0x447A0000#32)
    s.fault = false ∧ s.blockRunning = true ∧ s.inputs = .word .audio 0x00000000#32 :: [] ∧
    s.chans[s.chIdx]? = some c ∧ s.chIdx < s.nch ∧ c.cursor < s.cap ∧ isFinite d = true ∧
    flt d 0x00000000#32 = false ∧ natOf (ffloor d) < s.cap ∧ d = 0x3F800000#32 := by decide

/-- The same tick, for the statements about any tick that gives a next state. -/
theorem witness_tick :
    (midBlock .audio [0x00000000#32]).fault = false ∧ (midBlock .audio [0x00000000#32]).blockRunning = true ∧
    (midBlock .audio [0x00000000#32]).inputs = .word .audio 0x00000000#32 :: [] ∧
    (nextOf (step (midBlock .audio [0x00000000#32]))).isSome = true ∧ 1 ≠ (midBlock .audio [0x00000000#32]).chIdx := by
  decide

theorem witness_TickWritesOneSlotOfItsChannel :
    ∃ t, stepOn defaultHardware (midBlock .audio [0x00000000#32]) = .next t := by
  have h := witness_tick.2.2.2.1
  revert h
  show (nextOf (stepOn defaultHardware (midBlock .audio [0x00000000#32]))).isSome = true → _
  cases stepOn defaultHardware (midBlock .audio [0x00000000#32]) <;> simp [nextOf]

/-- The distances at both ends of the clause. -/
theorem witness_EachTickMovesTheHistoryOneBack :
    1 < (midBlock .audio [0x00000000#32]).cap ∧ 255 < (midBlock .audio [0x00000000#32]).cap ∧
    ∃ t, stepOn defaultHardware (midBlock .audio [0x00000000#32]) = .next t :=
  ⟨by decide, by decide, witness_TickWritesOneSlotOfItsChannel⟩

theorem witness_TickIgnoresTheLiveParameters :
    Params.default ≠ ⟨0x42C80000#32, 0#32, 0x42C80000#32, 0#32, 0#32⟩ ∧
    ∃ t, stepOn defaultHardware (midBlock .audio [0x00000000#32]) = .next t := ⟨by decide, witness_TickWritesOneSlotOfItsChannel⟩

theorem witness_TicksOfOneChannelIgnoreTheOthers :
    1 ≠ (midBlock .audio [0x00000000#32]).chIdx ∧ ∃ t, stepOn defaultHardware (midBlock .audio [0x00000000#32]) = .next t :=
  ⟨by decide, witness_TickWritesOneSlotOfItsChannel⟩

theorem witness_DepthZeroRemovesTheModulation :
    isZero 0x80000000#32 = true ∧ isFinite 0x41200000#32 = true ∧ isZero 0x41200000#32 = false ∧
    isFinite 0xBF800000#32 = true := by decide

/-- At the largest delay and the largest rate the default configuration accepts (V-DL-13). -/
theorem witness_DelayStaysInsideTheBuffer :
    capacity 0x489FFEC0#32 ≤ 2 ^ 16 ∧ capacity 0x4B9FFFFB#32 = 2 ^ 22 ∧ fle Config.srMin 0x4B9FFFFB#32 = true ∧
    (⟨0x42C80000#32, 0x3F800000#32, 0x42C80000#32, 0x3F800000#32, 0x3F800000#32⟩ : Params).inRange ∧
    isFinite 0x489FFEC0#32 = true ∧ fle Config.srMin 0x489FFEC0#32 = true ∧
    fle 0xBF800000#32 0x3F800000#32 = true ∧ fle 0x3F800000#32 0x3F800000#32 = true :=
  ⟨by decide, by decide, by decide, by decide, by decide, by decide,
    by decide, by decide⟩

/-- The shortest and the longest distance in a buffer of 128 slots with one sample in it. -/
theorem witness_IntegerDelayReadsThatSample :
    (0 < 128 ∧ 127 < 128 ∧ 128 ≤ 2 ^ 24 ∧ 2 ^ 24 - 1 < 2 ^ 24) ∧
    (let m : Memory := [(4, 0x40A00000#32)]
     isFinite (Memory.read m (slotBehind 128 4 0)) = true ∧ isFinite (Memory.read m (slotBehind 128 4 1)) = true ∧
     isFinite (fsub 0x7FC00000#32 (Memory.read m (slotBehind 128 4 1)) (Memory.read m (slotBehind 128 4 0))) = true ∧
     isFinite (fsub 0x7FC00000#32 (Memory.read m (slotBehind 128 4 128)) (Memory.read m (slotBehind 128 4 127))) =
       true) := by decide

theorem witness_CircularIndexStaysInTheBuffer : 0 < 128 ∧ 127 < 128 ∧ 128 = 2 ^ 7 := by decide

theorem witness_WrapIsTheExactFractionalPart :
    isFinite 0x7F7FFFFF#32 = true ∧ fle 0x00000000#32 0x7F7FFFFF#32 = true ∧ isFinite 0x3F7FFFFF#32 = true ∧
    fle 0x00000000#32 0x80000000#32 = true := by decide

/-- A result that is a value, and one that is zero. -/
theorem witness_ExactResultsAreReturned :
    (ArithOp.admits .add 0x3F800000#32 0x3F000000#32 ∧ isFinite 0x3FC00000#32 = true ∧
      toUnits 0x3F800000#32 + toUnits 0x3F000000#32 = toUnits 0x3FC00000#32) ∧
    (ArithOp.admits .div 0x00000000#32 0x3F000000#32 ∧ isFinite 0x80000000#32 = true ∧ isZero 0x80000000#32 = true ∧
      toUnits 0x80000000#32 = 0) := by decide

theorem witness_ExactResultsAreReturned_exact :
    ArithOp.exact .add (ratOf 0x3F800000#32) (ratOf 0x3F000000#32) = ratOf 0x3FC00000#32 := by
  have h : toUnits 0x3F800000#32 + toUnits 0x3F000000#32 = toUnits 0x3FC00000#32 := by decide
  simp only [ArithOp.exact, ratOf, ← h]
  push_cast
  ring

theorem witness_ZeroOperandsActAsZeros :
    isZero 0x80000000#32 = true ∧ isZero 0x00000000#32 = true ∧ isFinite 0xBF800000#32 = true ∧
    isNan 0x7F800000#32 = false ∧ isZero 0x7F800000#32 = false := by decide

theorem witness_RoundingIsMonotone :
    ArithOp.admits .mul 0x3DCCCCCD#32 0x00000000#32 ∧ ArithOp.admits .sub 0x3F800000#32 0x3F800000#32 ∧
    ArithOp.exact .mul (ratOf 0x3DCCCCCD#32) (ratOf 0x00000000#32) ≤
      ArithOp.exact .sub (ratOf 0x3F800000#32) (ratOf 0x3F800000#32) := by
  have h : toUnits 0x00000000#32 = 0 := by decide
  refine ⟨by decide, by decide, ?_⟩
  simp [ArithOp.exact, ratOf, h]

theorem witness_UnitFactorDoesNotEnlarge :
    fle 0xBF800000#32 0xBF800000#32 = true ∧ fle 0xBF800000#32 0x3F800000#32 = true ∧
    fle 0x3F800000#32 0x3F800000#32 = true ∧ isFinite 0x7F7FFFFF#32 = true := by decide

theorem witness_ControlPortCannotReachTheAudioSide :
    (midBlock .control [0x15000000#32]).inputs = .word .control 0x15000000#32 :: [] ∧
    ∃ t, step (midBlock .control [0x15000000#32]) = .next t := ⟨rfl, _, rfl⟩

theorem witness_AudioPortCannotWriteTheParameters :
    (ready .audio [0x02000000#32]).inputs = .word .audio 0x02000000#32 :: [] ∧
    ∃ t, step (ready .audio [0x02000000#32]) = .next t := ⟨rfl, _, rfl⟩

/-- A SET, and power-on, change a parameter. -/
theorem witness_ParametersChangeOnlyByTheirSet :
    after (fresh .control [0x14000000#32, 0x40000000#32]) (fun t => t.params.get .mix ≠ State.reset.params.get .mix) =
      some True ∧
    after { State.reset with inputs := [.powerOn], params := { Params.default with mix := 0x3F800000#32 } }
      (fun t => t.params.get .mix) = some 0x3F000000#32 := by
  refine ⟨?_, by decide⟩
  have h : after (fresh .control [0x14000000#32, 0x40000000#32])
      (fun t => decide (t.params.get .mix ≠ State.reset.params.get .mix)) = some true := by decide
  revert h
  unfold after
  cases nextOf (step (fresh .control [0x14000000#32, 0x40000000#32])) <;> simp

/-- A PREPARE, and power-on, change the engine state. -/
theorem witness_EngineStateChangesOnlyByPrepare :
    after (fresh .audio [0x01000000#32, 0x408F4000#32, 0#32, 8#32, 1#32]) State.engineState = some .prepared ∧
    State.reset.engineState = .unprepared ∧
    after { ready .audio [] with inputs := [.powerOn] } State.engineState = some .unprepared := by decide +kernel

theorem witness_PowerOnGivesTheSpecifiedValues :
    { faulted .audio [] with inputs := [.powerOn, .word .control 0x1C000000#32] }.inputs =
      .powerOn :: [.word .control 0x1C000000#32] := rfl

/-- A GET in the middle of a block, on hardware that is not the default. -/
theorem witness_OnlyThreeThingsReadTheOpenParameters :
    (∀ rest, (midBlock .control [0x1C000000#32]).inputs ≠ .powerOn :: rest) ∧
    (∀ w rest, (midBlock .control [0x1C000000#32]).inputs ≠ .word .audio w :: rest) ∧
    (∀ r m n rest, fetch .audio (midBlock .control [0x1C000000#32]).audioTaken (midBlock .control [0x1C000000#32]).inputs ≠
      .command (.prepare r m n) rest) ∧
    wideHardware.nchMax ≠ defaultHardware.nchMax := by
  refine ⟨fun rest => by simp [midBlock, ready, words], fun w rest => by simp [midBlock, ready, words], fun r m n rest => ?_,
    by decide⟩
  intro h
  cases h

/-- The invariants do not speak of what is still to arrive. -/
theorem inv_with_inputs {hw : Hardware} {s : State} (h : InvOn hw s) (ins : List Input) :
    InvOn hw { s with inputs := ins } :=
  ⟨⟨h.struct.rate, h.struct.sizes, h.struct.cap, h.struct.cursors, h.struct.banks, h.struct.canonical, h.struct.block,
    h.struct.audioFraming, h.struct.controlFraming⟩, h.params, h.snapshot, h.inc, h.phases⟩

theorem inv_ready : Inv (ready .audio []) where
  struct :=
    { rate := by decide
      sizes := by decide
      cap := by decide
      cursors := by decide
      banks := by decide
      canonical := by decide
      block := by decide
      audioFraming := by decide
      controlFraming := by decide }
  params := by decide
  snapshot := by decide
  inc := by decide
  phases := by decide

theorem inv_midBlock : Inv (midBlock .audio []) where
  struct :=
    { rate := by decide
      sizes := by decide
      cap := by decide
      cursors := by decide
      banks := by decide
      canonical := by decide
      block := by decide
      audioFraming := by decide
      controlFraming := by decide }
  params := by decide
  snapshot := by decide
  inc := by decide
  phases := by decide

theorem step_midBlock : ∃ t, step (midBlock .audio [0x00000000#32]) = .next t := witness_TickWritesOneSlotOfItsChannel

/-- A state in mid-block meets the invariants and has a next state. -/
theorem witness_StepKeepsTheInvariants :
    Inv (midBlock .audio [0x00000000#32]) ∧ ∃ t, step (midBlock .audio [0x00000000#32]) = .next t :=
  ⟨inv_with_inputs inv_midBlock (words .audio [0x00000000#32]), step_midBlock⟩

theorem witness_StepKeepsTheStructure :
    StructInv (midBlock .audio [0x00000000#32]) ∧ ∃ t, step (midBlock .audio [0x00000000#32]) = .next t :=
  ⟨witness_StepKeepsTheInvariants.1.struct, step_midBlock⟩

theorem witness_StepKeepsTheParameterRanges :
    (midBlock .audio [0x00000000#32]).params.inRange ∧ (midBlock .audio [0x00000000#32]).snapshot.inRange ∧
    ∃ t, step (midBlock .audio [0x00000000#32]) = .next t :=
  ⟨inv_midBlock.params, inv_midBlock.snapshot, step_midBlock⟩

theorem squareWave_ok : WaveOk squareWave := by
  refine ⟨fun p _ _ _ => ?_, by decide, by decide, by decide, by decide⟩
  unfold squareWave
  split
  · decide
  · split <;> decide

theorem wideHardware_ok : HardwareOk wideHardware where
  powerOfTwo := ⟨17, rfl⟩
  addressable := by decide
  offsets ch _ := by
    show phaseInUnit (if ch = 1 then 0x3E800000#32 else 0x00000000#32)
    split <;> decide
  wave := squareWave_ok

/-- A block of one sample on each of two channels; a SET is cut in two by the first sample and a GET follows. -/
def block : Interleaved :=
  [([0x14000000#32], 0x7FC00001#32), ([0x3F800000#32, 0x1C000000#32, 0x10000000#32], 0x80000000#32)]

theorem block_legal : LegalControl ([] ++ block.control) :=
  ⟨[.setMix 0x3F800000#32, .getMix, .setRate 0#32], by decide, [0#32], by decide⟩

/-- That block on its way to the wide hardware, two of its three channels configured, the mix at -0. -/
def blockState : State :=
  { ready .audio [] with
    params := { Params.default with mix := 0x80000000#32 }
    chans := List.replicate 3 Channel.blank
    inputs := (encode (.process 1)).map (.word .audio) ++ block.inputs ++ [.powerOn] }

theorem inv_blockState : InvOn wideHardware blockState where
  struct :=
    { rate := inv_ready.struct.rate
      sizes := by decide
      cap := by decide
      cursors := by decide
      banks := by decide
      canonical := by decide
      block := by decide
      audioFraming := by decide
      controlFraming := by decide }
  params := by decide
  snapshot := inv_ready.snapshot
  inc := inv_ready.inc
  phases := by decide

theorem witness_EveryHardwareKeepsTheInvariants :
    HardwareOk wideHardware ∧ InvOn wideHardware blockState ∧ ∃ t, stepOn wideHardware blockState = .next t :=
  ⟨wideHardware_ok, inv_blockState, _, rfl⟩

theorem witness_NoStepStops : HardwareOk wideHardware ∧ InvOn wideHardware blockState := ⟨wideHardware_ok, inv_blockState⟩

theorem witness_BlockAnswersEverySample :
    HardwareOk wideHardware ∧ InvOn wideHardware blockState ∧ AwaitsHeader .audio blockState ∧
    blockState.engineState = .prepared ∧ 1 ≤ blockState.maxBlk.toNat ∧ 1 < 2 ^ 24 ∧ block.length = blockState.nch * 1 ∧
    LegalControl (blockState.controlTaken ++ block.control) ∧
    blockState.inputs = (encode (.process 1)).map (.word .audio) ++ block.inputs ++ [.powerOn] :=
  ⟨wideHardware_ok, inv_blockState, by decide, rfl, by decide, by decide, rfl, block_legal, rfl⟩

theorem witness_BypassReturnsTheBlockUnchanged :
    feq blockState.params.mix 0x00000000#32 = true ∧ block.samples = [0x7FC00001#32, 0x80000000#32] := by decide

end Sys2Proof.Tests
end

section
/-! SUPPORT. The statements about headers and fault entry (spec 30_encoding.md R84, R85, R88; 60_exceptions.md R203, R204). -/

namespace Sys2Proof.Machine

/-! ## The two fields of a header that selects a row -/

/-- `OPC` of a header that selects a row is the row's: every mask covers bits 31:24 (R73, R76). -/
theorem opcField_of_selected {op : Op} {h : Word} (hsel : h &&& op.row.mask = op.row.matchBits) :
    opcField h = opcField op.row.matchBits := by
  have hmask : op.row.mask.extractLsb' 24 8 = BitVec.allOnes 8 := by cases op <;> rfl
  simp only [opcField, ← hsel, BitVec.extractLsb'_and, hmask, BitVec.and_allOnes]

/-- `ARG` of a header that selects a row other than PROCESS is zero: the mask covers all 32 bits (R76, R78). -/
theorem argField_of_selected {op : Op} {h : Word} (hop : op ≠ .process)
    (hsel : h &&& op.row.mask = op.row.matchBits) : argField h = 0 := by
  have hmask : op.row.mask.extractLsb' 0 24 = BitVec.allOnes 24 := by cases op <;> first | rfl | exact absurd rfl hop
  have harg : argField op.row.matchBits = 0 := by cases op <;> rfl
  rw [← harg]
  simp only [argField, ← hsel, BitVec.extractLsb'_and, hmask, BitVec.and_allOnes]

/-! ## Legal and illegal headers -/

/-- The opcode of a command stands in the list of its own port, not in the other's (R76). -/
theorem opcField_row_mem (op : Op) :
    (op.row.port = .audio ∧ opcField op.row.matchBits ∈ audioOpcodes ∧ opcField op.row.matchBits ∉ controlOpcodes) ∨
    (op.row.port = .control ∧ opcField op.row.matchBits ∈ controlOpcodes ∧ opcField op.row.matchBits ∉ audioOpcodes) := by
  cases op <;> decide

/-- A header that selects a row is legal on that row's port (R76, R84). -/
theorem not_illegalHeader_of_selected {op : Op} {h : Word} (hsel : h &&& op.row.mask = op.row.matchBits) :
    ¬ IllegalHeader op.row.port h := by
  have hopc := opcField_of_selected hsel
  have hmem := opcField_row_mem op
  rw [← hopc] at hmem
  rintro (⟨haudio, hcontrol⟩ | ⟨hne, harg⟩ | hother)
  · simp [haudio, hcontrol] at hmem
  · exact harg (argField_of_selected (fun hop => hne (by rw [hopc, hop]; rfl)) hsel)
  · rcases hmem with ⟨hp, -, hout⟩ | ⟨hp, -, hout⟩ <;> simp [hp, hout] at hother

/-- The decoder on a header that selects a row of the port: the command's operands are taken from what follows (R76). -/
theorem decode_of_row {op : Op} {h : Word} (hrow : rowOf h = some op.row) (payload : List Word) :
    decode op.row.port (h :: payload) = assemble op h payload := by
  simp only [decode, hrow, if_true]
  cases op <;> rfl

/-- The decoder rejects an illegal header, whatever follows it (R84). -/
theorem decode_illegal {p : Port} {h : Word} (hill : IllegalHeader p h) (payload : List Word) :
    ∃ why, decode p (h :: payload) = .illegal why := by
  cases hr : rowOf h with
  | none => exact ⟨rejectUnselected h, by simp only [decode, hr]⟩
  | some r =>
    obtain ⟨hrow, hsel⟩ := rowOf_some hr
    have hport : r.port ≠ p := by
      rintro rfl
      rw [hrow] at hill hsel
      exact not_illegalHeader_of_selected hsel hill
    exact ⟨.wrongPort, by simp only [decode, hr, if_neg hport]⟩

/-! ## One step at a word -/

/-- While `FAULT` = 1 a step discards the word that arrives (R85, R204). -/
theorem stepOn_faulted_word (hw : Hardware) {p : Port} {w : Word} {rest : List Input} {s : State} (hf : s.fault = true)
    (hin : s.inputs = .word p w :: rest) : stepOn hw s = .next (discardWord p { s with inputs := rest }) := by
  simp only [stepOn, hin, hf, if_true]

/-- A word that makes the words taken an illegal header ends the fetch: nothing after it is taken (R84). -/
theorem fetch_illegal {p : Port} {taken : List Word} {w : Word} {why : Reject}
    (hd : decode p (taken ++ [w]) = .illegal why) (rest : List Input) :
    fetch p taken (.word p w :: rest) = .illegal rest := by
  simp only [fetch, hd, if_true]

/-- An illegal header at a command boundary: the step takes that one word and enters the fault (R84). -/
theorem stepOn_illegalHeader (hw : Hardware) {p : Port} {h : Word} {rest : List Input} {s : State}
    (hs : AwaitsHeader p s) (hill : IllegalHeader p h) (hin : s.inputs = .word p h :: rest) :
    stepOn hw s = .next (raiseFault p fcIllegalCmd { s with inputs := rest }) := by
  obtain ⟨hfault, htaken, hblock⟩ := hs
  have hsample : ¬ (p = .audio ∧ s.blockRunning = true) := fun ⟨hp, hb⟩ => by simp [hblock hp] at hb
  obtain ⟨why, hd⟩ := decode_illegal hill []
  have hfetch : fetch p (s.taken p) s.inputs = .illegal rest := by
    rw [hin, htaken]; exact fetch_illegal hd rest
  have hkeep : State.setTaken p [] { s with inputs := rest } = { s with inputs := rest } :=
    setTaken_self (by cases p <;> exact htaken)
  have hcommand : commandStep hw p s = .next (raiseFault p fcIllegalCmd { s with inputs := rest }) := by
    simp only [commandStep, hfetch, hkeep]
  rw [← hcommand]
  simp [stepOn, hin, hfault, hsample]

/-- Fault entry from a state without a fault: the cause is recorded, and the port is answered with it (R203). -/
theorem raiseFault_of_not_fault {s : State} (hf : s.fault = false) (p : Port) (code : Word) :
    raiseFault p code s = respond p code { s with fault := true, faultCode := code } := by
  cases p <;> simp [raiseFault, setFaultFlags, respond, hf]

/-- An illegal header at a command boundary, as an equation of states: one answer on its port and the fault recorded
(R84, R203). -/
theorem stepOn_illegalHeader_eq (hw : Hardware) {p : Port} {h : Word} {rest : List Input} {s : State}
    (hs : AwaitsHeader p s) (hill : IllegalHeader p h) (hin : s.inputs = .word p h :: rest) :
    stepOn hw s =
      .next (respond p fcIllegalCmd { s with inputs := rest, fault := true, faultCode := fcIllegalCmd }) := by
  rw [stepOn_illegalHeader hw hs hill hin, raiseFault_of_not_fault (s := { s with inputs := rest }) hs.1]

/-! ## The statements -/

/-- Settles O22: the header is rejected on its own, so the step takes that one word and enters the fault; on each port the
answer is `respond` at that port. -/
theorem illegalHeaderRaisesItsFault : Obligations.IllegalHeaderRaisesItsFault :=
  fun _ _ _ => ⟨stepOn_illegalHeader_eq defaultHardware, stepOn_illegalHeader_eq defaultHardware⟩

/-- Settles O4: each header selects its row, and the row's format takes the operands from the words after it. -/
theorem workedEncodingsDecode : Obligations.WorkedEncodingsDecode :=
  ⟨decode_of_row (op := .prepare) rfl _, decode_of_row (op := .reset) rfl _,
    decode_of_row (op := .setCentreDelay) rfl _, decode_of_row (op := .getMix) rfl _,
    decode_of_row (op := .process) rfl _⟩

/-- Settles O24: a word that arrives in a fault is discarded, which on either port is one answer and nothing else. -/
theorem faultedWordIsDiscarded : Obligations.FaultedWordIsDiscarded :=
  fun _ _ _ hf => ⟨stepOn_faulted_word defaultHardware hf, stepOn_faulted_word defaultHardware hf⟩

end Sys2Proof.Machine
end

section
/-! SUPPORT. The clamp (spec 40_parameters.md R100), and the order of the values it stands on (00_scope.md R12). -/

namespace Sys2Proof.Machine

/-! ## The order of the values -/

/-- The order is reflexive except at a NaN, which compares with nothing (R12). -/
theorem fle_refl {a : Val} (ha : isNan a = false) : fle a a = true :=
  fle_iff.mpr ⟨ha, ha, le_rfl⟩

theorem fle_of_flt {a b : Val} (h : flt a b = true) : fle a b = true := by
  obtain ⟨ha, hb, hab⟩ := flt_iff.mp h
  exact fle_iff.mpr ⟨ha, hb, hab.le⟩

theorem flt_of_fle_of_flt {a b c : Val} (hab : fle a b = true) (hbc : flt b c = true) : flt a c = true := by
  obtain ⟨ha, _, hle⟩ := fle_iff.mp hab
  obtain ⟨_, hc, hlt⟩ := flt_iff.mp hbc
  exact flt_iff.mpr ⟨ha, hc, hle.trans_lt hlt⟩

theorem flt_eq_false_of_fle {a b : Val} (h : fle a b = true) : flt b a = false := by
  obtain ⟨ha, hb, _⟩ := fle_iff.mp h
  simp [flt_eq_not_fle hb ha, h]

theorem fle_of_flt_eq_false {a b : Val} (ha : isNan a = false) (hb : isNan b = false) (h : flt b a = false) :
    fle a b = true := by
  simpa [flt_eq_not_fle hb ha] using h

/-! ## The clamp, branch by branch -/

theorem clamp_of_below {v lo hi : Val} (h : flt v lo = true) : clamp v lo hi = lo := by
  simp [clamp, h]

/-- A value above the range is not below it, so the order of the two comparisons does not matter (R100). -/
theorem clamp_of_above {v lo hi : Val} (hr : fle lo hi = true) (h : flt hi v = true) : clamp v lo hi = hi := by
  have hlo : flt v lo = false := flt_eq_false_of_fle (fle_of_flt (flt_of_fle_of_flt hr h))
  simp [clamp, hlo, h]

theorem clamp_of_inside {v lo hi : Val} (hlo : fle lo v = true) (hhi : fle v hi = true) : clamp v lo hi = v := by
  simp [clamp, flt_eq_false_of_fle hlo, flt_eq_false_of_fle hhi]

/-- The result of the clamp lies in the range: it is a bound, or a value that neither comparison moved (R100). -/
theorem clamp_inside {v lo hi : Val} (hv : isNan v = false) (hr : fle lo hi = true) :
    fle lo (clamp v lo hi) = true ∧ fle (clamp v lo hi) hi = true := by
  obtain ⟨hnlo, hnhi, _⟩ := fle_iff.mp hr
  cases hlo : flt v lo with
  | true => rw [clamp_of_below hlo]; exact ⟨fle_refl hnlo, hr⟩
  | false =>
    cases hhi : flt hi v with
    | true => rw [clamp_of_above hr hhi]; exact ⟨hr, fle_refl hnhi⟩
    | false =>
      have hlov : fle lo v = true := fle_of_flt_eq_false hnlo hv hlo
      have hvhi : fle v hi = true := fle_of_flt_eq_false hv hnhi hhi
      rw [clamp_of_inside hlov hvhi]; exact ⟨hlov, hvhi⟩

/-! ## The statement -/

/-- Settles O12: one lemma for each branch of the clamp; it is idempotent because its result lies in the range, where it is
the identity. -/
theorem clampGivesTheNearestValueOfTheRange : Obligations.ClampGivesTheNearestValueOfTheRange := by
  intro v lo hi hv hr
  obtain ⟨hlo, hhi⟩ := clamp_inside hv hr
  exact ⟨hlo, hhi, clamp_of_inside, clamp_of_below, clamp_of_above hr, clamp_of_inside hlo hhi⟩

end Sys2Proof.Machine
end

section
/-! SUPPORT. The circular index (spec 42_delay_line.md R131): what it is as an integer, and from that where it lies, where it returns to
the cursor, and its bits at a power of two. -/

namespace Sys2Proof.Machine

/-! ## The circular index -/

/-- The index loses nothing in its conversion to a natural number: the remainder by a capacity is never negative (R10). -/
theorem slotBehind_eq_emod {cap : Nat} (hcap : 0 < cap) (cursor k : Nat) :
    (slotBehind cap cursor k : Int) = ((cursor : Int) - k) % cap := by
  have hnonneg : 0 ≤ ((cursor : Int) - k) % cap := Int.emod_nonneg _ (by omega)
  simp [slotBehind, hnonneg]

theorem slotBehind_lt {cap : Nat} (hcap : 0 < cap) (cursor k : Nat) : slotBehind cap cursor k < cap := by
  have hlt : ((cursor : Int) - k) % cap < cap := Int.emod_lt_of_pos _ (by omega)
  have hidx := slotBehind_eq_emod hcap cursor k
  omega

/-- A cursor inside the buffer is its own remainder. -/
theorem slotBehind_zero {cap cursor : Nat} (h : cursor < cap) : slotBehind cap cursor 0 = cursor := by
  have hidx : (slotBehind cap cursor 0 : Int) = (cursor : Int) % cap := by
    simpa using slotBehind_eq_emod (by omega : 0 < cap) cursor 0
  rw [Int.emod_eq_of_lt (by omega) (by omega)] at hidx
  exact_mod_cast hidx

/-- One whole turn of the buffer further back is the same slot. -/
theorem slotBehind_add_cap (cap cursor k : Nat) : slotBehind cap cursor (k + cap) = slotBehind cap cursor k := by
  have hturn : (cursor : Int) - (k + cap : Nat) = cursor - k - cap := by push_cast; ring
  rw [slotBehind, hturn, Int.sub_emod_right, slotBehind]

/-- The low `e` bits of a two's complement number are its remainder by `2 ^ e`. -/
theorem slotBehind_two_pow (e cursor k : Nat) :
    slotBehind (2 ^ e) cursor k = (BitVec.ofInt e ((cursor : Int) - k)).toNat := by
  rw [slotBehind, BitVec.toNat_ofInt]

/-! ## The statement -/

/-- Settles O36: the index is the mathematical remainder; at `k = CAP` it has made one turn from `k = 0`. -/
theorem circularIndexStaysInTheBuffer : Obligations.CircularIndexStaysInTheBuffer := by
  intro cap cursor k hcap hcursor
  have hzero : slotBehind cap cursor 0 = cursor := slotBehind_zero hcursor
  have hcapTurn : slotBehind cap cursor cap = cursor := by
    simpa [hzero] using slotBehind_add_cap cap cursor 0
  refine ⟨slotBehind_lt hcap cursor k, slotBehind_eq_emod hcap cursor k, hzero, hcapTurn, ?_⟩
  rintro e rfl
  exact slotBehind_two_pow e cursor k

end Sys2Proof.Machine
end

section
/-! SUPPORT. A refused PREPARE (spec 44_lifecycle.md R171, R172): the status of the first check that fails, and
what the refusal keeps. -/

namespace Sys2Proof.Machine

/-! ## The checks -/

/-- The operands PREPARE refuses (R171). -/
theorem checkCfg_refused_iff (hw : Hardware) (sr : Val) (m n : Int) :
    checkCfg hw sr m n ≠ stOk ↔
      isNan sr = true ∨ fle Config.srMin sr = false ∨ sr = posInf ∨ n < 1 ∨ (hw.nchMax : Int) < n ∨ m < 1 ∨
      hw.capMax < capacity sr := by
  simp only [ne_eq, checkCfg_ok_iff, not_and_or, not_not, Bool.not_eq_false, Bool.not_eq_true, not_le]

/-- The status of a refusal: the check of the capacity comes last, so it is the one that fails when the others pass (R171). -/
theorem checkCfg_of_refused {hw : Hardware} {sr : Val} {m n : Int} (h : checkCfg hw sr m n ≠ stOk) :
    checkCfg hw sr m n =
      if isNan sr = true ∨ fle Config.srMin sr = false ∨ sr = posInf then stCfgSampleRate
      else if n < 1 ∨ (hw.nchMax : Int) < n then stCfgChannels
      else if m < 1 then stCfgBlockSize
      else stCfgCapacity := by
  simp only [checkCfg, Bool.or_eq_true, Bool.not_eq_true', beq_iff_eq, or_assoc] at h ⊢
  split_ifs at h ⊢ with hrate hchannels hblock hcapacity
  · rfl
  · rfl
  · rfl
  · rfl
  · exact absurd rfl h

/-! ## PREPARE outside a fault -/

theorem execPrepareOn_refused {hw : Hardware} {r : BitVec 64} {m n : Int} {s : State} (hf : s.fault = false)
    (h : checkCfg hw (valOfF64 (s.nan .sampleRate) r) m n ≠ stOk) :
    execPrepareOn hw r m n s =
      .next (respond .audio (checkCfg hw (valOfF64 (s.nan .sampleRate) r) m n) (loseConfig hw s)) := by
  rcases execPrepareOn_cases hw r m n s with ⟨hfault, -⟩ | ⟨-, hok, -⟩ | ⟨-, -, hnext⟩
  · simp [hf] at hfault
  · exact absurd hok h
  · exact hnext

/-- PREPARE answers one status word, and `ST_OK` exactly when it leaves the engine Prepared (R170, R172). -/
theorem execPrepareOn_status {hw : Hardware} {r : BitVec 64} {m n : Int} {s t : State} (hf : s.fault = false)
    (h : execPrepareOn hw r m n s = .next t) :
    ∃ st, t.audioOut = s.audioOut ++ [st] ∧ (st = stOk ↔ t.engineState = .prepared) := by
  rcases execPrepareOn_cases hw r m n s with ⟨hfault, -⟩ | ⟨-, -, hnext⟩ | ⟨-, hbad, hnext⟩
  · simp [hf] at hfault
  · obtain rfl := Host.Outcome.next.inj (hnext.symm.trans h)
    exact ⟨stOk, by simp⟩
  · obtain rfl := Host.Outcome.next.inj (hnext.symm.trans h)
    exact ⟨_, rfl, by simp [hbad]⟩

/-! ## The statement -/

/-- Settles O15: a refusal answers the status of the first failed check and loses the configuration, which touches none of the
kept registers. -/
theorem refusedPrepareLeavesUnprepared : Obligations.RefusedPrepareLeavesUnprepared := by
  constructor
  · rintro r m n s sr rfl hf hbad
    have hrefused := (checkCfg_refused_iff defaultHardware (valOfF64 (s.nan .sampleRate) r) m n).mpr hbad
    have hstatus := congrArg (fun st => s.audioOut ++ [st]) (checkCfg_of_refused hrefused)
    exact ⟨_, execPrepareOn_refused hf hrefused, by simp, hstatus, by simp [hf]⟩
  · intro r m n s t hf hnext
    exact execPrepareOn_status hf hnext

end Sys2Proof.Machine
end

section
/-! SUPPORT. The capacity of a rate (spec 44_lifecycle.md R173): the integer operations of R10 as Mathlib's, and the least
power of two from them. -/

namespace Sys2Proof.Machine

/-! ## The integer operations -/

theorem ceilDiv_eq_natCeil {den : Nat} (hden : 0 < den) (num : Nat) : ceilDiv num den = ⌈(num : Rat) / den⌉₊ := by
  have hden' : (0 : Rat) < den := by exact_mod_cast hden
  refine eq_of_forall_ge_iff fun c => ?_
  calc
    ceilDiv num den ≤ c ↔ num ≤ c * den := by
      rw [ceilDiv, ← Nat.ceilDiv_eq_add_pred_div, ceilDiv_le_iff_le_mul hden, mul_comm]
    _ ↔ (num : Rat) ≤ c * den := by exact_mod_cast Iff.rfl
    _ ↔ ⌈(num : Rat) / den⌉₊ ≤ c := by rw [Nat.ceil_le, div_le_iff₀ hden']

theorem pow2ceil_eq_two_pow_clog (n : Nat) : pow2ceil n = 2 ^ Nat.clog 2 n := by
  unfold pow2ceil
  split
  · next hle => rw [Nat.clog_of_right_le_one hle, pow_zero]
  · next hlt =>
    have hbelow : 2 ^ Nat.log2 (n - 1) ≤ n - 1 := Nat.log2_self_le (by omega)
    have habove : n - 1 < 2 ^ (Nat.log2 (n - 1) + 1) := Nat.lt_log2_self
    congr 1
    apply le_antisymm
    · exact (Nat.lt_clog_iff_pow_lt one_lt_two).mpr (by omega)
    · exact Nat.clog_le_of_le_pow (by omega)

/-! ## The capacity -/

/-- The magnitude of a value that is not negative is its exact value. -/
theorem ratOf_of_nonneg {a : Val} (h : 0 ≤ toUnits a) : ratOf a = (magUnits a : Rat) / unitsPerOne := by
  have hunits : toUnits a = (magUnits a : Int) := by rw [← toUnits_natAbs, Int.natAbs_of_nonneg h]
  rw [ratOf, hunits, Int.cast_natCast]

/-- Twice `CENTRE_MAX` milliseconds of samples are a fifth of the rate (R173). -/
theorem capacity_eq_two_pow_clog {sr : Val} (h : 0 ≤ toUnits sr) : capacity sr = 2 ^ Nat.clog 2 (⌈ratOf sr / 5⌉₊ + 2) := by
  have hunit : (unitsPerOne : Rat) ≠ 0 := by exact_mod_cast unitsPerOne_pos.ne'
  have hfifth : (((Config.centreMax + Config.centreMax * Config.depthMax) * magUnits sr : Nat) : Rat) /
      (1000 * unitsPerOne : Nat) = ratOf sr / 5 := by
    rw [ratOf_of_nonneg h, Config.centreMax, Config.depthMax]
    push_cast
    field_simp
    ring
  rw [capacity, pow2ceil_eq_two_pow_clog, ceilDiv_eq_natCeil (Nat.mul_pos (by norm_num) unitsPerOne_pos), hfifth, Config.margin]

/-- A rate of at least one sample per second has a positive fifth, so the capacity is a power of two at least 3 (R28). -/
theorem four_le_capacity {sr : Val} (h : fle Config.srMin sr = true) : 4 ≤ capacity sr := by
  obtain ⟨-, -, hle⟩ := fle_iff.mp h
  have hmin : toUnits Config.srMin = 2 ^ 149 := by decide
  have hpos : 0 < toUnits sr := by omega
  have hrate : 0 < ratOf sr := div_pos (by exact_mod_cast hpos) (by exact_mod_cast unitsPerOne_pos)
  have hfifth : 0 < ⌈ratOf sr / 5⌉₊ := Nat.ceil_pos.mpr (by positivity)
  have hexp : 2 ≤ Nat.clog 2 (⌈ratOf sr / 5⌉₊ + 2) := (Nat.lt_clog_iff_pow_lt one_lt_two).mpr (by omega)
  rw [capacity_eq_two_pow_clog hpos.le]
  exact Nat.pow_le_pow_right two_pos hexp

/-! ## The statement -/

/-- Settles O17: the capacity is the power of two at the rounded-up binary logarithm of the slots asked for, so it is the least one
that holds them. -/
theorem capacityIsTheNextPowerOfTwo : Obligations.CapacityIsTheNextPowerOfTwo := by
  intro sr _ hnonneg
  obtain ⟨-, -, hunits⟩ := fle_iff.mp hnonneg
  rw [show toUnits 0x00000000#32 = 0 by decide] at hunits
  have hrate : 0 ≤ ratOf sr / 5 := by rw [ratOf_of_nonneg hunits]; positivity
  have hholds (j : Nat) : ⌈ratOf sr / 5⌉ + 2 ≤ (2 : Int) ^ j ↔ ⌈ratOf sr / 5⌉₊ + 2 ≤ 2 ^ j := by
    rw [← Int.natCast_ceil_eq_ceil hrate]
    exact_mod_cast Iff.rfl
  refine ⟨⟨_, capacity_eq_two_pow_clog hunits, ?_, fun j hj => ?_⟩, four_le_capacity⟩
  · exact (hholds _).mpr (Nat.le_pow_clog one_lt_two _)
  · exact Nat.clog_le_of_le_pow ((hholds j).mp hj)

end Sys2Proof.Machine
end

section
/-! SUPPORT. The encoder and the decoder are inverse to one another (spec 30_encoding.md R73 to R86). -/

namespace Sys2Proof.Machine

/-! ## The fields of a header -/

/-- A word is its two header fields (R73). -/
theorem eq_of_fields {a b : Word} (hopc : opcField a = opcField b) (harg : argField a = argField b) : a = b := by
  simp only [opcField, argField, BitVec.extractLsb'_toNat, Nat.shiftRight_eq_div_pow] at hopc harg
  have ha := a.isLt
  have hb := b.isLt
  apply BitVec.eq_of_toNat_eq
  omega

theorem opcField_row_injective {op op' : Op} (h : opcField op.row.matchBits = opcField op'.row.matchBits) : op = op' := by
  have hone (o : Op) : opcodeTable.find? (fun r => opcField r.matchBits == opcField o.row.matchBits) = some o.row := by
    cases o <;> decide
  have hrow : op.row = op'.row := Option.some.inj ((hone op).symm.trans (h ▸ hone op'))
  have hop (o : Op) : o.row.op = o := by cases o <;> rfl
  rw [← hop op, ← hop op', hrow]

/-- The fixed bits of a row make a header that selects it, with `ARG` zero (R76). -/
theorem argField_matchBits (op : Op) : argField op.row.matchBits = 0 := by cases op <;> rfl

/-- A header with a row's `OPC`, and `ARG` zero unless the row is that of PROCESS, selects the row (R76, R84). -/
theorem selected_of_fields {op : Op} {h : Word} (hopc : opcField h = opcField op.row.matchBits)
    (harg : op ≠ .process → argField h = 0) : h &&& op.row.mask = op.row.matchBits := by
  by_cases hop : op = .process
  · subst hop
    apply eq_of_fields
    · rw [← hopc]
      have hmask : Op.process.row.mask.extractLsb' 24 8 = BitVec.allOnes 8 := rfl
      simp only [opcField, BitVec.extractLsb'_and, hmask, BitVec.and_allOnes]
    · have hmask : Op.process.row.mask.extractLsb' 0 24 = 0#24 := rfl
      simp only [argField, BitVec.extractLsb'_and, hmask, BitVec.and_zero]
      rfl
  · have hmask : op.row.mask = BitVec.allOnes 32 := by
      cases op with
      | process => exact absurd rfl hop
      | _ => rfl
    rw [hmask, BitVec.and_allOnes]
    exact eq_of_fields hopc ((harg hop).trans (argField_matchBits op).symm)

/-- A header selects at most one row: the rows differ in `OPC` (R76). -/
theorem rowOf_of_selected {op : Op} {h : Word} (hsel : h &&& op.row.mask = op.row.matchBits) : rowOf h = some op.row := by
  cases hr : rowOf h with
  | none =>
    have hnone := List.find?_eq_none.mp hr op.row (row_mem op)
    simp [Row.selects, hsel] at hnone
  | some r =>
    obtain ⟨hrow, hsel'⟩ := rowOf_some hr
    rw [hrow] at hsel' ⊢
    have hopc := (opcField_of_selected hsel').symm.trans (opcField_of_selected hsel)
    rw [opcField_row_injective hopc]

/-! ## The header of a command -/

theorem wellFormed_prepare {r : BitVec 64} {m n : Int} : (Instr.prepare r m n).WellFormed ↔ fitsInt32 m ∧ fitsInt32 n := by
  rw [Instr.WellFormed, Instr.wellFormed, Bool.and_eq_true, decide_eq_true_iff, decide_eq_true_iff]

theorem wellFormed_process {n : Nat} : (Instr.process n).WellFormed ↔ n < 2 ^ 24 := by
  rw [Instr.WellFormed, Instr.wellFormed, decide_eq_true_iff]

/-- Only PROCESS writes into `ARG` (R78). -/
theorem header_of_ne_process {i : Instr} (hop : i.op ≠ .process) : i.header = i.op.row.matchBits := by
  cases i with
  | process n => exact absurd rfl hop
  | _ => rfl

theorem opcField_header {i : Instr} (hi : i.WellFormed) : opcField i.header = opcField i.op.row.matchBits := by
  cases i with
  | process n =>
    have hn : n < 2 ^ 24 := wellFormed_process.mp hi
    have hzero : (BitVec.ofNat 32 n).extractLsb' 24 8 = 0#8 := by
      apply BitVec.eq_of_toNat_eq
      simp only [BitVec.extractLsb'_toNat, BitVec.toNat_ofNat, Nat.shiftRight_eq_div_pow]
      omega
    simp only [opcField, Instr.header, BitVec.extractLsb'_or, hzero, BitVec.or_zero, Instr.op]
  | _ => rfl

/-- `ARG` of a PROCESS header is the number of samples (R78). -/
theorem argField_header_process {n : Nat} (hn : n < 2 ^ 24) : argField (Instr.process n).header = n := by
  have hzero : (Instr.process n).op.row.matchBits.extractLsb' 0 24 = 0#24 :=
    BitVec.eq_of_toNat_eq (argField_matchBits .process)
  simp only [argField, Instr.header, BitVec.extractLsb'_or, hzero, BitVec.zero_or, BitVec.extractLsb'_toNat,
    BitVec.toNat_ofNat, Nat.shiftRight_zero]
  omega

theorem rowOf_header {i : Instr} (hi : i.WellFormed) : rowOf i.header = some i.op.row := by
  refine rowOf_of_selected (selected_of_fields (opcField_header hi) fun hop => ?_)
  rw [header_of_ne_process hop]
  exact argField_matchBits _

/-! ## The operands of a command -/

/-- A signed operand survives its 32 bits (R80). -/
theorem toInt_ofInt_of_fits {z : Int} (hz : fitsInt32 z) : (BitVec.ofInt 32 z).toInt = z := by
  rw [BitVec.toInt_ofInt]
  obtain ⟨hlo, hhi⟩ := hz
  apply Int.bmod_eq_of_le <;> omega

theorem fitsInt32_toInt (w : Word) : fitsInt32 w.toInt := by
  have hlo := BitVec.le_toInt w
  have hhi := BitVec.toInt_lt (x := w)
  exact ⟨by simpa using hlo, by simpa using hhi⟩

/-- The two halves of a sample rate are the rate (R80). -/
theorem rateHalves_append (r : BitVec 64) : r.extractLsb' 32 32 ++ r.extractLsb' 0 32 = r := by
  ext i hi
  simp only [BitVec.getElem_append, BitVec.getElem_extractLsb']
  split
  · simp [BitVec.getLsbD_eq_getElem hi]
  · rw [show 32 + (i - 32) = i by omega, BitVec.getLsbD_eq_getElem hi]

theorem rateHalves_of_append (hi lo : Word) :
    (hi ++ lo : BitVec 64).extractLsb' 32 32 = hi ∧ (hi ++ lo : BitVec 64).extractLsb' 0 32 = lo := by
  constructor
  · ext i h
    rw [BitVec.getElem_extractLsb', BitVec.getLsbD_append, if_neg (by omega), Nat.add_sub_cancel_left,
      BitVec.getLsbD_eq_getElem h]
  · ext i h
    rw [BitVec.getElem_extractLsb', Nat.zero_add, BitVec.getLsbD_append, if_pos h, BitVec.getLsbD_eq_getElem h]

/-- The operands written are the operands read (R75, R78 to R80). -/
theorem assemble_payload {i : Instr} (hi : i.WellFormed) (rest : List Word) :
    assemble i.op i.header (i.payload ++ rest) = .command i rest := by
  cases i with
  | prepare r m n =>
    obtain ⟨hm, hn⟩ := wellFormed_prepare.mp hi
    simp [Instr.op, assemble, Instr.payload, takePrepare, toInt_ofInt_of_fits hm, toInt_ofInt_of_fits hn, rateHalves_append]
  | process n =>
    simp only [Instr.op, assemble, Instr.payload, List.nil_append, argField_header_process (wellFormed_process.mp hi)]
  | _ => rfl

/-- A value word is all a SET takes (R79). -/
theorem takeValue_command {make : Word → Instr} {payload rest : List Word} {i : Instr}
    (h : takeValue make payload = .command i rest) : ∃ v, payload = v :: rest ∧ i = make v := by
  cases payload with
  | nil => cases h
  | cons v payload => cases h; exact ⟨v, rfl, rfl⟩

theorem takePrepare_command {payload rest : List Word} {i : Instr} (h : takePrepare payload = .command i rest) :
    ∃ hi lo m n, payload = hi :: lo :: m :: n :: rest ∧ i = .prepare (hi ++ lo) m.toInt n.toInt := by
  unfold takePrepare at h
  split at h
  · next hi lo m n _ => cases h; exact ⟨hi, lo, m, n, rfl, rfl⟩
  · cases h

/-- A header with all its bits fixed is the header the encoder writes (R76). -/
theorem header_of_selected {i : Instr} {hd : Word} (hop : i.op ≠ .process)
    (hsel : hd &&& i.op.row.mask = i.op.row.matchBits) : hd = i.header := by
  rw [header_of_ne_process hop]
  exact eq_of_fields (opcField_of_selected hsel) ((argField_of_selected hop hsel).trans (argField_matchBits _).symm)

/-- The decoder takes a command's operands only from the words the encoder writes for them (R75, R78 to R80). -/
theorem assemble_command {i : Instr} {hd : Word} {payload rest : List Word}
    (hsel : hd &&& i.op.row.mask = i.op.row.matchBits) (h : assemble i.op hd payload = .command i rest) :
    i.WellFormed ∧ hd :: payload = encode i ++ rest := by
  have hheader := fun hop => header_of_selected (i := i) hop hsel
  cases i with
  | process n =>
    simp only [Instr.op, assemble, Decoded.command.injEq, Instr.process.injEq] at h
    obtain ⟨harg, rfl⟩ := h
    have hn : n < 2 ^ 24 := by
      rw [← harg]
      exact (hd.extractLsb' 0 24).isLt
    have hwf : (Instr.process n).WellFormed := wellFormed_process.mpr hn
    have hhd : hd = (Instr.process n).header :=
      eq_of_fields ((opcField_of_selected hsel).trans (opcField_header hwf).symm)
        (harg.trans (argField_header_process hn).symm)
    exact ⟨hwf, by rw [hhd]; rfl⟩
  | prepare r m n =>
    obtain ⟨hi, lo, mw, nw, rfl, heq⟩ := takePrepare_command h
    obtain ⟨rfl, rfl, rfl⟩ := Instr.prepare.inj heq
    refine ⟨wellFormed_prepare.mpr ⟨fitsInt32_toInt mw, fitsInt32_toInt nw⟩, ?_⟩
    obtain ⟨hhi, hlo⟩ := rateHalves_of_append hi lo
    rw [hheader (by simp [Instr.op])]
    simp [encode, Instr.payload, hhi, hlo]
  | setRate v | setDepth v | setCentreDelay v | setFeedback v | setMix v =>
    obtain ⟨w, rfl, heq⟩ := takeValue_command h
    injection heq with hv
    subst hv
    exact ⟨rfl, by rw [hheader (by simp [Instr.op])]; rfl⟩
  | reset | getRate | getDepth | getCentreDelay | getFeedback | getMix =>
    simp only [Instr.op, assemble, Decoded.command.injEq, true_and] at h
    subst h
    exact ⟨rfl, by rw [hheader (by simp [Instr.op])]; rfl⟩

/-! ## Legal headers -/

/-- The opcodes of the two lists are those of the opcode map (R76). -/
theorem exists_op_of_opcField {h : Word} (hopc : opcField h ∈ audioOpcodes ∨ opcField h ∈ controlOpcodes) :
    ∃ op : Op, opcField h = opcField op.row.matchBits := by
  have hall : ∀ k ∈ audioOpcodes ++ controlOpcodes, ∃ r ∈ opcodeTable, k = opcField r.matchBits := by decide
  obtain ⟨r, hr, hk⟩ := hall _ (List.mem_append.mpr hopc)
  exact ⟨r.op, by rw [hk, ← row_of_mem hr]⟩

/-- Outside the three cases a header selects a row of its port (R84). -/
theorem rowOf_of_not_illegal {p : Port} {h : Word} (hlegal : ¬ IllegalHeader p h) :
    ∃ op : Op, op.row.port = p ∧ rowOf h = some op.row := by
  obtain ⟨hknown, hrest⟩ := not_or.mp hlegal
  obtain ⟨harg, hport⟩ := not_or.mp hrest
  obtain ⟨op, hop⟩ := exists_op_of_opcField (h := h) (by tauto)
  refine ⟨op, ?_, rowOf_of_selected (selected_of_fields hop fun hne => ?_)⟩
  · have hmem := opcField_row_mem op
    rw [← hop] at hmem
    rcases hmem with ⟨hp, hin, -⟩ | ⟨hp, hin, -⟩
    · cases p with
      | audio => exact hp
      | control => exact absurd (.inl ⟨hin, rfl⟩) hport
    · cases p with
      | audio => exact absurd (.inr ⟨hin, rfl⟩) hport
      | control => exact hp
  · have hcode : opcField h ≠ 0x03 := fun hc => hne (opcField_row_injective (op' := .process) (hop.symm.trans hc))
    by_contra hz
    exact harg ⟨hcode, hz⟩

/-- Taking operands never rejects (R84). -/
theorem assemble_ne_illegal (op : Op) (h : Word) (payload : List Word) (why : Reject) :
    assemble op h payload ≠ .illegal why := by
  cases op with
  | prepare => simp only [assemble]; unfold takePrepare; split <;> simp
  | setRate | setDepth | setCentreDelay | setFeedback | setMix => cases payload <;> simp [assemble, takeValue]
  | reset | process | getRate | getDepth | getCentreDelay | getFeedback | getMix => simp [assemble]

/-! ## The statements -/

/-- Settles O1: the header selects the command's row and carries the count of PROCESS; the operand words give the operands
back. -/
theorem decodeOfEncodeIsTheCommand : Obligations.DecodeOfEncodeIsTheCommand := by
  intro i rest hi
  calc decode i.port (encode i ++ rest)
      = assemble i.op i.header (i.payload ++ rest) := decode_of_row (rowOf_header hi) _
    _ = .command i rest := assemble_payload hi rest

/-- Settles O2: a decoded command's header selects its row, and then every bit of its words is determined. -/
theorem decodedWordsAreTheEncoding : Obligations.DecodedWordsAreTheEncoding := by
  intro p ws i rest h
  obtain ⟨hd, payload, rfl, hrow, hport, hass⟩ := decode_command h
  obtain ⟨hwf, hwords⟩ := assemble_command (rowOf_some hrow).2 hass
  exact ⟨hwf, hport, hwords⟩

/-- Settles O3: outside the three cases the header selects a row of its port, and taking operands does not reject. -/
theorem headerIllegalExactlyInThreeCases : Obligations.HeaderIllegalExactlyInThreeCases := by
  refine fun p h payload => ⟨fun ⟨why, hd⟩ => ?_, fun hill => decode_illegal hill payload⟩
  by_contra hlegal
  obtain ⟨op, rfl, hrow⟩ := rowOf_of_not_illegal hlegal
  rw [decode_of_row hrow] at hd
  exact assemble_ne_illegal _ _ _ _ hd

end Sys2Proof.Machine
end

section
/-! SUPPORT. Framing: what a port makes of the words of one command as they arrive (spec 30_encoding.md R72, R86; 60_exceptions.md
R206). -/

namespace Sys2Proof.Machine

/-! ## The decoder on the beginning of a command -/

theorem assemble_take_payload (i : Instr) {k : Nat} (hk : k < i.payload.length) :
    assemble i.op i.header (i.payload.take k) = .incomplete := by
  cases i with
  | prepare r m n =>
    have hk4 : k < 4 := hk
    interval_cases k <;> rfl
  | setRate v | setDepth v | setCentreDelay v | setFeedback v | setMix v =>
    obtain rfl : k = 0 := Nat.lt_one_iff.mp hk
    rfl
  | _ => exact absurd hk (Nat.not_lt_zero k)

/-- A command short of words is not decoded yet (R72, R82). -/
theorem decode_encode_take {i : Instr} (hi : i.WellFormed) {k : Nat} (hk : k < (encode i).length) :
    decode i.port ((encode i).take k) = .incomplete := by
  cases k with
  | zero => rfl
  | succ k =>
    calc decode i.port ((encode i).take (k + 1))
        = assemble i.op i.header (i.payload.take k) := decode_of_row (rowOf_header hi) _
      _ = .incomplete := assemble_take_payload i (by simpa [encode] using hk)

theorem decode_encode {i : Instr} (hi : i.WellFormed) : decode i.port (encode i) = .command i [] := by
  simpa using decodeOfEncodeIsTheCommand i [] hi

/-! ## Fetching word by word -/

theorem fetch_incomplete {p : Port} {taken : List Word} {w : Word} (hd : decode p (taken ++ [w]) = .incomplete)
    (rest : List Input) : fetch p taken (.word p w :: rest) = fetch p (taken ++ [w]) rest := by
  rw [fetch]
  simp only [hd, if_true]

theorem fetch_command {p : Port} {taken : List Word} {w : Word} {i : Instr} (hd : decode p (taken ++ [w]) = .command i [])
    (rest : List Input) : fetch p taken (.word p w :: rest) = .command i rest := by
  rw [fetch]
  simp only [hd, if_true, List.map_nil, List.nil_append]

/-- With no word for the port next, the fetch waits (R72). -/
theorem fetch_short {p : Port} (taken : List Word) {rest : List Input} (hrest : ∀ w r, rest ≠ .word p w :: r) :
    fetch p taken rest = .short taken rest := by
  match rest with
  | [] => rw [fetch]; simp
  | .powerOn :: r => rw [fetch]; simp
  | .word q w :: r =>
    have hq : q ≠ p := fun he => hrest w r (by rw [he])
    rw [fetch]
    simp only [if_neg hq]

/-- Words of a command that leave it short are taken one after another (R72). -/
theorem fetch_encode_take {i : Instr} (hi : i.WellFormed) {j k : Nat} (hjk : j ≤ k) (hk : k < (encode i).length)
    (rest : List Input) :
    fetch i.port ((encode i).take j) ((((encode i).take k).drop j).map (.word i.port) ++ rest) =
      fetch i.port ((encode i).take k) rest := by
  induction k, hjk using Nat.le_induction generalizing rest with
  | base => simp
  | succ k hjk ih =>
    have hlt : k < (encode i).length := by omega
    have htake : (encode i).take (k + 1) = (encode i).take k ++ [(encode i)[k]] := (List.take_concat_get' _ k hlt).symm
    have hlen : j ≤ ((encode i).take k).length := by simp; omega
    have hinc := decode_encode_take hi hk
    rw [htake] at hinc
    rw [htake, List.drop_append_of_le_length hlen, List.map_append, List.append_assoc, ih hlt]
    exact fetch_incomplete hinc rest

/-- The fetch ends with the last word of the command (R72). -/
theorem fetch_encode_drop {i : Instr} (hi : i.WellFormed) {k : Nat} (hk : k < (encode i).length) (rest : List Input) :
    fetch i.port ((encode i).take k) (((encode i).drop k).map (.word i.port) ++ rest) = .command i rest := by
  obtain ⟨n, hn⟩ : ∃ n, (encode i).length = n + 1 := ⟨_, rfl⟩
  have hlt : n < (encode i).length := by omega
  have hwhole : (encode i).take n ++ [(encode i)[n]] = encode i := by
    rw [List.take_concat_get' _ n hlt, ← hn, List.take_length]
  have hlast : (encode i).drop k = ((encode i).take n).drop k ++ [(encode i)[n]] := by
    rw [← List.drop_append_of_le_length (by simp; omega), hwhole]
  have hd := decode_encode hi
  rw [← hwhole] at hd
  rw [hlast, List.map_append, List.append_assoc, fetch_encode_take hi (by omega) hlt]
  exact fetch_command hd rest

/-! ## One step at the words of a command -/

/-- A word outside a fault that is no sample of a block belongs to a command (R72). -/
theorem stepOn_command {hw : Hardware} {p : Port} {w : Word} {rest : List Input} {s : State} (hf : s.fault = false)
    (hb : p = .audio → s.blockRunning = false) (hin : s.inputs = .word p w :: rest) :
    stepOn hw s = commandStep hw p s := by
  have hsample : ¬ (p = .audio ∧ s.blockRunning = true) := fun ⟨hp, hrun⟩ => by simp [hb hp] at hrun
  simp only [stepOn, hin, hf, if_neg hsample, Bool.false_eq_true, if_false]

/-- The step at a command that becomes whole is the command's meaning (R58, R72). -/
theorem stepOn_resumed {hw : Hardware} {i : Instr} {k : Nat} {rest : List Input} {s : State} (hf : s.fault = false)
    (hi : i.WellFormed) (hk : k < (encode i).length) (hb : i.port = .audio → s.blockRunning = false)
    (htaken : s.taken i.port = (encode i).take k)
    (hin : s.inputs = ((encode i).drop k).map (.word i.port) ++ rest) :
    stepOn hw s = execOn hw i (State.setTaken i.port [] { s with inputs := rest }) := by
  have hfirst := hin
  rw [List.drop_eq_getElem_cons hk, List.map_cons, List.cons_append] at hfirst
  rw [stepOn_command hf hb hfirst, commandStep, htaken, hin, fetch_encode_drop hi hk]

/-- The step at a command that stays short of words only takes them (R72, R206). -/
theorem stepOn_waits {hw : Hardware} {i : Instr} {j k : Nat} {rest : List Input} {s : State} (hf : s.fault = false)
    (hi : i.WellFormed) (hb : i.port = .audio → s.blockRunning = false) (hjk : j < k) (hk : k < (encode i).length)
    (htaken : s.taken i.port = (encode i).take j)
    (hin : s.inputs = (((encode i).take k).drop j).map (.word i.port) ++ rest)
    (hrest : ∀ w r, rest ≠ .word i.port w :: r) :
    stepOn hw s = .next (State.setTaken i.port ((encode i).take k) { s with inputs := rest }) := by
  have hfirst := hin
  rw [List.drop_eq_getElem_cons (by simp; omega), List.map_cons, List.cons_append] at hfirst
  rw [stepOn_command hf hb hfirst, commandStep, htaken, hin, fetch_encode_take hi hjk.le hk, fetch_short _ hrest]

/-! ## The statements -/

/-- Settles O7: the fetch ends with the last word of the command, and the decoder reads the command back from its words. -/
theorem commandResumesWhenItsWordsArrive : Obligations.CommandResumesWhenItsWordsArrive := by
  intro s i k rest hf hi hk hb htaken hin
  rw [← execOn_default]
  exact stepOn_resumed hf hi hk hb htaken hin

/-- Settles O6: no beginning of a command decodes, so the fetch takes the words and waits. -/
theorem commandShortOfWordsOnlyWaits : Obligations.CommandShortOfWordsOnlyWaits :=
  fun _ _ _ _ _ hf hi hb hjk hk htaken hin hrest => stepOn_waits hf hi hb hjk hk htaken hin hrest

/-- Settles O5: at a command boundary no words were taken earlier, so it is the case of a command resumed at its header. -/
theorem stepRunsTheDecodedCommand : Obligations.StepRunsTheDecodedCommand := by
  intro s i rest hs hi hin
  obtain ⟨hf, htaken, hb⟩ := hs
  have hstep := commandResumesWhenItsWordsArrive s i 0 rest hf hi (by simp [encode]) hb htaken hin
  rwa [setTaken_self (by cases hp : i.port <;> simpa [State.taken, hp] using htaken)] at hstep

end Sys2Proof.Machine
end

section
/-! SUPPORT. The parameter commands (spec 40_parameters.md R101 to R115): each as an equation of states. -/

namespace Sys2Proof.Machine

/-! ## The meanings by register -/

@[simp] theorem exec_setCommand (r : ParamReg) (v : Word) (s : State) :
    exec (r.setCommand v) s = .next (setParam r v s) := by cases r <;> rfl

@[simp] theorem exec_getCommand (r : ParamReg) (s : State) : exec r.getCommand s = .next (getParam r s) := by
  cases r <;> rfl

theorem setParam_of_fault {s : State} (hf : s.fault = true) (r : ParamReg) (v : Word) :
    setParam r v s = { s with controlOut := s.controlOut ++ [fcFaulted, fcFaulted] } := by
  simp [setParam, hf, discardWords_control]

theorem setParam_of_nan {s : State} (hf : s.fault = false) (r : ParamReg) {v : Word} (hv : isNan v = true) :
    setParam r v s = { s with controlOut := s.controlOut ++ [stParamNan] } := by
  simp [setParam, hf, hv, respond]

theorem setParam_of_value {s : State} (hf : s.fault = false) (r : ParamReg) {v : Word} (hv : isNan v = false) :
    setParam r v s =
      { s with params := s.params.put r (clamp v r.lo r.hi), controlOut := s.controlOut ++ [stOk] } := by
  simp [setParam, hf, hv, respond]

theorem getParam_of_fault {s : State} (hf : s.fault = true) (r : ParamReg) :
    getParam r s = { s with controlOut := s.controlOut ++ [fcFaulted] } := by
  simp [getParam, hf, discardWords_control]

theorem getParam_of_not_fault {s : State} (hf : s.fault = false) (r : ParamReg) :
    getParam r s = { s with controlOut := s.controlOut ++ [stOk, s.params.get r] } := by
  simp [getParam, hf, respond]

/-- The register after a SET outside a fault: the clamped value, or the old one when the value is a NaN (R101). -/
theorem get_setParam {s : State} (hf : s.fault = false) (r : ParamReg) (v : Word) :
    (setParam r v s).params.get r = if isNan v then s.params.get r else clamp v r.lo r.hi := by
  cases hv : isNan v
  · simp [setParam_of_value hf r hv]
  · simp [setParam_of_nan hf r hv]

/-! ## The statements -/

/-- Settles O9: the three branches of the common semantics. -/
theorem setFollowsTheCommonSemantics : Obligations.SetFollowsTheCommonSemantics := by
  intro r v s
  rw [exec_setCommand]
  exact ⟨fun hf => congrArg _ (setParam_of_fault hf r v), fun hf hv => congrArg _ (setParam_of_nan hf r hv),
    fun hf hv => congrArg _ (setParam_of_value hf r hv)⟩

/-- Settles O8: the common semantics at each register, with its own bounds. -/
theorem setStoresTheClampedValue : Obligations.SetStoresTheClampedValue := by
  intro v s hf hv
  have hset := fun r => congrArg (Host.Outcome.next (φ := Fault) (ρ := Refusal)) (setParam_of_value hf r hv)
  exact ⟨hset .rate, hset .depth, hset .centreDelay, hset .feedback, hset .mix⟩

/-- Settles O10: the two branches of the common semantics at each register. -/
theorem getAnswersTheLiveRegister : Obligations.GetAnswersTheLiveRegister := by
  refine fun s => ⟨fun hf r => ?_, fun hf => ?_⟩
  · rw [exec_getCommand, getParam_of_fault hf]
    rfl
  · have hget := fun r => congrArg (Host.Outcome.next (φ := Fault) (ρ := Refusal)) (getParam_of_not_fault hf r)
    exact ⟨hget .rate, hget .depth, hget .centreDelay, hget .feedback, hget .mix⟩

/-- Settles O11: the GET reads the register, which still holds what the SET left there. -/
theorem getReturnsWhatSetStored : Obligations.GetReturnsWhatSetStored := by
  intro r v s u t hsf hset htf hkept
  obtain rfl : setParam r v s = u := by rw [exec_setCommand] at hset; exact Host.Outcome.next.inj hset
  rw [get_setParam hsf] at hkept
  rw [exec_getCommand, getParam_of_not_fault htf, hkept]
  rfl

/-- Settles O13: -0 is equal to the lower bound, so inside the range; a value below the range is replaced by the bound, +0. -/
theorem negativeZeroIsStoredAsIs : Obligations.NegativeZeroIsStoredAsIs := by
  intro s hf
  have hset := fun r v hv => congrArg (Host.Outcome.next (φ := Fault) (ρ := Refusal)) (setParam_of_value hf r (v := v) hv)
  have hneg : clamp negZero posZero valOne = negZero := clamp_of_inside (by decide) (by decide)
  refine ⟨?_, ?_, fun v hv => ?_⟩
  · exact (hset .depth negZero (by decide)).trans (by rw [ParamReg.lo, ParamReg.hi, hneg]; rfl)
  · exact (hset .mix negZero (by decide)).trans (by rw [ParamReg.lo, ParamReg.hi, hneg]; rfl)
  · have hnan : isNan v = false := (flt_iff.mp hv).1
    have hbelow : clamp v posZero valOne = posZero := clamp_of_below hv
    exact ⟨(hset .depth v hnan).trans (by rw [ParamReg.lo, ParamReg.hi, hbelow]; rfl),
      (hset .mix v hnan).trans (by rw [ParamReg.lo, ParamReg.hi, hbelow]; rfl)⟩

end Sys2Proof.Machine
end

section
/-! SUPPORT. PREPARE when accepted, RESET, and what CLEAR does to each channel and slot (spec 44_lifecycle.md R170 to R178). -/

namespace Sys2Proof.Machine

/-! ## The registers and the delay RAM of one channel -/

theorem slot_of_getElem? {s : State} {ch : Nat} {c : Channel} (h : s.chans[ch]? = some c) (k : Nat) :
    s.slot ch k = Memory.read c.dl k := by simp only [State.slot, h]

theorem phase_of_getElem? {s : State} {ch : Nat} {c : Channel} (h : s.chans[ch]? = some c) : s.phase ch = c.phase := by
  simp only [State.phase, h]

theorem cursor_of_getElem? {s : State} {ch : Nat} {c : Channel} (h : s.chans[ch]? = some c) : s.cursor ch = c.cursor := by
  simp only [State.cursor, h]

/-- A channel that the hardware does not have reads as a blank one (R11). -/
theorem channel_reads_of_none {s : State} {ch : Nat} (h : s.chans[ch]? = none) :
    (∀ k, s.slot ch k = blankWord) ∧ s.phase ch = posZero ∧ s.cursor ch = 0 := by
  simp [State.slot, State.phase, State.cursor, h]

/-- What a channel reads as is a matter of the channel alone. -/
theorem channel_reads_congr {s t : State} {ch : Nat} (h : s.chans[ch]? = t.chans[ch]?) :
    (∀ k, s.slot ch k = t.slot ch k) ∧ s.phase ch = t.phase ch ∧ s.cursor ch = t.cursor ch := by
  simp [State.slot, State.phase, State.cursor, h]

/-! ## CLEAR -/

/-- A configured channel after CLEAR (R176). -/
theorem clearAll_configured (s : State) {ch : Nat} (h : ch < s.nch) :
    (clearAll s).phase ch = posZero ∧ (clearAll s).cursor ch = 0 ∧
    (∀ k < s.cap, (clearAll s).slot ch k = blankWord) ∧ ∀ k, s.cap ≤ k → (clearAll s).slot ch k = s.slot ch k := by
  have hget := clearAll_getElem? s ch
  rw [if_pos h] at hget
  cases hc : s.chans[ch]? with
  | none =>
    rw [hc, Option.map_none] at hget
    obtain ⟨hslot, hphase, hcursor⟩ := channel_reads_of_none hget
    obtain ⟨hslot', -, -⟩ := channel_reads_of_none hc
    exact ⟨hphase, hcursor, fun k _ => hslot k, fun k _ => (hslot k).trans (hslot' k).symm⟩
  | some c =>
    rw [hc, Option.map_some] at hget
    refine ⟨phase_of_getElem? hget, cursor_of_getElem? hget, fun k hk => ?_, fun k hk => ?_⟩
    · rw [slot_of_getElem? hget]; exact Memory.read_clearBelow_lt c.dl hk
    · rw [slot_of_getElem? hget, slot_of_getElem? hc]; exact Memory.read_clearBelow_ge c.dl hk

/-- The channels that are not configured are not touched by CLEAR (log 12). -/
theorem clearAll_unconfigured (s : State) {ch : Nat} (h : s.nch ≤ ch) :
    (clearAll s).chans[ch]? = s.chans[ch]? := by
  rw [clearAll_getElem?, if_neg (by omega)]

/-! ## PREPARE and RESET outside a fault -/

theorem finite_of_accepted {sr : Val} (hn : isNan sr = false) (hmin : fle Config.srMin sr = true) (hinf : sr ≠ posInf) :
    isFinite sr = true := by
  refine finite_of_not hn (Bool.eq_false_iff.mpr fun hi => hinf ?_)
  have hmag : magBits sr = infBits := by simpa [isInf] using hi
  obtain ⟨-, -, hle⟩ := fle_iff.mp hmin
  have hpos : 0 < toUnits Config.srMin := by decide
  have hsign : signBit sr = false := by
    by_contra hneg
    rw [Bool.not_eq_false] at hneg
    have hunits : toUnits sr ≤ 0 := by simp [toUnits, hneg]
    omega
  exact val_ext hsign hmag

theorem ne_posInf_of_finite {sr : Val} (h : isFinite sr = true) : sr ≠ posInf := by
  rintro rfl
  exact absurd h (by decide)

theorem execPrepareOn_accepted {hw : Hardware} {r : BitVec 64} {m n : Int} {s : State} (hf : s.fault = false)
    (h : checkCfg hw (valOfF64 (s.nan .sampleRate) r) m n = stOk) :
    execPrepareOn hw r m n s = .next (respond .audio stOk (configure (valOfF64 (s.nan .sampleRate) r) m n s)) := by
  rcases execPrepareOn_cases hw r m n s with ⟨hfault, -⟩ | ⟨-, -, hnext⟩ | ⟨-, hbad, -⟩
  · simp [hf] at hfault
  · exact hnext
  · exact absurd h hbad

theorem execReset_prepared {s : State} (hf : s.fault = false) (he : s.engineState = .prepared) :
    execReset s = .next (respond .audio stOk (clearAll s)) := by
  simp [execReset, hf, he]

/-- A RESET or PREPARE that leaves the engine Prepared ends with CLEAR and `ST_OK` (R170, R177). -/
theorem exec_ends_with_clear {i : Instr} {s t : State} (hi : i = .reset ∨ ∃ r m n, i = .prepare r m n)
    (hf : s.fault = false) (h : exec i s = .next t) (ht : t.engineState = .prepared) :
    ∃ u, u.chans = s.chans ∧ t = respond .audio stOk (clearAll u) := by
  rcases hi with rfl | ⟨r, m, n, rfl⟩
  · rcases execReset_cases s with ⟨hfault, -⟩ | ⟨-, he, hnext⟩ | ⟨-, -, hnext⟩
    · simp [hf] at hfault
    · obtain rfl := Host.Outcome.next.inj (hnext.symm.trans h)
      simp [he] at ht
    · exact ⟨s, rfl, Host.Outcome.next.inj (h.symm.trans hnext)⟩
  · rcases execPrepareOn_cases defaultHardware r m n s with ⟨hfault, -⟩ | ⟨-, -, hnext⟩ | ⟨-, -, hnext⟩
    · simp [hf] at hfault
    · refine ⟨_, ?_, Host.Outcome.next.inj (h.symm.trans hnext)⟩
      rfl
    · obtain rfl := Host.Outcome.next.inj (hnext.symm.trans h)
      simp at ht

/-- Two channels that agree are cleared to the same, if their banks read alike from `cap` on (R176, R178). -/
theorem clear_eq_of_reads {c d : Channel} {cap : Nat} (hc : Memory.wf c.dl) (hd : Memory.wf d.dl)
    (h : ∀ k, cap ≤ k → Memory.read c.dl k = Memory.read d.dl k) : Channel.clear cap c = Channel.clear cap d := by
  have hdl : Memory.clearBelow cap c.dl = Memory.clearBelow cap d.dl := by
    refine Memory.ext_of_read (Memory.wf_clearBelow hc _) (Memory.wf_clearBelow hd _) fun k => ?_
    rcases Nat.lt_or_ge k cap with hk | hk
    · rw [Memory.read_clearBelow_lt _ hk, Memory.read_clearBelow_lt _ hk]
    · rw [Memory.read_clearBelow_ge _ hk, Memory.read_clearBelow_ge _ hk, h k hk]
  rw [Channel.clear, Channel.clear, hdl]

/-- A channel in canonical form is known by its registers and by what its bank reads as. -/
theorem channel_ext_of_reads {c d : Channel} (hc : Memory.wf c.dl) (hd : Memory.wf d.dl) (hphase : c.phase = d.phase)
    (hcursor : c.cursor = d.cursor) (h : ∀ k, Memory.read c.dl k = Memory.read d.dl k) : c = d := by
  have hdl := Memory.ext_of_read hc hd h
  cases c
  cases d
  simp_all

/-- The channels after CLEAR depend on nothing that the configuration reaches (R178). -/
theorem clearAll_chans_eq {a b : State} (hnch : a.nch = b.nch) (hcap : a.cap = b.cap)
    (hlen : a.chans.length = b.chans.length) (ha : ∀ c ∈ a.chans, Memory.wf c.dl) (hb : ∀ c ∈ b.chans, Memory.wf c.dl)
    (hslots : ∀ ch k, a.nch ≤ ch ∨ a.cap ≤ k → a.slot ch k = b.slot ch k)
    (hregs : ∀ ch, a.nch ≤ ch → a.phase ch = b.phase ch ∧ a.cursor ch = b.cursor ch) :
    (clearAll a).chans = (clearAll b).chans := by
  refine List.ext_getElem? fun ch => ?_
  rw [clearAll_getElem?, clearAll_getElem?, ← hnch, ← hcap]
  rcases Nat.lt_or_ge ch a.chans.length with hch | hch
  · obtain ⟨c, hac⟩ : ∃ c, a.chans[ch]? = some c := ⟨_, List.getElem?_eq_getElem hch⟩
    obtain ⟨d, hbd⟩ : ∃ d, b.chans[ch]? = some d := ⟨_, List.getElem?_eq_getElem (hlen ▸ hch)⟩
    have hwc := ha c (List.mem_of_getElem? hac)
    have hwd := hb d (List.mem_of_getElem? hbd)
    have hread (k : Nat) (hk : a.nch ≤ ch ∨ a.cap ≤ k) : Memory.read c.dl k = Memory.read d.dl k := by
      rw [← slot_of_getElem? hac, ← slot_of_getElem? hbd]; exact hslots ch k hk
    rw [hac, hbd]
    split
    · exact congrArg some (clear_eq_of_reads hwc hwd fun k hk => hread k (.inr hk))
    · next hout =>
      obtain ⟨hphase, hcursor⟩ := hregs ch (by omega)
      rw [phase_of_getElem? hac, phase_of_getElem? hbd] at hphase
      rw [cursor_of_getElem? hac, cursor_of_getElem? hbd] at hcursor
      exact congrArg some (channel_ext_of_reads hwc hwd hphase hcursor fun k => hread k (.inl (by omega)))
  · rw [List.getElem?_eq_none hch, List.getElem?_eq_none (hlen ▸ hch)]

/-! ## The statements -/

/-- Settles O16: the two outcomes of the checks, over every hardware. -/
theorem prepareOnAnyHardware : Obligations.PrepareOnAnyHardware := by
  rintro hw r m n s sr rfl hf
  refine ⟨fun hfin hmin hn hmax hm hcap => ?_, fun hbad => ?_⟩
  · exact execPrepareOn_accepted hf
      ((checkCfg_ok_iff hw _ m n).mpr ⟨not_nan_of_finite hfin, hmin, ne_posInf_of_finite hfin, hn, hmax, hm, hcap⟩)
  · have hrefused := (checkCfg_refused_iff hw (valOfF64 (s.nan .sampleRate) r) m n).mpr hbad
    have hstatus := congrArg (fun st => s.audioOut ++ [st]) (checkCfg_of_refused hrefused)
    exact ⟨_, execPrepareOn_refused hf hrefused, by simp, by simp, by simp [hf], hstatus⟩

/-- Settles O14: the accepted PREPARE of O16 on the default hardware. -/
theorem prepareConfiguresAndClears : Obligations.PrepareConfiguresAndClears := by
  intro r m n s sr hsr hf hfin hmin hn hmax hm hcap
  rw [← execOn_default]
  exact (prepareOnAnyHardware defaultHardware r m n s sr hsr hf).1 hfin hmin hn hmax hm hcap

/-- Settles O18: the three branches of RESET. -/
theorem resetClearsWhenPrepared : Obligations.ResetClearsWhenPrepared := by
  refine fun s => ⟨fun hf => ?_, fun hf he => ?_, fun hf he => ?_⟩
  · have hdiscard := discardWords_audio 1 s
    rw [exec_reset, execReset, if_pos hf, hdiscard]
    rfl
  · rw [exec_reset, execReset_prepared hf he]
    rfl
  · rw [exec_reset, execReset, if_neg (by simp [hf]), if_pos he, raiseFault_of_not_fault hf]
    rfl

/-- Settles O19: both commands end with CLEAR, which takes the configured channels one by one. -/
theorem clearingZerosExactlyTheConfiguredChannels : Obligations.ClearingZerosExactlyTheConfiguredChannels := by
  intro i s t hi hf h ht
  obtain ⟨u, hchans, rfl⟩ := exec_ends_with_clear hi hf h ht
  obtain ⟨hslotOut, hphaseOut, hcursorOut⟩ :
      (respond .audio stOk (clearAll u)).slot = (clearAll u).slot ∧
      (respond .audio stOk (clearAll u)).phase = (clearAll u).phase ∧
      (respond .audio stOk (clearAll u)).cursor = (clearAll u).cursor := ⟨rfl, rfl, rfl⟩
  have hin (ch : Nat) := channel_reads_congr (s := u) (t := s) (ch := ch) (by rw [hchans])
  have hout (ch : Nat) (hch : u.nch ≤ ch) := channel_reads_congr (clearAll_unconfigured u hch)
  simp only [respond_nch, respond_cap, clearAll_nch, clearAll_cap, hslotOut, hphaseOut, hcursorOut]
  refine ⟨fun ch hch => ?_, fun ch k hk => ?_, fun ch hch => ?_⟩
  · obtain ⟨hphase, hcursor, hbelow, -⟩ := clearAll_configured u hch
    exact ⟨hphase, hcursor, hbelow⟩
  · rcases Nat.lt_or_ge ch u.nch with hch | hch
    · obtain ⟨-, -, -, habove⟩ := clearAll_configured u hch
      exact (habove k (by omega)).trans ((hin ch).1 k)
    · exact ((hout ch hch).1 k).trans ((hin ch).1 k)
  · obtain ⟨-, hphase, hcursor⟩ := hout ch hch
    obtain ⟨-, hphase', hcursor'⟩ := hin ch
    exact ⟨hphase.trans hphase', hcursor.trans hcursor'⟩

/-- Settles O20: RESET is CLEAR, and a bank is determined by what it reads as. -/
theorem resetForgetsWhatWasProcessed : Obligations.ResetForgetsWhatWasProcessed := by
  intro a b ta tb hfa hfb hea heb hnch hcap hlen hwa hwb hslots hregs hta htb
  rw [exec_reset, execReset_prepared hfa hea] at hta
  rw [exec_reset, execReset_prepared hfb heb] at htb
  cases hta
  cases htb
  exact clearAll_chans_eq hnch hcap hlen hwa hwb hslots hregs

end Sys2Proof.Machine
end

section
/-! SUPPORT. Everything a step and a command can do, by cases with names; and from that who may write what, and what faults
(spec 20_memory.md R58; 30_encoding.md R72 to R86; 60_exceptions.md R196 to R207). -/

namespace Sys2Proof.Machine

/-! ## What a fetch can answer -/

theorem fetch_command_legal {p : Port} {w : Word} {taken : List Word} {rest left : List Input} {i : Instr}
    (h : fetch p taken (.word p w :: rest) = .command i left) : i.WellFormed ∧ i.port = p := by
  obtain ⟨ws, left', -, -, hcases⟩ := fetch_spec p w taken rest
  rw [h] at hcases
  rcases hcases with ⟨j, extra, hd, hj⟩ | ⟨-, -, hj⟩ | ⟨-, hj⟩
  · cases hj
    obtain ⟨hwf, hport, -⟩ := decodedWordsAreTheEncoding _ _ _ _ hd
    exact ⟨hwf, hport⟩
  · cases hj
  · cases hj

theorem fetch_short_incomplete {p : Port} {w : Word} {taken ws : List Word} {rest left : List Input}
    (h : fetch p taken (.word p w :: rest) = .short ws left) : decode p ws = .incomplete := by
  obtain ⟨vs, left', -, -, hcases⟩ := fetch_spec p w taken rest
  rw [h] at hcases
  rcases hcases with ⟨_, _, -, hj⟩ | ⟨_, -, hj⟩ | ⟨hd, hj⟩
  · cases hj
  · cases hj
  · cases hj
    exact hd

/-! ## Everything a command can do -/

/-- The commands of the CONTROL port (R76). -/
theorem control_command {i : Instr} (hp : i.port = .control) :
    ∃ r : ParamReg, (∃ v, i = r.setCommand v) ∨ i = r.getCommand := by
  cases i with
  | prepare | reset | process => cases hp
  | setRate v => exact ⟨.rate, .inl ⟨v, rfl⟩⟩
  | setDepth v => exact ⟨.depth, .inl ⟨v, rfl⟩⟩
  | setCentreDelay v => exact ⟨.centreDelay, .inl ⟨v, rfl⟩⟩
  | setFeedback v => exact ⟨.feedback, .inl ⟨v, rfl⟩⟩
  | setMix v => exact ⟨.mix, .inl ⟨v, rfl⟩⟩
  | getRate => exact ⟨.rate, .inr rfl⟩
  | getDepth => exact ⟨.depth, .inr rfl⟩
  | getCentreDelay => exact ⟨.centreDelay, .inr rfl⟩
  | getFeedback => exact ⟨.feedback, .inr rfl⟩
  | getMix => exact ⟨.mix, .inr rfl⟩

theorem execOn_setCommand (hw : Hardware) (r : ParamReg) (v : Word) (s : State) :
    execOn hw (r.setCommand v) s = .next (setParam r v s) := by cases r <;> rfl

theorem execOn_getCommand (hw : Hardware) (r : ParamReg) (s : State) :
    execOn hw r.getCommand s = .next (getParam r s) := by cases r <;> rfl

/-- What a CONTROL command may do to the parameters: nothing, or its own register takes the clamped value (R101, R109). -/
def ControlWrites (i : Instr) (P P' : Params) : Prop :=
  P' = P ∨ ∃ r v, i = ParamReg.setCommand v r ∧ isNan v = false ∧ P' = P.put r (clamp v r.lo r.hi)

/-- Everything a CONTROL command can do: it writes the parameters and answers, and reaches nothing else (R101, R196). -/
theorem execOn_control (hw : Hardware) {i : Instr} (hp : i.port = .control) (s : State) :
    ∃ P out, execOn hw i s = .next { s with params := P, controlOut := out } ∧ ControlWrites i s.params P := by
  obtain ⟨r, ⟨v, rfl⟩ | rfl⟩ := control_command hp
  · rw [execOn_setCommand]
    rcases setParam_cases r v s with ⟨-, h⟩ | ⟨-, -, h⟩ | ⟨-, hv, h⟩
    · exact ⟨s.params, _, by rw [h], .inl rfl⟩
    · exact ⟨s.params, _, by rw [h]; rfl, .inl rfl⟩
    · exact ⟨_, _, by rw [h]; rfl, .inr ⟨r, v, rfl, hv, rfl⟩⟩
  · rw [execOn_getCommand]
    rcases getParam_cases r s with ⟨-, h⟩ | ⟨-, h⟩ <;> exact ⟨s.params, _, by rw [h], .inl rfl⟩

/-- The outcomes of an AUDIO command outside a fault (R159, R170, R177). -/
inductive AudioMeaning (hw : Hardware) (s : State) : Instr → State → Prop
  | configured (r : BitVec 64) (m n : Int) (hok : checkCfg hw (valOfF64 (s.nan .sampleRate) r) m n = stOk) :
      AudioMeaning hw s (.prepare r m n) (respond .audio stOk (configure (valOfF64 (s.nan .sampleRate) r) m n s))
  | refused (r : BitVec 64) (m n : Int) (status : Word) :
      AudioMeaning hw s (.prepare r m n) (respond .audio status (loseConfig hw s))
  | cleared (he : s.engineState = .prepared) : AudioMeaning hw s .reset (respond .audio stOk (clearAll s))
  | resetNotPrepared (he : s.engineState = .unprepared) : AudioMeaning hw s .reset (raiseFault .audio fcNotPrepared s)
  | processNotPrepared (n : Nat) (he : s.engineState = .unprepared) :
      AudioMeaning hw s (.process n) (raiseFault .audio fcNotPrepared s)
  | tooLong (n : Nat) (he : s.engineState = .prepared) (hn : s.maxBlk.toNat < n) :
      AudioMeaning hw s (.process n) (raiseFault .audio fcBlockTooLong s)
  | started (n : Nat) (he : s.engineState = .prepared) (hn : n ≤ s.maxBlk.toNat) :
      AudioMeaning hw s (.process n) (beginBlock n (latch (respond .audio stOk s)))

theorem execOn_audio {hw : Hardware} {i : Instr} {s t : State} (hp : i.port = .audio) (hf : s.fault = false)
    (h : execOn hw i s = .next t) : AudioMeaning hw s i t := by
  have hnofault : s.fault ≠ true := by simp [hf]
  cases i with
  | prepare r m n =>
    have hcases : execPrepareOn hw r m n s = .next t := h
    rcases execPrepareOn_cases hw r m n s with ⟨hft, -⟩ | ⟨-, hok, hnext⟩ | ⟨-, -, hnext⟩
    · exact absurd hft hnofault
    · rw [hnext] at hcases; cases hcases; exact .configured r m n hok
    · rw [hnext] at hcases; cases hcases; exact .refused r m n _
  | reset =>
    have hcases : execReset s = .next t := h
    rcases execReset_cases s with ⟨hft, -⟩ | ⟨-, he, hnext⟩ | ⟨-, he, hnext⟩
    · exact absurd hft hnofault
    · rw [hnext] at hcases; cases hcases; exact .resetNotPrepared he
    · rw [hnext] at hcases; cases hcases; exact .cleared he
  | process n =>
    have hcases : execProcess n s = .next t := h
    rcases execProcess_cases n s with ⟨hft, -⟩ | ⟨-, he, hnext⟩ | ⟨-, he, hn, hnext⟩ | ⟨-, he, hn, hnext⟩
    · exact absurd hft hnofault
    · rw [hnext] at hcases; cases hcases; exact .processNotPrepared n he
    · rw [hnext] at hcases; cases hcases; exact .tooLong n he hn
    · rw [hnext] at hcases; cases hcases; exact .started n he hn
  | _ => cases hp

/-- An AUDIO command leaves the parameters and the CONTROL port alone (R196). -/
theorem AudioMeaning.control_frame {hw : Hardware} {i : Instr} {s t : State} (h : AudioMeaning hw s i t) :
    t.params = s.params ∧ t.controlTaken = s.controlTaken ∧ t.controlOut = s.controlOut := by
  cases h <;> exact ⟨rfl, rfl, rfl⟩

/-! ## Everything a step can do -/

/-- The outcomes of one step that gives a next state (R58, R86). -/
inductive StepTo (hw : Hardware) (s : State) : State → Prop
  | idle (hin : s.inputs = []) : StepTo hw s s
  | powerOn (rest : List Input) (hin : s.inputs = .powerOn :: rest) : StepTo hw s (powerOn hw rest s)
  | discard (p : Port) (w : Word) (rest : List Input) (hin : s.inputs = .word p w :: rest) (hf : s.fault = true) :
      StepTo hw s (discardWord p { s with inputs := rest })
  | sample (w : Word) (rest : List Input) (t : State) (hin : s.inputs = .word .audio w :: rest) (hf : s.fault = false)
      (hrun : s.blockRunning = true) (ht : sampleStep hw w { s with inputs := rest } = .next t) : StepTo hw s t
  | audioCommand (i : Instr) (w : Word) (rest left : List Input) (t : State) (hin : s.inputs = .word .audio w :: rest)
      (hf : s.fault = false) (hrun : s.blockRunning = false)
      (hfetch : fetch .audio s.audioTaken s.inputs = .command i left) (hwf : i.WellFormed)
      (ht : AudioMeaning hw (State.setTaken .audio [] { s with inputs := left }) i t) : StepTo hw s t
  | control (i : Instr) (P : Params) (out : List Word) (w : Word) (rest left : List Input)
      (hin : s.inputs = .word .control w :: rest) (hf : s.fault = false)
      (hfetch : fetch .control s.controlTaken s.inputs = .command i left) (hwrites : ControlWrites i s.params P) :
      StepTo hw s { State.setTaken .control [] { s with inputs := left } with params := P, controlOut := out }
  | illegal (p : Port) (w : Word) (rest left : List Input) (hin : s.inputs = .word p w :: rest) (hf : s.fault = false)
      (hrun : p = .audio → s.blockRunning = false) (hfetch : fetch p (s.taken p) s.inputs = .illegal left) :
      StepTo hw s (raiseFault p fcIllegalCmd (State.setTaken p [] { s with inputs := left }))
  | short (p : Port) (w : Word) (rest left : List Input) (ws : List Word) (hin : s.inputs = .word p w :: rest)
      (hf : s.fault = false) (hrun : p = .audio → s.blockRunning = false)
      (hfetch : fetch p (s.taken p) s.inputs = .short ws left) (hd : decode p ws = .incomplete) :
      StepTo hw s (State.setTaken p ws { s with inputs := left })

theorem stepOn_next {hw : Hardware} {s t : State} (h : stepOn hw s = .next t) : StepTo hw s t := by
  rcases stepOn_cases hw s with ⟨hin, hs⟩ | ⟨rest, hin, hs⟩ | ⟨p, w, rest, hin, hf, hs⟩ |
    ⟨w, rest, hin, hf, hrun, hs⟩ | ⟨p, w, rest, hin, hf, hsample, hs⟩ <;> rw [hs] at h
  · cases h; exact .idle hin
  · cases h; exact .powerOn rest hin
  · cases h; exact .discard p w rest hin hf
  · exact .sample w rest t hin hf hrun h
  · have hrun : p = .audio → s.blockRunning = false := fun hp => by simpa [hp] using hsample
    unfold commandStep at h
    split at h
    · next i left hfetch =>
      obtain ⟨hwf, hport⟩ := fetch_command_legal (hin ▸ hfetch)
      cases p with
      | audio => exact .audioCommand i w rest left t hin hf (hrun rfl) hfetch hwf (execOn_audio hport hf h)
      | control =>
        obtain ⟨P, out, hexec, hwrites⟩ := execOn_control hw hport (State.setTaken .control [] { s with inputs := left })
        cases hexec.symm.trans h
        exact .control i P out w rest left hin hf hfetch hwrites
    · next left hfetch => cases h; exact .illegal p w rest left hin hf hrun hfetch
    · next ws left hfetch =>
      cases h
      exact .short p w rest left ws hin hf hrun hfetch (fetch_short_incomplete (hin ▸ hfetch))

/-! ## Who may write what -/

/-- Everything a word of the CONTROL port can do: it never stops the engine, and the AUDIO side is as before (R196). -/
theorem stepOn_control (hw : Hardware) {s : State} {w : Word} {rest : List Input} (hin : s.inputs = .word .control w :: rest) :
    ∃ P taken out ins fault code, stepOn hw s = .next { s with
      params := P, controlTaken := taken, controlOut := out, inputs := ins, fault := fault, faultCode := code } := by
  cases hf : s.fault with
  | true => exact ⟨_, _, _, _, s.fault, _, stepOn_faulted_word hw hf hin⟩
  | false =>
    rw [stepOn_command hf (by simp) hin, commandStep, hin]
    cases hfetch : fetch .control (s.taken .control) (.word .control w :: rest) with
    | command i left =>
      obtain ⟨P, out, hexec, -⟩ := execOn_control hw (fetch_command_legal hfetch).2
        (State.setTaken .control [] { s with inputs := left })
      exact ⟨_, _, _, _, s.fault, _, hexec⟩
    | illegal left => exact ⟨_, _, _, _, _, _, rfl⟩
    | short ws left => exact ⟨_, _, _, _, s.fault, _, rfl⟩

/-- The next place in the block, as an equation of states (R161, R165). -/
theorem advanceBlock_eq (s : State) :
    advanceBlock s = { s with
      smpIdx := if s.smpIdx + 1 < s.blkN then s.smpIdx + 1 else 0
      chIdx := if s.smpIdx + 1 < s.blkN then s.chIdx else s.chIdx + 1
      blockRunning := if s.smpIdx + 1 < s.blkN then s.blockRunning else decide (s.chIdx + 1 < s.nch) } := by
  unfold advanceBlock
  split <;> rfl

/-- A sample writes its channel, the AUDIO stream and the block counters; it reaches nothing else (R156, R196). -/
theorem sampleStep_frame {hw : Hardware} {w : Word} {s t : State} (h : sampleStep hw w s = .next t) :
    ∃ chans out count ch k run, t = { s with
      chans := chans, audioOut := out, freeCount := count, chIdx := ch, smpIdx := k, blockRunning := run } := by
  obtain ⟨c, c', y, -, -, -, rfl⟩ := sampleStep_next h
  rw [advanceBlock_eq]
  exact ⟨_, _, _, _, _, _, rfl⟩

/-! ## The statements on the two ports -/

/-- Settles O43: the equation of states of a CONTROL word. -/
theorem controlPortCannotReachTheAudioSide : Obligations.ControlPortCannotReachTheAudioSide := by
  intro s t w rest hin h
  obtain ⟨P, taken, out, ins, fault, code, hstep⟩ := stepOn_control defaultHardware hin
  cases hstep.symm.trans h
  simp

/-- Settles O44: by the outcomes of a step at an AUDIO word. -/
theorem audioPortCannotWriteTheParameters : Obligations.AudioPortCannotWriteTheParameters := by
  intro s t w rest hin h
  have hport {p : Port} {w' : Word} {rest' : List Input} (hin' : s.inputs = .word p w' :: rest') : p = .audio := by
    rw [hin] at hin'; cases hin'; rfl
  cases stepOn_next h with
  | idle => exact ⟨rfl, rfl, rfl⟩
  | powerOn rest' hin' => rw [hin] at hin'; cases hin'
  | discard p w' rest' hin' => cases hport hin'; exact ⟨rfl, rfl, rfl⟩
  | sample w' rest' _ _ _ _ ht =>
    obtain ⟨_, _, _, _, _, _, rfl⟩ := sampleStep_frame ht
    exact ⟨rfl, rfl, rfl⟩
  | audioCommand i w' rest' left _ _ _ _ _ _ ht => exact ht.control_frame
  | control i P out w' rest' left hin' => cases hport hin'
  | illegal p w' rest' left hin' => cases hport hin'; exact ⟨rfl, rfl, rfl⟩
  | short p w' rest' left ws hin' => cases hport hin'; exact ⟨rfl, rfl, rfl⟩

/-- Settles O45: of all that a step can do, only a SET writes a parameter register, and only its own. -/
theorem parametersChangeOnlyByTheirSet : Obligations.ParametersChangeOnlyByTheirSet := by
  intro r s t h hne
  cases stepOn_next h with
  | idle => exact absurd rfl hne
  | powerOn rest hin => exact .inl ⟨rest, hin⟩
  | discard p => cases p <;> exact absurd rfl hne
  | sample w rest _ _ _ _ ht =>
    obtain ⟨_, _, _, _, _, _, rfl⟩ := sampleStep_frame ht
    exact absurd rfl hne
  | illegal p => simp at hne
  | short p => simp at hne
  | audioCommand i w rest left _ _ _ _ _ _ ht =>
    obtain ⟨hparams, -, -⟩ := ht.control_frame
    exact absurd (congrArg _ hparams) hne
  | control i P out w rest left _ _ hfetch hwrites =>
    rcases hwrites with rfl | ⟨q, v, rfl, -, rfl⟩
    · exact absurd rfl hne
    · obtain rfl : r = q := by
        by_contra hrq
        exact hne (Params.get_put_other hrq _ _)
      exact .inr ⟨v, left, hfetch⟩

/-- Settles O46: of all that a step can do, only PREPARE writes `ENGINE_STATE`. -/
theorem engineStateChangesOnlyByPrepare : Obligations.EngineStateChangesOnlyByPrepare := by
  intro s t h hne
  cases stepOn_next h with
  | idle => exact absurd rfl hne
  | powerOn rest hin => exact .inl ⟨rest, hin⟩
  | discard p => cases p <;> exact absurd rfl hne
  | sample w rest _ _ _ _ ht =>
    obtain ⟨_, _, _, _, _, _, rfl⟩ := sampleStep_frame ht
    exact absurd rfl hne
  | illegal p => simp at hne
  | short p => simp at hne
  | audioCommand i w rest left _ _ _ _ hfetch _ ht =>
    cases ht with
    | configured r m n => exact .inr ⟨r, m, n, left, hfetch⟩
    | refused r m n => exact .inr ⟨r, m, n, left, hfetch⟩
    | _ => exact absurd rfl hne
  | control => exact absurd rfl hne

/-! ## The open parameters -/

/-- Only PREPARE among the commands looks at the hardware (R8). -/
theorem commandStep_eq {p : Port} {s : State} {w : Word} {rest : List Input} (hin : s.inputs = .word p w :: rest)
    (hprep : ∀ r m n left, fetch .audio s.audioTaken s.inputs ≠ .command (.prepare r m n) left) (hw : Hardware) :
    commandStep hw p s = commandStep defaultHardware p s := by
  unfold commandStep
  cases hfetch : fetch p (s.taken p) s.inputs with
  | command i left =>
    have hop : i.op ≠ .prepare := by
      intro hop
      cases i <;> cases hop
      obtain ⟨-, hport⟩ := fetch_command_legal (hin ▸ hfetch)
      subst hport
      exact hprep _ _ _ _ hfetch
    simp only [execOn_eq_exec _ hop]
  | illegal | short => rfl

/-- Settles O48: power-on and the ticks are excluded, and of the commands only PREPARE differs. -/
theorem onlyThreeThingsReadTheOpenParameters : Obligations.OnlyThreeThingsReadTheOpenParameters := by
  intro hw s hpower htick hprep
  unfold step
  rcases hin : s.inputs with _ | ⟨⟨p, w⟩ | _, rest⟩
  · simp only [stepOn, hin]
  · cases hf : s.fault with
    | true => rw [stepOn_faulted_word hw hf hin, stepOn_faulted_word defaultHardware hf hin]
    | false =>
      have hrun : p = .audio → s.blockRunning = false := by
        rintro rfl
        by_contra hrun
        exact htick hf (Bool.eq_true_of_not_eq_false hrun) w rest hin
      rw [stepOn_command hf hrun hin, stepOn_command hf hrun hin]
      exact commandStep_eq hin hprep hw
  · exact absurd hin (hpower rest)

/-! ## Faults -/

/-- Settles O21: fault entry is an answer and the flags, and RESET and PROCESS end in it when their checks fail. -/
theorem faultEntryChangesNothingElse : Obligations.FaultEntryChangesNothingElse := by
  refine ⟨fun code s => ⟨rfl, rfl⟩, fun n s hf he => ⟨?_, ?_⟩, fun n s hf he hn => ?_⟩
  · rw [exec_reset, execReset, if_neg (by simp [hf]), if_pos he]
    rfl
  · rw [exec_process, execProcess, if_neg (by simp [hf]), if_pos he]
    rfl
  · rw [exec_process, execProcess, if_neg (by simp [hf]), if_neg (by simp [he]), if_pos hn]
    rfl

/-- Settles O23: of all that a step can do, the listed causes are those that end in fault entry. -/
theorem onlyTheListedCausesFault : Obligations.OnlyTheListedCausesFault := by
  intro s t h hsf htf
  have hclear : ∀ u : State, u.fault = s.fault → ¬ u.fault = true := fun u hu => by simp [hu, hsf]
  cases stepOn_next h with
  | idle => exact absurd htf (hclear _ rfl)
  | powerOn rest hin => cases htf
  | discard p w rest hin hf => simp [hf] at hsf
  | sample w rest _ _ _ _ ht =>
    obtain ⟨_, _, _, _, _, _, rfl⟩ := sampleStep_frame ht
    exact absurd htf (hclear _ rfl)
  | illegal p w rest left hin hf _ hfetch => exact .inl ⟨p, left, hfetch, raiseFault_faultCode p _ (by simpa using hsf)⟩
  | short p => exact absurd htf (hclear _ (by simp))
  | audioCommand i w rest left _ _ hf _ hfetch _ ht =>
    cases ht with
    | configured | refused | cleared | started => exact absurd htf (hclear _ rfl)
    | resetNotPrepared he => exact .inr (.inl ⟨left, hfetch, he, raiseFault_faultCode .audio _ hf⟩)
    | processNotPrepared n he => exact .inr (.inr (.inl ⟨n, left, hfetch, he, raiseFault_faultCode .audio _ hf⟩))
    | tooLong n he hn => exact .inr (.inr (.inr ⟨n, left, hfetch, he, hn, raiseFault_faultCode .audio _ hf⟩))
  | control => exact absurd htf (hclear _ rfl)

theorem stepOn_idle {hw : Hardware} {s : State} (hin : s.inputs = []) : stepOn hw s = .next s := by
  simp only [stepOn, hin]

/-- A run of a faulted engine without power-on: each step discards one word, or idles (R205). -/
theorem runStepsOn_faulted (hw : Hardware) (k : Nat) (s : State) (hf : s.fault = true) (hpower : Input.powerOn ∉ s.inputs) :
    runStepsOn hw k s = .next { s with
      inputs := s.inputs.drop k
      audioOut := s.audioOut ++ List.replicate ((s.inputs.take k).countP (Input.isOn .audio)) fcFaulted
      controlOut := s.controlOut ++ List.replicate ((s.inputs.take k).countP (Input.isOn .control)) fcFaulted } := by
  induction k generalizing s with
  | zero => simp
  | succ k ih =>
    rcases hin : s.inputs with _ | ⟨⟨p, w⟩ | _, rest⟩
    · rw [runStepsOn_succ (stepOn_idle hin), ih s hf hpower]
      simp [hin]
    · have hrest : Input.powerOn ∉ rest := by rw [hin] at hpower; simpa using hpower
      have hdiscard : (discardWord p { s with inputs := rest }).inputs = rest := by simp [discardWord]
      rw [runStepsOn_succ (stepOn_faulted_word hw hf hin), ih _ (by simpa [discardWord] using hf) (by rwa [hdiscard])]
      cases p <;> simp [discardWord, respond, Input.isOn, List.replicate_succ]
    · simp [hin] at hpower

/-- Settles O25: a run of the machine is one on the default hardware. -/
theorem faultIsForGood : Obligations.FaultIsForGood := fun k s hf hpower => runStepsOn_faulted defaultHardware k s hf hpower

/-- A whole command in a fault: one answer for each of its words (R85, R180). -/
theorem exec_of_fault (i : Instr) {s : State} (hf : s.fault = true) :
    exec i s = .next (discardWords i.port (encode i).length s) := by
  cases i with
  | prepare r m n =>
    rw [exec_prepare, execPrepare, execPrepareOn]
    simp only [hf, if_true]
    rfl
  | reset => rw [exec_reset, execReset, if_pos hf]; rfl
  | process n => rw [exec_process, execProcess, if_pos hf]; rfl
  | _ => simp only [exec, execSetRate, execSetDepth, execSetCentreDelay, execSetFeedback, execSetMix, execGetRate, execGetDepth,
      execGetCentreDelay, execGetFeedback, execGetMix, setParam, getParam, hf, if_true]; rfl

/-- Settles O26: the encoder's words are as many as the answers. -/
theorem faultedCommandIsAnsweredWordByWord : Obligations.FaultedCommandIsAnsweredWordByWord := by
  refine fun i s hf => ⟨fun hp => ?_, fun hp => ?_⟩
  · rw [exec_of_fault i hf, hp, discardWords_audio]
    rfl
  · rw [exec_of_fault i hf, hp, discardWords_control]
    rfl

/-! ## Power-on -/

/-- Settles O49: power-on is the reset state of the hardware, but for what is still to arrive. -/
theorem powerOnGivesTheSpecifiedValues : Obligations.PowerOnGivesTheSpecifiedValues := by
  intro hw s rest hin
  have hstep : stepOn hw s = .next (powerOn hw rest s) := by simp only [stepOn, hin]
  refine ⟨rfl, _, hstep, rfl, ?_⟩
  rintro u (rfl | rfl)
  · exact ⟨rfl, rfl, rfl, rfl, rfl, rfl, rfl, rfl, rfl, rfl, rfl⟩
  · exact ⟨rfl, rfl, rfl, rfl, rfl, rfl, rfl, rfl, rfl, rfl, rfl⟩

end Sys2Proof.Machine
end

section
/-! SUPPORT. PROCESS and the tick of one sample (spec 42_delay_line.md R131 to R138, 43_mixer_pipeline.md R150 to R165). -/

namespace Sys2Proof.Machine

/-! ## The parts of a tick -/

/-- A delay inside the buffer has an integer part that is a slot distance (R132). -/
theorem dlSplit_inside {nan : NanSite → Val} {cap : Nat} {d : Val} (hfin : isFinite d = true) (hneg : flt d posZero = false)
    (hcap : natOf (ffloor d) < cap) : dlSplit nan cap d = some (natOf (ffloor d), fsub (nan .split) d (ffloor d)) := by
  have hspecified : (isFinite d && !flt d posZero && decide (natOf (ffloor d) < cap)) = true := by
    rw [hfin, hneg, decide_eq_true hcap]; rfl
  unfold dlSplit
  exact if_pos hspecified

/-- The read at a split delay, with both taps (R133). -/
theorem fracRead_of_split {nan : NanSite → Val} {cap i : Nat} {d f : Val} (h : dlSplit nan cap d = some (i, f)) (c : Channel) :
    fracRead nan cap c d = some (lerp nan (Memory.read c.dl (slotBehind cap c.cursor i))
      (Memory.read c.dl (slotBehind cap c.cursor (i + 1))) f) := by
  unfold fracRead
  rw [h]

/-- A tick that stays in its channel's address space (R156). -/
theorem tickChannel_of_read {wave : Val → Val} {offset : Val} {nan : NanSite → Val} {snap : Params} {inc sr : Val} {cap : Nat}
    {c : Channel} {w : Val}
    (hread : fracRead nan cap c (dclamp cap (delayCalc nan snap sr (oscValue wave offset nan c.phase))) = some w)
    (hcursor : c.cursor < cap) (x : Val) :
    tickChannel wave offset nan snap inc sr cap c x =
      some (oscAdvance nan inc (cursorAdvance cap (fbWrite nan snap.feedback x w c)), mixOut nan snap.mix x w) := by
  unfold tickChannel
  dsimp only
  rw [hread]
  exact if_pos hcursor

/-- A sample word whose tick stays in the address space (R159). -/
theorem sampleStep_of_tick {hw : Hardware} {w : Word} {s : State} {c c' : Channel} {y : Val} (hc : s.chans[s.chIdx]? = some c)
    (hch : s.chIdx < s.nch)
    (htick : tickChannel hw.wave (hw.phaseOffset s.chIdx) s.nan s.snapshot s.inc s.sr s.cap c w = some (c', y)) :
    sampleStep hw w s = .next (advanceBlock (respond .audio y
      { s with chans := s.chans.set s.chIdx c', freeCount := s.freeCount + 1 })) := by
  simp only [sampleStep, hc, if_pos hch, htick]

/-- In a running block an AUDIO word is a sample (R159). -/
theorem stepOn_sample (hw : Hardware) {s : State} {x : Word} {rest : List Input} (hf : s.fault = false)
    (hrun : s.blockRunning = true) (hin : s.inputs = .word .audio x :: rest) :
    stepOn hw s = sampleStep hw x { s with inputs := rest } := by
  simp [stepOn, hin, hf, hrun]

/-! ## The circular index as the cursor moves -/

/-- A slot is one position further behind the cursor when the cursor has moved on (R134, R138). -/
theorem slotBehind_cursor_succ (cap cursor k : Nat) :
    slotBehind cap ((cursor + 1) % cap) (k + 1) = slotBehind cap cursor k := by
  unfold slotBehind
  congr 1
  push_cast
  rw [Int.emod_sub_emod]
  congr 1
  ring

/-- Less than a whole turn behind the cursor is another slot than the cursor's. -/
theorem slotBehind_ne_cursor {cap cursor k : Nat} (hcursor : cursor < cap) (hk : 0 < k) (hkcap : k < cap) :
    slotBehind cap cursor k ≠ cursor := by
  intro heq
  have hmod := slotBehind_eq_emod (by omega : 0 < cap) cursor k
  rw [heq] at hmod
  have hself : (cursor : Int) % cap = cursor := Int.emod_eq_of_lt (by omega) (by omega)
  have hdvd : (cap : Int) ∣ (cursor - k : Int) - cursor := Int.emod_eq_emod_iff_emod_sub_eq_zero.mp (hmod.symm.trans hself.symm)
    |> Int.dvd_of_emod_eq_zero
  rw [show (cursor - k : Int) - cursor = -k by ring, Int.dvd_neg, Int.natCast_dvd_natCast] at hdvd
  exact absurd (Nat.le_of_dvd hk hdvd) (by omega)

/-! ## What a tick leaves -/

/-- The channels after a sample: the current one as its tick leaves it, the others as before (R156). -/
theorem sampleStep_channels {hw : Hardware} {x : Word} {s t : State} (h : sampleStep hw x s = .next t) :
    ∃ c c' v, s.chans[s.chIdx]? = some c ∧ t.chans = s.chans.set s.chIdx c' ∧ t.chans[s.chIdx]? = some c' ∧
      c.cursor < s.cap ∧ c'.cursor = (c.cursor + 1) % s.cap ∧ c'.dl = Memory.write c.dl c.cursor v ∧
      c'.phase = wrap1 (s.nan .phaseWrap) (fadd (s.nan .phaseSum) c.phase s.inc) := by
  obtain ⟨c, c', y, hc, -, htick, rfl⟩ := sampleStep_next h
  obtain ⟨w, -, hcursor, hdl, hcursor', hphase, -⟩ := tickChannel_some htick
  have hlen : s.chIdx < s.chans.length := (List.getElem?_eq_some_iff.mp hc).1
  refine ⟨c, c', _, hc, by simp, ?_, hcursor, hcursor', hdl, hphase⟩
  simp [List.getElem?_set_self hlen]

/-- A sample leaves every other channel alone (R29). -/
theorem sampleStep_other_channel {hw : Hardware} {x : Word} {s t : State} (h : sampleStep hw x s = .next t) {ch : Nat}
    (hch : ch ≠ s.chIdx) : t.chans[ch]? = s.chans[ch]? := by
  obtain ⟨c, c', v, -, hchans, -⟩ := sampleStep_channels h
  rw [hchans, List.getElem?_set_ne (Ne.symm hch)]

/-- A sample stores to one slot (R51). -/
theorem sampleStep_slot {hw : Hardware} {x : Word} {s t : State} (h : sampleStep hw x s = .next t) {ch k : Nat}
    (hne : ch ≠ s.chIdx ∨ k ≠ s.cursor s.chIdx) : t.slot ch k = s.slot ch k := by
  by_cases hch : ch = s.chIdx
  · subst hch
    obtain ⟨c, c', v, hc, -, hc', -, -, hdl, -⟩ := sampleStep_channels h
    have hk : k ≠ c.cursor := by rw [cursor_of_getElem? hc] at hne; simpa using hne
    rw [slot_of_getElem? hc', slot_of_getElem? hc, hdl, Memory.read_write_other _ _ hk]
  · exact (channel_reads_congr (sampleStep_other_channel h hch)).1 k

/-- The cursor of the current channel moves on by one slot (R138). -/
theorem sampleStep_cursor {hw : Hardware} {x : Word} {s t : State} (h : sampleStep hw x s = .next t) :
    s.cursor s.chIdx < s.cap ∧ t.cursor s.chIdx = (s.cursor s.chIdx + 1) % s.cap := by
  obtain ⟨c, c', v, hc, -, hc', hcursor, hcursor', -, -⟩ := sampleStep_channels h
  rw [cursor_of_getElem? hc, cursor_of_getElem? hc']
  exact ⟨hcursor, hcursor'⟩

/-! ## The statements -/

/-- Settles O27: the last branch of PROCESS, with the latch and the counters written out. -/
theorem processLatchesAndStartsTheBlock : Obligations.ProcessLatchesAndStartsTheBlock := by
  intro n s hf he hn
  have hstart : execProcess n s = .next (beginBlock n (latch (respond .audio stOk s))) := by
    simp [execProcess, hf, he, not_lt.mpr hn]
  rw [exec_process, hstart]
  rfl

/-- Settles O28: the read is inside the buffer, so the tick runs to its end; then the counters advance. -/
theorem sampleTickFollowsThePipeline : Obligations.SampleTickFollowsThePipeline := by
  intro hw s x rest c osc d w v y hf hrun hin hc hch hcursor hosc hd hfin hneg hcap hwet hv hy
  have hdelay : dclamp s.cap (delayCalc s.nan s.snapshot s.sr (oscValue hw.wave (hw.phaseOffset s.chIdx) s.nan c.phase)) = d := by
    rw [hd, hosc]; rfl
  have hread : fracRead s.nan s.cap c d = some w := by
    rw [fracRead_of_split (dlSplit_inside hfin hneg hcap), hwet]; rfl
  have hout : mixOut s.nan s.snapshot.mix x w = y := by rw [hy]; rfl
  have hstored : fbValue s.nan s.snapshot.feedback x w = v := by rw [hv]; rfl
  have htick := tickChannel_of_read (wave := hw.wave) (offset := hw.phaseOffset s.chIdx) (inc := s.inc)
    (hdelay.symm ▸ hread) hcursor x
  rw [stepOn_sample hw hf hrun hin, sampleStep_of_tick (s := { s with inputs := rest }) hc hch htick, advanceBlock_eq,
    hout, fbWrite, hstored]
  by_cases hlast : s.smpIdx + 1 < s.blkN <;> simp [respond, oscAdvance, cursorAdvance, hlast, hrun]

/-- Settles O29: the store goes to the current channel's bank, at its cursor. -/
theorem tickWritesOneSlotOfItsChannel : Obligations.TickWritesOneSlotOfItsChannel := by
  intro hw s t x rest hf hrun hin h
  rw [stepOn_sample hw hf hrun hin] at h
  refine ⟨fun ch k hne => sampleStep_slot h hne, fun ch hch => ?_, ?_⟩
  · obtain ⟨-, hphase, hcursor⟩ := channel_reads_congr (sampleStep_other_channel h hch)
    exact ⟨hphase, hcursor⟩
  · obtain ⟨c, c', y, -, -, -, rfl⟩ := sampleStep_next h
    simp

/-- Settles O30: the cursor has moved on by one, and the slot read is not the one written. -/
theorem eachTickMovesTheHistoryOneBack : Obligations.EachTickMovesTheHistoryOneBack := by
  intro hw s t x rest hf hrun hin h
  rw [stepOn_sample hw hf hrun hin] at h
  have hmoved := sampleStep_cursor h
  obtain ⟨hcursor, hnext⟩ : s.cursor s.chIdx < s.cap ∧ t.cursor s.chIdx = (s.cursor s.chIdx + 1) % s.cap := hmoved
  rw [hnext]
  refine ⟨(slotBehind_cursor_succ _ _ 0).trans (slotBehind_zero hcursor), fun k hk hkcap => ?_⟩
  rw [slotBehind_cursor_succ]
  exact sampleStep_slot h (.inr (slotBehind_ne_cursor hcursor hk hkcap))

/-- Settles O31: the tick's arguments are none of the live parameters. -/
theorem tickIgnoresTheLiveParameters : Obligations.TickIgnoresTheLiveParameters := by
  intro hw s t P x rest hf hrun hin h
  rw [stepOn_sample hw hf hrun hin] at h
  obtain ⟨c, c', y, hc, hch, htick, rfl⟩ := sampleStep_next h
  rw [stepOn_sample hw (s := { s with params := P }) hf hrun hin,
    sampleStep_of_tick (s := { s with params := P, inputs := rest }) hc hch htick, advanceBlock_eq, advanceBlock_eq]
  rfl

/-- Settles O32: the tick's arguments are of the current channel, and its result is stored there. -/
theorem ticksOfOneChannelIgnoreTheOthers : Obligations.TicksOfOneChannelIgnoreTheOthers := by
  intro hw s t ch d x rest hne hf hrun hin h
  rw [stepOn_sample hw hf hrun hin] at h
  obtain ⟨c, c', y, hc, hch, htick, rfl⟩ := sampleStep_next h
  have hc' : (s.chans.set ch d)[s.chIdx]? = some c := (List.getElem?_set_ne hne).trans hc
  have hcomm : (s.chans.set ch d).set s.chIdx c' = (s.chans.set s.chIdx c').set ch d := List.set_comm _ _ hne
  rw [stepOn_sample hw (s := { s with chans := s.chans.set ch d }) hf hrun hin,
    sampleStep_of_tick (s := { s with chans := s.chans.set ch d, inputs := rest }) hc' hch htick, advanceBlock_eq,
    advanceBlock_eq, hcomm]
  rfl

end Sys2Proof.Machine
end

section
/-! SUPPORT. Rounding against exact rational values: which results one rounding of a rational number can give, that they are
ordered as the numbers are, and which numbers are values (spec 00_scope.md R12 to R14). -/

namespace Sys2Proof.Machine

/-! ## Exact values -/

/-- A number with a sign bit. -/
def signed (neg : Bool) (x : Rat) : Rat := if neg then -x else x

theorem signed_mul (neg neg' : Bool) (x y : Rat) : signed neg x * signed neg' y = signed (neg != neg') (x * y) := by
  cases neg <;> cases neg' <;> simp [signed]

theorem signed_div (neg neg' : Bool) (x y : Rat) : signed neg x / signed neg' y = signed (neg != neg') (x / y) := by
  cases neg <;> cases neg' <;> simp [signed, neg_div, div_neg]

theorem signed_mul_right (neg : Bool) (x y : Rat) : signed neg x * y = signed neg (x * y) := by
  cases neg <;> simp [signed]

theorem units_pos : (0 : Rat) < unitsPerOne := by exact_mod_cast unitsPerOne_pos

theorem ratOf_mul_units (a : Val) : ratOf a * unitsPerOne = toUnits a := div_mul_cancel₀ _ units_pos.ne'

theorem toUnits_cast (a : Val) : (toUnits a : Rat) = signed (signBit a) (magUnits a) := by
  unfold toUnits signed
  split <;> simp

theorem ratOf_eq_signed (a : Val) : ratOf a = signed (signBit a) (magUnits a / unitsPerOne) := by
  rw [ratOf, toUnits_cast, div_eq_mul_inv, signed_mul_right, ← div_eq_mul_inv]

theorem ratOf_le_iff {a b : Val} : ratOf a ≤ ratOf b ↔ toUnits a ≤ toUnits b := by
  rw [← mul_le_mul_iff_of_pos_right units_pos, ratOf_mul_units, ratOf_mul_units, Int.cast_le]

theorem ratOf_eq_iff {a b : Val} : ratOf a = ratOf b ↔ toUnits a = toUnits b := by
  rw [← mul_left_inj' units_pos.ne', ratOf_mul_units, ratOf_mul_units, Int.cast_inj]

theorem fle_iff_ratOf {a b : Val} : fle a b = true ↔ isNan a = false ∧ isNan b = false ∧ ratOf a ≤ ratOf b := by
  rw [fle_iff, ratOf_le_iff]

theorem ratOf_nonneg_iff {a : Val} : 0 ≤ ratOf a ↔ 0 ≤ toUnits a := by
  rw [← mul_nonneg_iff_of_pos_right units_pos, ratOf_mul_units, Int.cast_nonneg_iff]

theorem toUnits_eq_zero {a : Val} : toUnits a = 0 ↔ isZero a = true := by
  rw [← Int.natAbs_eq_zero, toUnits_natAbs, magUnits_eq_zero]

theorem ratOf_eq_zero {a : Val} : ratOf a = 0 ↔ isZero a = true := by
  rw [← mul_eq_zero_iff_right units_pos.ne', ratOf_mul_units, Int.cast_eq_zero, toUnits_eq_zero]

theorem ratOf_fneg (a : Val) : ratOf (fneg a) = -ratOf a := by
  rw [ratOf, ratOf, fneg_toUnits, Int.cast_neg, neg_div]

theorem isFinite_fneg (a : Val) : isFinite (fneg a) = isFinite a := by simp only [isFinite, fneg_magBits]

/-- The magnitudes are ordered as the magnitude bits are, so one no larger than a finite one is finite. -/
theorem finite_of_magUnits_le {a b : Val} (hb : isFinite b = true) (h : magUnits a ≤ magUnits b) : isFinite a = true := by
  rw [magUnits_eq, magUnits_eq, unitsOfMag_le_iff] at h
  exact isFinite_iff.mpr (h.trans_lt (isFinite_iff.mp hb))

/-- The sign bit of a value other than a zero is the sign of its exact value. -/
theorem signBit_eq_decide {a : Val} (hz : isZero a = false) : signBit a = decide (toUnits a < 0) := by
  have hpos : 0 < magUnits a := Nat.pos_of_ne_zero fun h0 => by simp [magUnits_eq_zero.mp h0] at hz
  unfold toUnits
  cases signBit a <;> simp [hpos]

/-- Two values with one exact value are the same, unless they are zeros. -/
theorem eq_of_toUnits_eq {a b : Val} (h : toUnits a = toUnits b) (hz : isZero b = false) : a = b := by
  have hza : isZero a = false := by rw [← hz, Bool.eq_iff_iff, ← toUnits_eq_zero, ← toUnits_eq_zero, h]
  have hsign : signBit a = signBit b := by rw [signBit_eq_decide hza, signBit_eq_decide hz, h]
  have hmag : magUnits a = magUnits b := by rw [← toUnits_natAbs, ← toUnits_natAbs, h]
  rw [magUnits_eq, magUnits_eq] at hmag
  exact val_ext hsign (unitsOfMag_inj hmag)

theorem isNan_eq_of_toUnits_eq {a b : Val} (h : toUnits a = toUnits b) : isNan a = isNan b := by
  have hmag : magUnits a = magUnits b := by rw [← toUnits_natAbs, ← toUnits_natAbs, h]
  rw [magUnits_eq, magUnits_eq] at hmag
  simp only [isNan, unitsOfMag_inj hmag]

/-! ## One rounding of a rational number -/

/-- `v` is the rational number `q` rounded once (R13). -/
def RoundsTo (q : Rat) (v : Val) : Prop :=
  ∃ (neg : Bool) (num den : Nat), 0 < den ∧ v = roundVal neg num den ∧ q * unitsPerOne = signed neg ((num : Rat) / den)

theorem RoundsTo.not_nan {q : Rat} {v : Val} (h : RoundsTo q v) : isNan v = false := by
  obtain ⟨neg, num, den, -, rfl, -⟩ := h
  exact isNan_roundVal neg num den

theorem toUnits_roundVal (neg : Bool) (num den : Nat) :
    (toUnits (roundVal neg num den) : Rat) = signed neg (unitsOfMag (roundMag num den)) := by
  rw [toUnits_cast, signBit_roundVal, magUnits_eq, magBits_roundVal]

theorem unitsOfMag_roundMag_mono {x d y e : Nat} (hd : 0 < d) (he : 0 < e) (h : (x : Rat) / d ≤ (y : Rat) / e) :
    (unitsOfMag (roundMag x d) : Rat) ≤ unitsOfMag (roundMag y e) := by
  rw [div_le_div_iff₀ (by exact_mod_cast hd) (by exact_mod_cast he)] at h
  exact_mod_cast unitsOfMag_le_iff.mpr (roundMag_mono hd he (by exact_mod_cast h))

/-- Rounding is monotone (N4 of R14). -/
theorem RoundsTo.mono {q r : Rat} {v w : Val} (hv : RoundsTo q v) (hw : RoundsTo r w) (hqr : q ≤ r) : fle v w = true := by
  refine fle_iff.mpr ⟨hv.not_nan, hw.not_nan, ?_⟩
  obtain ⟨neg, num, den, hden, rfl, hq⟩ := hv
  obtain ⟨neg', num', den', hden', rfl, hr⟩ := hw
  have hle : signed neg ((num : Rat) / den) ≤ signed neg' ((num' : Rat) / den') := by
    rw [← hq, ← hr]
    exact mul_le_mul_of_nonneg_right hqr units_pos.le
  have hnum : 0 ≤ (num : Rat) / den := by positivity
  have hnum' : 0 ≤ (num' : Rat) / den' := by positivity
  have hmag : (0 : Rat) ≤ unitsOfMag (roundMag num den) := Nat.cast_nonneg _
  have hmag' : (0 : Rat) ≤ unitsOfMag (roundMag num' den') := Nat.cast_nonneg _
  have hzero (n d : Nat) (hd : 0 < d) (h : (n : Rat) / d ≤ 0) : (unitsOfMag (roundMag n d) : Rat) ≤ 0 := by
    simpa [roundMag_zero] using unitsOfMag_roundMag_mono (y := 0) (e := 1) hd one_pos (by simpa using h)
  suffices hunits : (toUnits (roundVal neg num den) : Rat) ≤ toUnits (roundVal neg' num' den') by exact_mod_cast hunits
  rw [toUnits_roundVal, toUnits_roundVal]
  cases neg <;> cases neg' <;> simp only [signed, Bool.false_eq_true, if_true, if_false] at hle ⊢
  · exact unitsOfMag_roundMag_mono hden hden' hle
  · have h := hzero num den hden (by linarith)
    have h' := hzero num' den' hden' (by linarith)
    linarith
  · linarith
  · exact neg_le_neg (unitsOfMag_roundMag_mono hden' hden (neg_le_neg_iff.mp hle))

/-- A finite value is its own rounding (N1 of R14). -/
theorem roundsTo_ratOf {c : Val} (hc : isFinite c = true) : RoundsTo (ratOf c) c := by
  refine ⟨signBit c, magUnits c * 1, 1, one_pos, (roundVal_exact one_pos (not_nan_of_finite hc) rfl).symm, ?_⟩
  rw [ratOf_mul_units, toUnits_cast, mul_one, Nat.cast_one, div_one]

theorem RoundsTo.le_value {q : Rat} {v c : Val} (h : RoundsTo q v) (hc : isFinite c = true) (hq : q ≤ ratOf c) :
    ratOf v ≤ ratOf c := (fle_iff_ratOf.mp (h.mono (roundsTo_ratOf hc) hq)).2.2

theorem RoundsTo.value_le {q : Rat} {v c : Val} (h : RoundsTo q v) (hc : isFinite c = true) (hq : ratOf c ≤ q) :
    ratOf c ≤ ratOf v := (fle_iff_ratOf.mp ((roundsTo_ratOf hc).mono h hq)).2.2

theorem RoundsTo.eq_value {q : Rat} {v c : Val} (h : RoundsTo q v) (hc : isFinite c = true) (hq : q = ratOf c) :
    ratOf v = ratOf c := le_antisymm (h.le_value hc hq.le) (h.value_le hc hq.ge)

theorem RoundsTo.nonneg {q : Rat} {v : Val} (h : RoundsTo q v) (hq : 0 ≤ q) : 0 ≤ ratOf v := by
  have hzero : ratOf posZero = 0 := ratOf_eq_zero.mpr rfl
  rw [← hzero] at hq ⊢
  exact h.value_le rfl hq

/-! ## The four operations -/

theorem roundsTo_fadd {nan a b : Val} (ha : isFinite a = true) (hb : isFinite b = true) :
    RoundsTo (ratOf a + ratOf b) (fadd nan a b) := by
  have hsum : (ratOf a + ratOf b) * unitsPerOne = ((toUnits a + toUnits b : Int) : Rat) := by
    rw [add_mul, ratOf_mul_units, ratOf_mul_units, Int.cast_add]
  rw [fadd_finite ha hb]
  generalize toUnits a + toUnits b = x at hsum ⊢
  split
  · next hx =>
    have hzero (neg : Bool) : roundVal neg 0 1 = if neg then negZero else posZero := by cases neg <;> decide
    refine ⟨signBit a && signBit b, 0, 1, one_pos, (hzero _).symm, ?_⟩
    simp [hsum, hx, signed]
  · refine ⟨decide (x < 0), x.natAbs, 1, one_pos, rfl, ?_⟩
    rw [hsum, Nat.cast_one, div_one, Nat.cast_natAbs, signed]
    split
    · next hneg => rw [abs_of_neg (by simpa using hneg), Int.cast_neg, neg_neg]
    · next hneg => rw [abs_of_nonneg (by simpa using hneg)]

theorem fsub_eq_fadd (nan : Val) {a b : Val} (hb : isFinite b = true) : fsub nan a b = fadd nan a (fneg b) := by
  simp only [fsub, not_nan_of_finite hb, Bool.false_eq_true, if_false]

theorem roundsTo_fsub {nan a b : Val} (ha : isFinite a = true) (hb : isFinite b = true) :
    RoundsTo (ratOf a - ratOf b) (fsub nan a b) := by
  rw [fsub_eq_fadd nan hb, sub_eq_add_neg, ← ratOf_fneg]
  exact roundsTo_fadd ha (by rwa [isFinite_fneg])

theorem roundsTo_fmul {nan a b : Val} (ha : isFinite a = true) (hb : isFinite b = true) :
    RoundsTo (ratOf a * ratOf b) (fmul nan a b) := by
  rw [fmul_finite ha hb]
  refine ⟨_, _, _, unitsPerOne_pos, rfl, ?_⟩
  have hne := units_pos.ne'
  rw [ratOf_eq_signed, ratOf_eq_signed, signed_mul, signed_mul_right, Nat.cast_mul]
  congr 1
  field_simp

theorem roundsTo_fdiv {nan a b : Val} (ha : isFinite a = true) (hb : isFinite b = true) (hz : isZero b = false) :
    RoundsTo (ratOf a / ratOf b) (fdiv nan a b) := by
  have hpos : 0 < magUnits b := Nat.pos_of_ne_zero fun h0 => by simp [magUnits_eq_zero.mp h0] at hz
  rw [fdiv_finite ha hb hz]
  refine ⟨_, _, _, hpos, rfl, ?_⟩
  have hne := units_pos.ne'
  have hne' : (magUnits b : Rat) ≠ 0 := by exact_mod_cast hpos.ne'
  rw [ratOf_eq_signed, ratOf_eq_signed, signed_div, signed_mul_right, Nat.cast_mul]
  congr 1
  field_simp

/-- A rounded operation is its exact result rounded once (R13). -/
theorem ArithOp.roundsTo {op : ArithOp} {nan a b : Val} (h : op.admits a b) :
    RoundsTo (op.exact (ratOf a) (ratOf b)) (op.rounded nan a b) := by
  obtain ⟨ha, hb, hz⟩ := h
  cases op with
  | add => exact roundsTo_fadd ha hb
  | sub => exact roundsTo_fsub ha hb
  | mul => exact roundsTo_fmul ha hb
  | div => exact roundsTo_fdiv ha hb (hz rfl)

/-! ## Zeros and infinities -/

theorem finite_of_zero {z : Val} (hz : isZero z = true) : isFinite z = true := by
  have hmag : magBits z = 0 := by simpa [isZero] using hz
  rw [isFinite_iff, hmag]
  decide

theorem isZero_fmul {nan z a : Val} (hz : isZero z = true) (ha : isFinite a = true) :
    isZero (fmul nan z a) = true ∧ isZero (fmul nan a z) = true := by
  have hfin := finite_of_zero hz
  have hmag := magUnits_eq_zero.mpr hz
  constructor
  · rw [fmul_finite hfin ha, hmag, Nat.zero_mul, isZero, magBits_roundVal, roundMag_zero unitsPerOne_pos]
    rfl
  · rw [fmul_finite ha hfin, hmag, Nat.mul_zero, isZero, magBits_roundVal, roundMag_zero unitsPerOne_pos]
    rfl

/-- Adding a zero on either side gives the other operand's exact value. -/
theorem fadd_zero_units {nan z a : Val} (hz : isZero z = true) (ha : isNan a = false) :
    toUnits (fadd nan a z) = toUnits a ∧ toUnits (fadd nan z a) = toUnits a := by
  have hfin := finite_of_zero hz
  cases hinf : isInf a with
  | true => simp [fadd, ha, hinf, not_nan_of_finite hfin, not_inf_of_finite hfin]
  | false =>
    have hafin := finite_of_not ha hinf
    have hzero := ratOf_eq_zero.mpr hz
    exact ⟨ratOf_eq_iff.mp ((roundsTo_fadd hafin hfin).eq_value hafin (by rw [hzero, add_zero])),
      ratOf_eq_iff.mp ((roundsTo_fadd hfin hafin).eq_value hafin (by rw [hzero, zero_add]))⟩

theorem feq_of_toUnits_eq {a b : Val} (hb : isNan b = false) (h : toUnits a = toUnits b) : feq a b = true :=
  feq_iff.mpr ⟨(isNan_eq_of_toUnits_eq h).trans hb, hb, h⟩

/-- A value between -1 and 1 has a magnitude of at most one. -/
theorem magUnits_le_one {a : Val} (hlo : fle valNegOne a = true) (hhi : fle a valOne = true) : magUnits a ≤ unitsPerOne := by
  obtain ⟨-, -, hlo⟩ := fle_iff.mp hlo
  obtain ⟨-, -, hhi⟩ := fle_iff.mp hhi
  have hone : toUnits valOne = (unitsPerOne : Int) := by decide
  have hneg : toUnits valNegOne = -(unitsPerOne : Int) := by decide
  rw [← toUnits_natAbs]
  omega

theorem finite_of_unit {a : Val} (hlo : fle valNegOne a = true) (hhi : fle a valOne = true) : isFinite a = true := by
  have hone : magUnits valOne = unitsPerOne := by decide
  exact finite_of_magUnits_le (b := valOne) rfl (by rw [hone]; exact magUnits_le_one hlo hhi)

theorem magUnits_fmul_le {nan a b : Val} (ha : isFinite a = true) (hone : magUnits a ≤ unitsPerOne) (hb : isFinite b = true) :
    magUnits (fmul nan a b) ≤ magUnits b := by
  rw [fmul_finite ha hb, magUnits_eq, magBits_roundVal, magUnits_eq b, unitsOfMag_le_iff]
  refine roundMag_le_of_le unitsPerOne_pos (isFinite_iff.mp hb).le ?_
  rw [← magUnits_eq, Nat.mul_comm]
  exact Nat.mul_le_mul_left _ hone

/-! ## The statements on the arithmetic -/

/-- Settles O39: a value rounds to itself, and a value other than a zero is known by its exact value. -/
theorem exactResultsAreReturned : Obligations.ExactResultsAreReturned := by
  intro op nan a b c hadmits hc hexact
  have hunits := ratOf_eq_iff.mp ((ArithOp.roundsTo (nan := nan) hadmits).eq_value hc hexact)
  split
  · next hz => exact toUnits_eq_zero.mp (hunits.trans (toUnits_eq_zero.mpr hz))
  · next hz => exact eq_of_toUnits_eq hunits (Bool.eq_false_iff.mpr hz)

/-- Settles O40: the exact product is zero, and the exact sum is the other operand. -/
theorem zeroOperandsActAsZeros : Obligations.ZeroOperandsActAsZeros := by
  refine fun nan z a hz => ⟨fun ha => isZero_fmul hz ha, fun ha => ?_⟩
  obtain ⟨hright, hleft⟩ := fadd_zero_units (nan := nan) hz ha
  exact ⟨feq_of_toUnits_eq ha hright, feq_of_toUnits_eq ha hleft,
    fun hne => ⟨eq_of_toUnits_eq hright hne, eq_of_toUnits_eq hleft hne⟩⟩

/-- Settles O41: each operation is one rounding of its exact result. -/
theorem roundingIsMonotone : Obligations.RoundingIsMonotone :=
  fun _ _ _ _ _ _ _ hab hcd hle => (ArithOp.roundsTo hab).mono (ArithOp.roundsTo hcd) hle

/-- Settles O42: the exact magnitude is no larger than the other factor's, which is a value. -/
theorem unitFactorDoesNotEnlarge : Obligations.UnitFactorDoesNotEnlarge := by
  intro nan a b hlo hhi hb
  have hle := magUnits_fmul_le (nan := nan) (finite_of_unit hlo hhi) (magUnits_le_one hlo hhi) hb
  exact ⟨finite_of_magUnits_le hb hle, hle⟩

end Sys2Proof.Machine
end

section
/-! SUPPORT. Whole numbers and fractional parts as values: the floor, the wrap, the wave, and the read at a whole delay
(spec 00_scope.md R12, R14; 41_oscillator.md R121 to R125; 42_delay_line.md R132 to R142). -/

namespace Sys2Proof.Machine

/-! ## Which numbers are values -/

/-- A magnitude of 24 bits, scaled by a power of two, has magnitude bits (R13). -/
theorem exists_magBits (m e : Nat) (hm : m < 2 ^ 24) (he : e ≤ 253) : ∃ mag < infBits, unitsOfMag mag = m * 2 ^ e := by
  induction e generalizing m with
  | zero =>
    refine ⟨m, by unfold infBits; omega, ?_⟩
    rcases Nat.lt_or_ge m (2 ^ 23) with h | h
    · rw [unitsOfMag, if_pos (by omega), Nat.mod_eq_of_lt h, pow_zero, mul_one]
    · rw [unitsOfMag, if_neg (by omega), show m / 2 ^ 23 = 1 by omega, Nat.sub_self]
      omega
  | succ e ih =>
    rcases Nat.lt_or_ge m (2 ^ 23) with h | h
    · obtain ⟨mag, hlt, hmag⟩ := ih (2 * m) (by omega) (by omega)
      exact ⟨mag, hlt, by rw [hmag, pow_succ]; ring⟩
    · refine ⟨(e + 2) * 2 ^ 23 + (m - 2 ^ 23), by unfold infBits; omega, ?_⟩
      have hdiv : ((e + 2) * 2 ^ 23 + (m - 2 ^ 23)) / 2 ^ 23 = e + 2 := by omega
      have hmod : ((e + 2) * 2 ^ 23 + (m - 2 ^ 23)) % 2 ^ 23 = m - 2 ^ 23 := by omega
      rw [unitsOfMag, hdiv, hmod, if_neg (by omega), show 2 ^ 23 + (m - 2 ^ 23) = m by omega]
      rfl

/-- A whole number of units of 24 significant bits is a value. -/
theorem exists_value (m e : Nat) (hm : m < 2 ^ 24) (he : e ≤ 253) :
    ∃ c : Val, isFinite c = true ∧ toUnits c = (m * 2 ^ e : Nat) := by
  obtain ⟨mag, hlt, hmag⟩ := exists_magBits m e hm he
  have hlt' : mag < 2 ^ 31 := hlt.trans (by decide)
  refine ⟨withSign false mag, isFinite_iff.mpr (by rwa [magBits_withSign hlt']), ?_⟩
  rw [toUnits, signBit_withSign hlt', magUnits_eq, magBits_withSign hlt', hmag]
  rfl

/-- The magnitude of every finite value has 24 significant bits (R13). -/
theorem exists_magUnits_eq {a : Val} (ha : isFinite a = true) : ∃ m e, m < 2 ^ 24 ∧ e ≤ 253 ∧ magUnits a = m * 2 ^ e := by
  have hfrac : fracField a < 2 ^ 23 := Nat.mod_lt _ (by norm_num)
  have hexp : expField a < 255 := by
    rw [expField, Nat.div_lt_iff_lt_mul (by norm_num)]
    exact isFinite_iff.mp ha
  unfold magUnits
  split
  · exact ⟨fracField a, 0, by omega, by omega, by rw [pow_zero, mul_one]⟩
  · exact ⟨2 ^ 23 + fracField a, expField a - 1, by omega, by omega, rfl⟩

/-- A rounding of a number that is a value is that value. -/
theorem RoundsTo.eq_units {q : Rat} {v : Val} (h : RoundsTo q v) {m e : Nat} (hm : m < 2 ^ 24) (he : e ≤ 253)
    (hq : q * unitsPerOne = (m * 2 ^ e : Nat)) : isFinite v = true ∧ toUnits v = (m * 2 ^ e : Nat) := by
  obtain ⟨c, hc, hunits⟩ := exists_value m e hm he
  have heq : ratOf v = ratOf c := by
    refine h.eq_value hc (mul_right_cancel₀ units_pos.ne' ?_)
    rw [hq, ratOf_mul_units, hunits, Int.cast_natCast]
  have hvc := ratOf_eq_iff.mp heq
  refine ⟨finite_of_magUnits_le hc ?_, hvc.trans hunits⟩
  rw [← toUnits_natAbs, ← toUnits_natAbs, hvc]

/-- A natural number of 24 bits is a value (R12). -/
theorem valOfNat_units {n : Nat} (hn : n < 2 ^ 24) :
    isFinite (valOfNat n) = true ∧ toUnits (valOfNat n) = (n * unitsPerOne : Nat) := by
  have hround : RoundsTo n (valOfNat n) := ⟨false, n * unitsPerOne, 1, one_pos, rfl, by simp [signed]⟩
  exact hround.eq_units hn (by norm_num : 149 ≤ 253) (by rw [Nat.cast_mul]; rfl)

/-! ## The floor and the wrap -/

theorem magUnits_of_nonneg {a : Val} (h : 0 ≤ toUnits a) : toUnits a = magUnits a := by
  rw [← toUnits_natAbs, Int.natAbs_of_nonneg h]

/-- The whole part and the fractional part of a number of 24 significant bits have as few (R14, N5). -/
theorem exists_div_mod_form {v : Val} (hv : isFinite v = true) :
    (∃ m e, m < 2 ^ 24 ∧ e ≤ 253 ∧ magUnits v / unitsPerOne * unitsPerOne = m * 2 ^ e) ∧
    ∃ m e, m < 2 ^ 24 ∧ e ≤ 253 ∧ magUnits v % unitsPerOne = m * 2 ^ e := by
  obtain ⟨m, e, hm, he, hmag⟩ := exists_magUnits_eq hv
  rw [hmag]
  rcases Nat.lt_or_ge e 149 with h | h
  · have hunits : unitsPerOne = 2 ^ (149 - e) * 2 ^ e := by rw [unitsPerOne, ← pow_add, Nat.sub_add_cancel h.le]
    have hpos : 0 < 2 ^ e := by positivity
    constructor
    · refine ⟨m / 2 ^ (149 - e), 149, lt_of_le_of_lt (Nat.div_le_self _ _) hm, by norm_num, ?_⟩
      conv_lhs => rw [hunits, Nat.mul_div_mul_right _ _ hpos, ← hunits]
      rfl
    · refine ⟨m % 2 ^ (149 - e), e, lt_of_le_of_lt (Nat.mod_le _ _) hm, he, ?_⟩
      rw [hunits, Nat.mul_mod_mul_right]
  · have hdvd : unitsPerOne ∣ m * 2 ^ e := Dvd.dvd.mul_left (pow_dvd_pow 2 h) m
    refine ⟨⟨m, e, hm, he, Nat.div_mul_cancel hdvd⟩, 0, 0, by norm_num, by norm_num, ?_⟩
    rw [Nat.mod_eq_zero_of_dvd hdvd, Nat.zero_mul]

/-- The floor of a finite value that is not negative is its whole part, with the same sign bit (R12). -/
theorem ffloor_nonneg {v : Val} (hv : isFinite v = true) (h : 0 ≤ toUnits v) :
    isFinite (ffloor v) = true ∧ toUnits (ffloor v) = (magUnits v / unitsPerOne * unitsPerOne : Nat) := by
  obtain ⟨⟨m, e, hm, he, hform⟩, -⟩ := exists_div_mod_form hv
  have hfloor : ffloor v = roundVal (signBit v) (magUnits v / unitsPerOne * unitsPerOne) 1 := by
    rw [ffloor, if_pos hv, magUnits_of_nonneg h]
    rfl
  have hround : RoundsTo (magUnits v / unitsPerOne : Nat) (ffloor v) := by
    refine ⟨_, _, _, one_pos, hfloor, ?_⟩
    cases hs : signBit v with
    | false => simp [signed]
    | true =>
      have hzero : magUnits v = 0 := by simp [toUnits, hs] at h; omega
      simp [signed, hzero]
  rw [hform]
  exact hround.eq_units hm he (by rw [← hform, Nat.cast_mul])

theorem natOf_ffloor {v : Val} (hv : isFinite v = true) (h : 0 ≤ toUnits v) :
    natOf (ffloor v) = magUnits v / unitsPerOne := by
  rw [natOf, ← toUnits_natAbs, (ffloor_nonneg hv h).2, Int.natAbs_natCast, Nat.mul_div_cancel _ unitsPerOne_pos]

/-- The wrap of a finite value that is not negative is its fractional part (R123). -/
theorem wrap1_units (nan : Val) {v : Val} (hv : isFinite v = true) (h : 0 ≤ toUnits v) :
    isFinite (wrap1 nan v) = true ∧ toUnits (wrap1 nan v) = (magUnits v % unitsPerOne : Nat) := by
  obtain ⟨-, m, e, hm, he, hform⟩ := exists_div_mod_form hv
  obtain ⟨hfin, hunits⟩ := ffloor_nonneg hv h
  have hround : RoundsTo (ratOf v - ratOf (ffloor v)) (wrap1 nan v) := roundsTo_fsub hv hfin
  have hsplit : (magUnits v : Rat) = (magUnits v / unitsPerOne * unitsPerOne : Nat) + (magUnits v % unitsPerOne : Nat) := by
    exact_mod_cast (Nat.div_add_mod' (magUnits v) unitsPerOne).symm
  have hexact : (ratOf v - ratOf (ffloor v)) * unitsPerOne = (magUnits v % unitsPerOne : Nat) := by
    rw [sub_mul, ratOf_mul_units, ratOf_mul_units, hunits, magUnits_of_nonneg h, Int.cast_natCast, Int.cast_natCast]
    linarith
  rw [hform] at hexact ⊢
  exact hround.eq_units hm he hexact

theorem nonneg_of_fle_posZero {v : Val} (h : fle posZero v = true) : 0 ≤ toUnits v := (fle_iff.mp h).2.2

theorem fle_posZero_of_nonneg {v : Val} (hn : isNan v = false) (h : 0 ≤ toUnits v) : fle posZero v = true :=
  fle_iff.mpr ⟨rfl, hn, h⟩

/-- The wrap lies in `[0, 1)` (R123). -/
theorem wrap1_inUnit (nan : Val) {v : Val} (hv : isFinite v = true) (h : 0 ≤ toUnits v) : phaseInUnit (wrap1 nan v) := by
  obtain ⟨hfin, hunits⟩ := wrap1_units nan hv h
  have hnan := not_nan_of_finite hfin
  have hone : toUnits valOne = (unitsPerOne : Int) := by decide
  have hlt : magUnits v % unitsPerOne < unitsPerOne := Nat.mod_lt _ unitsPerOne_pos
  exact ⟨hnan, fle_posZero_of_nonneg hnan (by omega), flt_iff.mpr ⟨hnan, rfl, by omega⟩⟩

/-- Settles O38: the floor is the whole part, a value; the difference is the fractional part, also a value. -/
theorem wrapIsTheExactFractionalPart : Obligations.WrapIsTheExactFractionalPart := by
  intro nan v hv h
  have hnonneg := nonneg_of_fle_posZero h
  refine ⟨wrap1_inUnit nan hv hnonneg, ?_⟩
  have hfloor : ⌊ratOf v⌋ = (magUnits v / unitsPerOne : Nat) := by
    rw [ratOf_of_nonneg hnonneg, ← Int.natCast_floor_eq_floor (by positivity), Nat.floor_div_eq_div]
  have hsplit : (magUnits v : Rat) = (magUnits v / unitsPerOne : Nat) * unitsPerOne + (magUnits v % unitsPerOne : Nat) := by
    exact_mod_cast (Nat.div_add_mod' (magUnits v) unitsPerOne).symm
  apply mul_right_cancel₀ units_pos.ne'
  rw [sub_mul, ratOf_mul_units, ratOf_mul_units, hfloor, (wrap1_units nan hv hnonneg).2, magUnits_of_nonneg hnonneg]
  simp only [Int.cast_natCast]
  linarith

/-! ## The wave -/

/-- Any function held to W1 to W3 has them (R121). -/
theorem shapeWave_ok (raw : Val → Val) : WaveOk (shapeWave raw) := by
  refine ⟨fun p _ _ _ => ?_, rfl, rfl, ?_, rfl⟩
  · unfold shapeWave
    split_ifs with _ _ _ hsign _ hnan
    · decide
    · decide
    · decide
    · decide
    · decide
    · decide
    · obtain ⟨hlo, hhi⟩ :=
        clamp_inside (v := raw p) (lo := valNegOne) (hi := valOne) (Bool.eq_false_iff.mpr hnan) (by decide)
      exact ⟨(fle_iff.mp hlo).2.1, hlo, hhi⟩
  · have hhalf : shapeWave raw valHalf = if signBit (raw valHalf) then negZero else posZero := rfl
    rw [hhalf]
    split <;> rfl

/-- Settles O37: the machine's wave is a function held to the properties. -/
theorem waveHasItsNamedProperties : Obligations.WaveHasItsNamedProperties := shapeWave_ok Config.freeWave

theorem defaultHardware_ok : HardwareOk defaultHardware where
  powerOfTwo := ⟨16, rfl⟩
  addressable := by decide
  offsets _ _ := by
    show phaseInUnit 0x00000000#32
    decide
  wave := shapeWave_ok Config.freeWave

/-- Settles O47: the machine is defined on that hardware, and its wave is held to the named properties. -/
theorem theMachineIsTheDefaultHardware : Obligations.TheMachineIsTheDefaultHardware :=
  ⟨defaultHardware_ok, fun i s => (execOn_default i s).symm, fun _ => rfl, rfl⟩

/-! ## The delay at depth zero, and the read at a whole delay -/

/-- Settles O33: a zero depth makes the modulation term a zero, and adding a zero gives the centre delay. -/
theorem depthZeroRemovesTheModulation : Obligations.DepthZeroRemovesTheModulation := by
  intro nan snap sr osc hdepth hcentre hne hosc
  have ht1 : isZero (fmul (nan .delayT1) snap.depth snap.centreDelay) = true := (isZero_fmul hdepth hcentre).1
  have ht2 := (isZero_fmul (nan := nan .delayT2) ht1 hosc).1
  have ht3 := eq_of_toUnits_eq (fadd_zero_units (nan := nan .delayT3) ht2 (not_nan_of_finite hcentre)).1 hne
  rw [delayCalc, ht3]
  rfl

/-- The split of a whole delay: its fractional part is a zero (R132). -/
theorem dlSplit_valOfNat (nan : NanSite → Val) {cap k : Nat} (hk : k < cap) (hcap : cap ≤ 2 ^ 24) :
    ∃ f, dlSplit nan cap (valOfNat k) = some (k, f) ∧ isZero f = true := by
  obtain ⟨hfin, hunits⟩ := valOfNat_units (n := k) (by omega)
  have hnonneg : 0 ≤ toUnits (valOfNat k) := by rw [hunits]; exact Int.natCast_nonneg _
  have hmag : magUnits (valOfNat k) = k * unitsPerOne := by rw [← toUnits_natAbs, hunits, Int.natAbs_natCast]
  have hnat : natOf (ffloor (valOfNat k)) = k := by
    rw [natOf_ffloor hfin hnonneg, hmag, Nat.mul_div_cancel _ unitsPerOne_pos]
  have hneg : flt (valOfNat k) posZero = false :=
    flt_eq_false_of_fle (fle_posZero_of_nonneg (not_nan_of_finite hfin) hnonneg)
  refine ⟨_, by rw [dlSplit_inside hfin hneg (by rwa [hnat]), hnat], toUnits_eq_zero.mp ?_⟩
  have hwrap := (wrap1_units (nan .split) hfin hnonneg).2
  rw [hmag, Nat.mul_mod_left] at hwrap
  exact hwrap

/-- Settles O35: the interpolator's factor is a zero, so its product with the difference is a zero, and adding it gives the near
tap. -/
theorem integerDelayReadsThatSample : Obligations.IntegerDelayReadsThatSample := by
  intro nan cap k c hk hcap hnear _ hdiff
  obtain ⟨f, hsplit, hf⟩ := dlSplit_valOfNat nan hk hcap
  have hprod := (isZero_fmul (nan := nan .lerpMul) hf hdiff).1
  exact ⟨_, fracRead_of_split hsplit c, feq_of_toUnits_eq (not_nan_of_finite hnear)
    (fadd_zero_units hprod (not_nan_of_finite hnear)).1⟩

end Sys2Proof.Machine
end

section
/-! SUPPORT. The delay: its range before and after the clamp (spec 43_mixer_pipeline.md R150 to R154; 42_delay_line.md R132,
R142). -/

namespace Sys2Proof.Machine

/-! ## Bounds on exact values -/

theorem fle_trans {a b c : Val} (hab : fle a b = true) (hbc : fle b c = true) : fle a c = true := by
  obtain ⟨ha, -, hab⟩ := fle_iff.mp hab
  obtain ⟨-, hc, hbc⟩ := fle_iff.mp hbc
  exact fle_iff.mpr ⟨ha, hc, hab.trans hbc⟩

theorem abs_ratOf (a : Val) : |ratOf a| = (magUnits a : Rat) / unitsPerOne := by
  rw [ratOf, abs_div, abs_of_pos units_pos, ← Int.cast_abs, Int.abs_eq_natAbs, toUnits_natAbs, Int.cast_natCast]

theorem abs_ratOf_le_iff {a b : Val} : |ratOf a| ≤ |ratOf b| ↔ magUnits a ≤ magUnits b := by
  rw [abs_ratOf, abs_ratOf, div_le_div_iff_of_pos_right units_pos, Nat.cast_le]

theorem finite_of_abs_le {a b : Val} (hb : isFinite b = true) (h : |ratOf a| ≤ |ratOf b|) : isFinite a = true :=
  finite_of_magUnits_le hb (abs_ratOf_le_iff.mp h)

/-- A value between zero and a finite value is finite. -/
theorem finite_of_between {a b : Val} (hb : isFinite b = true) (h0 : 0 ≤ ratOf a) (h : ratOf a ≤ ratOf b) :
    isFinite a = true :=
  finite_of_abs_le hb (by rwa [abs_of_nonneg h0, abs_of_nonneg (h0.trans h)])

/-- A result between zero and a value rounds to a finite value in that range. -/
theorem RoundsTo.between {q : Rat} {v c : Val} (h : RoundsTo q v) (hc : isFinite c = true) (h0 : 0 ≤ q) (hq : q ≤ ratOf c) :
    isFinite v = true ∧ 0 ≤ ratOf v ∧ ratOf v ≤ ratOf c :=
  ⟨finite_of_between hc (h.nonneg h0) (h.le_value hc hq), h.nonneg h0, h.le_value hc hq⟩

theorem ratOf_of_toUnits {a : Val} {q : Rat} (h : (toUnits a : Rat) = q * unitsPerOne) : ratOf a = q := by
  rw [ratOf, h, mul_div_cancel_right₀ _ units_pos.ne']

theorem ratOf_of_whole {a : Val} {n : Nat} (h : toUnits a = (n * unitsPerOne : Nat)) : ratOf a = n := by
  refine ratOf_of_toUnits ?_
  rw [h, Int.cast_natCast, Nat.cast_mul]

theorem ratOf_valOfNat {n : Nat} (hn : n < 2 ^ 24) : ratOf (valOfNat n) = n := ratOf_of_whole (valOfNat_units hn).2

theorem ratOf_posZero : ratOf posZero = 0 := ratOf_eq_zero.mpr rfl

theorem ratOf_valOne : ratOf valOne = 1 := by exact_mod_cast ratOf_of_whole (a := valOne) (n := 1) (by decide)

theorem ratOf_valHundred : ratOf valHundred = 100 := by
  exact_mod_cast ratOf_of_whole (a := valHundred) (n := 100) (by decide)

theorem ratOf_valThousand : ratOf valThousand = 1000 := by
  exact_mod_cast ratOf_of_whole (a := valThousand) (n := 1000) (by decide)

/-- A natural number of 24 significant bits is a value. -/
theorem exists_natValue (m e : Nat) (hm : m < 2 ^ 24) (he : e ≤ 104) :
    ∃ c : Val, isFinite c = true ∧ ratOf c = (m * 2 ^ e : Nat) := by
  obtain ⟨c, hc, hunits⟩ := exists_value m (e + 149) hm (by omega)
  refine ⟨c, hc, ratOf_of_toUnits ?_⟩
  rw [hunits, Int.cast_natCast, pow_add, ← Nat.mul_assoc, Nat.cast_mul]
  rfl

/-! ## The delay before the clamp -/

theorem fmul_comm {nan a b : Val} (ha : isFinite a = true) (hb : isFinite b = true) : fmul nan a b = fmul nan b a := by
  rw [fmul_finite ha hb, fmul_finite hb ha, Nat.mul_comm, bne_comm]

/-- The centre delay and its modulation, the first three operations of the delay (R150). -/
def modulatedCentre (nan : NanSite → Val) (snap : Params) (osc : Val) : Val :=
  fadd (nan .delayT3) snap.centreDelay (fmul (nan .delayT2) (fmul (nan .delayT1) snap.depth snap.centreDelay) osc)

/-- The delay is the modulated centre delay, from milliseconds to samples (R150). -/
theorem delayCalc_eq (nan : NanSite → Val) (snap : Params) (sr osc : Val) :
    delayCalc nan snap sr osc =
      fdiv (nan .delayD0) (fmul (nan .delayT4) (modulatedCentre nan snap osc) sr) valThousand := rfl

/-- The modulation is no larger than the centre delay, so their sum is not negative and at most twice 100 milliseconds
(R154). -/
theorem modulatedCentre_between {nan : NanSite → Val} {snap : Params} {osc : Val} (hsnap : snap.inRange)
    (hlo : fle valNegOne osc = true) (hhi : fle osc valOne = true) :
    isFinite (modulatedCentre nan snap osc) = true ∧ 0 ≤ ratOf (modulatedCentre nan snap osc) ∧
    ratOf (modulatedCentre nan snap osc) ≤ 200 := by
  obtain ⟨-, ⟨-, hdepthLo, hdepthHi⟩, ⟨-, hcentreLo, hcentreHi⟩, -⟩ := hsnap
  have hdepthLo' : fle valNegOne snap.depth = true := fle_trans (by decide) hdepthLo
  obtain ⟨-, -, hcentre0⟩ := fle_iff_ratOf.mp (fle_trans (by decide : fle posZero valOne = true) hcentreLo)
  obtain ⟨-, -, hcentre100⟩ := fle_iff_ratOf.mp hcentreHi
  rw [ratOf_posZero] at hcentre0
  have hcentre : isFinite snap.centreDelay = true := finite_of_between (b := valHundred) rfl hcentre0 hcentre100
  have hosc := finite_of_unit hlo hhi
  unfold modulatedCentre
  generalize ht1 : fmul (nan .delayT1) snap.depth snap.centreDelay = t1
  have hmag1 : magUnits t1 ≤ magUnits snap.centreDelay :=
    ht1 ▸ magUnits_fmul_le (finite_of_unit hdepthLo' hdepthHi) (magUnits_le_one hdepthLo' hdepthHi) hcentre
  have hfin1 := finite_of_magUnits_le hcentre hmag1
  generalize ht2 : fmul (nan .delayT2) t1 osc = t2
  have hmag2 : magUnits t2 ≤ magUnits t1 := by
    rw [← ht2, fmul_comm hfin1 hosc]
    exact magUnits_fmul_le hosc (magUnits_le_one hlo hhi) hfin1
  have hfin2 := finite_of_magUnits_le hfin1 hmag2
  have habs : |ratOf t2| ≤ ratOf snap.centreDelay := by
    rw [← abs_of_nonneg hcentre0]
    exact abs_ratOf_le_iff.mpr (hmag2.trans hmag1)
  obtain ⟨hlow, hhigh⟩ := abs_le.mp habs
  rw [ParamReg.hi, ratOf_valHundred] at hcentre100
  obtain ⟨c, hc, hc200⟩ := exists_natValue 200 0 (by norm_num) (by norm_num)
  have h200 : ratOf c = 200 := by rw [hc200]; norm_num
  rw [← h200]
  exact (roundsTo_fadd hcentre hfin2).between hc (by linarith) (by linarith)

/-- The delay, bounded by a value that bounds each of its last two rounded operations (R150). -/
theorem delayCalc_between {nan : NanSite → Val} {snap : Params} {sr osc c d : Val} (hsnap : snap.inRange)
    (hsr : isFinite sr = true) (hsr0 : 0 ≤ ratOf sr) (hlo : fle valNegOne osc = true) (hhi : fle osc valOne = true)
    (hc : isFinite c = true) (hprod : 200 * ratOf sr ≤ ratOf c) (hd : isFinite d = true) (hquot : ratOf c / 1000 ≤ ratOf d) :
    isFinite (delayCalc nan snap sr osc) = true ∧ 0 ≤ ratOf (delayCalc nan snap sr osc) ∧
    ratOf (delayCalc nan snap sr osc) ≤ ratOf d := by
  obtain ⟨hfin3, h0, h200⟩ := modulatedCentre_between (nan := nan) hsnap hlo hhi
  rw [delayCalc_eq]
  obtain ⟨hfin4, h40, h4c⟩ := (roundsTo_fmul (nan := nan .delayT4) hfin3 hsr).between hc (mul_nonneg h0 hsr0)
    ((mul_le_mul_of_nonneg_right h200 hsr0).trans hprod)
  have hround := roundsTo_fdiv (nan := nan .delayD0) (b := valThousand) hfin4 rfl rfl
  rw [ratOf_valThousand] at hround
  exact hround.between hd (by positivity) (((div_le_div_iff_of_pos_right (by norm_num)).mpr h4c).trans hquot)

/-- The bounds of the last two operations: for every capacity up to 2^22 there are values where they are needed (R154). -/
theorem exists_delay_bounds {k : Nat} (hk2 : 2 ≤ k) (hk22 : k ≤ 22) :
    ∃ c d : Val, isFinite c = true ∧ isFinite d = true ∧ 1000 * ((2 : Rat) ^ k - 2) ≤ ratOf c ∧
      ratOf c / 1000 ≤ ratOf d ∧ ratOf d ≤ 2 ^ k - 3 / 2 ∧ (k ≤ 16 → ratOf d = 2 ^ k - 2) := by
  rcases Nat.lt_or_ge 16 k with hk | hk
  · -- above 2^16 the product is bounded by a multiple of 256
    obtain ⟨j, rfl⟩ : ∃ j, k = j + 5 := ⟨k - 5, by omega⟩
    have hpow : 2 ^ j ≤ 2 ^ 17 := Nat.pow_le_pow_right (by norm_num) (by omega)
    have hone : 1 ≤ 2 ^ j := Nat.one_le_two_pow
    obtain ⟨c, hc, hcval⟩ := exists_natValue (125 * 2 ^ j - 7) 8 (by omega) (by norm_num)
    obtain ⟨d, hd, hdunits⟩ := exists_value (64 * 2 ^ j - 3) 148 (by omega) (by norm_num)
    have hcval' : ratOf c = 32000 * 2 ^ j - 1792 := by
      rw [hcval, Nat.cast_mul, Nat.cast_sub (by omega)]
      push_cast
      ring
    have hdval : ratOf d = 32 * 2 ^ j - 3 / 2 := by
      refine ratOf_of_toUnits ?_
      rw [hdunits, Int.cast_natCast, Nat.cast_mul, Nat.cast_sub (by omega), unitsPerOne]
      push_cast
      ring
    refine ⟨c, d, hc, hd, ?_, ?_, ?_, fun hle => absurd hle (by omega)⟩
    · rw [hcval', pow_add]; linarith
    · rw [hcval', hdval]; linarith
    · rw [hdval, pow_add]; linarith
  · -- up to 2^16 the product is bounded by its exact bound
    obtain ⟨j, rfl⟩ : ∃ j, k = j + 1 := ⟨k - 1, by omega⟩
    have hpow : 2 ^ j ≤ 2 ^ 15 := Nat.pow_le_pow_right (by norm_num) (by omega)
    have hone : 1 ≤ 2 ^ j := Nat.one_le_two_pow
    obtain ⟨c, hc, hcval⟩ := exists_natValue (125 * (2 ^ j - 1)) 4 (by omega) (by norm_num)
    obtain ⟨d, hd, hdval⟩ := exists_natValue (2 ^ j - 1) 1 (by omega) (by norm_num)
    have hcval' : ratOf c = 2000 * 2 ^ j - 2000 := by
      rw [hcval, Nat.cast_mul, Nat.cast_mul, Nat.cast_sub hone]
      push_cast
      ring
    have hdval' : ratOf d = 2 * 2 ^ j - 2 := by
      rw [hdval, Nat.cast_mul, Nat.cast_sub hone]
      push_cast
      ring
    refine ⟨c, d, hc, hd, ?_, ?_, ?_, fun _ => ?_⟩
    · rw [hcval', pow_succ]; linarith
    · rw [hcval', hdval']; linarith
    · rw [hdval', pow_succ]; linarith
    · rw [hdval', pow_succ]; ring

theorem natOf_ffloor_lt {d : Val} {n : Nat} (hd : isFinite d = true) (h0 : 0 ≤ ratOf d) (h : ratOf d < n) :
    natOf (ffloor d) < n := by
  have hnonneg := ratOf_nonneg_iff.mp h0
  rw [natOf_ffloor hd hnonneg, Nat.div_lt_iff_lt_mul unitsPerOne_pos]
  rw [ratOf_of_nonneg hnonneg, div_lt_iff₀ units_pos] at h
  exact_mod_cast h

/-- Settles O34: the capacity leaves two samples of margin, and the rounding of the delay does not use up the half of one. -/
theorem delayStaysInsideTheBuffer : Obligations.DelayStaysInsideTheBuffer := by
  intro nan snap sr osc hsnap hsr hmin hcap hlo hhi
  obtain ⟨-, hnan, hsr0⟩ := fle_iff_ratOf.mp (fle_trans (by decide : fle posZero Config.srMin = true) hmin)
  obtain ⟨⟨k, hk, hholds, -⟩, hfour⟩ :=
    capacityIsTheNextPowerOfTwo sr hsr (fle_iff_ratOf.mpr ⟨rfl, hnan, hsr0⟩)
  rw [ratOf_posZero] at hsr0
  have hk2 : 2 ≤ k := (Nat.pow_le_pow_iff_right (by norm_num : 1 < 2)).mp (hk ▸ hfour hmin)
  have hk22 : k ≤ 22 := (Nat.pow_le_pow_iff_right (by norm_num : 1 < 2)).mp (hk ▸ hcap)
  have hrate : ratOf sr / 5 + 2 ≤ (2 : Rat) ^ k := by
    have hceil := Int.le_ceil (ratOf sr / 5)
    have hholds' : ((⌈ratOf sr / 5⌉ : Int) : Rat) + 2 ≤ 2 ^ k := by exact_mod_cast hholds
    linarith
  have hpow22 : 2 ^ k ≤ 2 ^ 22 := Nat.pow_le_pow_right (by norm_num) hk22
  have hpow2 : 2 ^ 2 ≤ 2 ^ k := Nat.pow_le_pow_right (by norm_num) hk2
  obtain ⟨c, d, hc, hd, hprod, hquot, hhalf, hexact⟩ := exists_delay_bounds hk2 hk22
  obtain ⟨hfin, h0, hle⟩ := delayCalc_between (nan := nan) hsnap hsr hsr0 hlo hhi hc (by linarith) hd hquot
  generalize delayCalc nan snap sr osc = e at hfin h0 hle ⊢
  have hnan := not_nan_of_finite hfin
  have hpos : fle posZero e = true := fle_iff_ratOf.mpr ⟨rfl, hnan, by rwa [ratOf_posZero]⟩
  have hvalue (n : Nat) (hn : n < 2 ^ 24) (hen : ratOf e ≤ n) : fle e (valOfNat n) = true :=
    fle_iff_ratOf.mpr ⟨hnan, not_nan_of_finite (valOfNat_units hn).1, by rwa [ratOf_valOfNat hn]⟩
  rw [hk]
  refine ⟨hfin, hpos, ?_, ?_, fun h16 => ?_⟩
  · have hlt : natOf (ffloor e) < 2 ^ k - 1 := by
      refine natOf_ffloor_lt hfin h0 ?_
      rw [Nat.cast_sub (by omega)]
      push_cast
      linarith
    omega
  · refine clamp_of_inside hpos (hvalue _ (by omega) ?_)
    rw [Nat.cast_sub (by omega)]
    push_cast
    linarith
  · refine hvalue _ (by omega) ?_
    have hk16 : k ≤ 16 := (Nat.pow_le_pow_iff_right (by norm_num : 1 < 2)).mp h16
    rw [Nat.cast_sub (by omega)]
    push_cast
    linarith [hexact hk16]

/-! ## The delay after the clamp -/

/-- A quotient of a value that is no NaN by a thousand is no NaN. -/
theorem isNan_fdiv_valThousand {nan a : Val} (ha : isNan a = false) : isNan (fdiv nan a valThousand) = false := by
  cases hinf : isInf a with
  | false => exact (roundsTo_fdiv (b := valThousand) (finite_of_not ha hinf) rfl rfl).not_nan
  | true =>
    have hval : fdiv nan a valThousand = withSign (signBit a != signBit valThousand) infBits := by
      simp only [fdiv, ha, hinf, show isNan valThousand = false from rfl, show isInf valThousand = false from rfl,
        Bool.or_self, Bool.false_eq_true, if_true, if_false]
    rw [hval, isNan, magBits_withSign (by decide)]
    rfl

/-- The delay is no NaN, also where its product with a large sample rate overflows. -/
theorem isNan_delayCalc {nan : NanSite → Val} {snap : Params} {sr osc : Val} (hsnap : snap.inRange) (hsr : isFinite sr = true)
    (hlo : fle valNegOne osc = true) (hhi : fle osc valOne = true) : isNan (delayCalc nan snap sr osc) = false :=
  isNan_fdiv_valThousand (roundsTo_fmul (modulatedCentre_between hsnap hlo hhi).1 hsr).not_nan

/-- The clamped delay can be read in every buffer the spec admits (R132, R151). -/
theorem dlSplit_dclamp {nan : NanSite → Val} {cap : Nat} {d : Val} (hd : isNan d = false) (hpos : 0 < cap)
    (hcap : cap ≤ 2 ^ 24) : ∃ i f, dlSplit nan cap (dclamp cap d) = some (i, f) := by
  have hlt : cap - 1 < 2 ^ 24 := by omega
  obtain ⟨hfinHi, -⟩ := valOfNat_units hlt
  have hbound : fle posZero (valOfNat (cap - 1)) = true :=
    fle_iff_ratOf.mpr ⟨rfl, not_nan_of_finite hfinHi, by rw [ratOf_posZero, ratOf_valOfNat hlt]; positivity⟩
  obtain ⟨hlo, hhi⟩ : fle posZero (dclamp cap d) = true ∧ fle (dclamp cap d) (valOfNat (cap - 1)) = true :=
    clamp_inside hd hbound
  generalize dclamp cap d = e at hlo hhi ⊢
  obtain ⟨-, -, h0⟩ := fle_iff_ratOf.mp hlo
  obtain ⟨-, -, hle⟩ := fle_iff_ratOf.mp hhi
  rw [ratOf_posZero] at h0
  have hfin := finite_of_between hfinHi h0 hle
  rw [ratOf_valOfNat hlt, Nat.cast_sub (by omega), Nat.cast_one] at hle
  exact ⟨_, _, dlSplit_inside hfin (flt_eq_false_of_fle hlo) (natOf_ffloor_lt hfin h0 (by linarith))⟩

end Sys2Proof.Machine
end

section
/-! SUPPORT. The invariants: each outcome of a step keeps them, on any hardware (spec 10_state.md R25 to R33). -/

namespace Sys2Proof.Machine

/-! ## The parameter ranges -/

theorem inRange_clamp (r : ParamReg) {v : Val} (hv : isNan v = false) : inRange r (clamp v r.lo r.hi) := by
  have hbounds : fle r.lo r.hi = true := by cases r <;> decide
  obtain ⟨hlo, hhi⟩ := clamp_inside hv hbounds
  exact ⟨(fle_iff.mp hlo).2.1, hlo, hhi⟩

theorem Params.inRange_put {P : Params} (hP : P.inRange) {r : ParamReg} {v : Val} (hv : Machine.inRange r v) :
    (P.put r v).inRange := by
  obtain ⟨hrate, hdepth, hcentre, hfeedback, hmix⟩ := hP
  cases r with
  | rate => exact ⟨hv, hdepth, hcentre, hfeedback, hmix⟩
  | depth => exact ⟨hrate, hv, hcentre, hfeedback, hmix⟩
  | centreDelay => exact ⟨hrate, hdepth, hv, hfeedback, hmix⟩
  | feedback => exact ⟨hrate, hdepth, hcentre, hv, hmix⟩
  | mix => exact ⟨hrate, hdepth, hcentre, hfeedback, hv⟩

theorem Params.inRange_default : Params.default.inRange := by decide

/-- What a CONTROL command may write keeps the ranges (R25, R101). -/
theorem ControlWrites.inRange {i : Instr} {P P' : Params} (h : ControlWrites i P P') (hP : P.inRange) : P'.inRange := by
  rcases h with rfl | ⟨r, v, -, hv, rfl⟩
  · exact hP
  · exact Params.inRange_put hP (inRange_clamp r hv)

/-- Every outcome of a step keeps the ranges of both banks (R25, R27). -/
theorem StepTo.keeps_ranges {hw : Hardware} {s t : State} (h : StepTo hw s t) (hP : s.params.inRange)
    (hS : s.snapshot.inRange) : t.params.inRange ∧ t.snapshot.inRange := by
  cases h with
  | idle => exact ⟨hP, hS⟩
  | powerOn => exact ⟨Params.inRange_default, Params.inRange_default⟩
  | discard p => cases p <;> exact ⟨hP, hS⟩
  | sample w rest _ _ _ _ ht =>
    obtain ⟨_, _, _, _, _, _, rfl⟩ := sampleStep_frame ht
    exact ⟨hP, hS⟩
  | audioCommand i w rest left _ _ _ _ _ _ ht =>
    cases ht with
    | started => exact ⟨hP, hP⟩
    | _ => exact ⟨hP, hS⟩
  | control i P out w rest left _ _ _ hwrites => exact ⟨hwrites.inRange hP, hS⟩
  | illegal p => cases p <;> exact ⟨hP, hS⟩
  | short p => cases p <;> exact ⟨hP, hS⟩

/-- Settles O50: only a SET writes the live bank, with a clamped value, and the snapshot is a copy of it. -/
theorem stepKeepsTheParameterRanges : Obligations.StepKeepsTheParameterRanges :=
  fun _ _ hP hS h => (stepOn_next h).keeps_ranges hP hS

/-! ## The structure -/

/-- A bank in canonical form, of slots the hardware has (R30). -/
abbrev bankOk (hw : Hardware) (m : Memory) : Prop := Memory.wf m ∧ ∀ x ∈ m, x.1 < hw.capMax

theorem bankOk_clearBelow {hw : Hardware} {m : Memory} (h : bankOk hw m) (cap : Nat) : bankOk hw (Memory.clearBelow cap m) :=
  ⟨Memory.wf_clearBelow h.1 cap, fun x hx => h.2 x (List.mem_of_mem_filter hx)⟩

theorem bankOk_write {hw : Hardware} {m : Memory} (h : bankOk hw m) {k : Nat} (hk : k < hw.capMax) (v : Word) :
    bankOk hw (Memory.write m k v) := by
  refine ⟨Memory.wf_write h.1 k v, fun x hx => ?_⟩
  rcases Memory.mem_write hx with hx | rfl
  · exact h.2 x hx
  · exact hk

theorem bankOk_free (hw : Hardware) (count ch : Nat) : bankOk hw (freeChannel hw count ch).dl := by
  refine ⟨Memory.wf_ofWrites _, fun x hx => ?_⟩
  simpa using (List.mem_filter.mp (Memory.mem_ofWrites hx)).2

theorem bankOk_clearAll {hw : Hardware} {s : State} (h : ∀ c ∈ s.chans, bankOk hw c.dl) :
    ∀ c ∈ (clearAll s).chans, bankOk hw c.dl := by
  intro c hc
  rw [clearAll_chans, List.mem_append] at hc
  rcases hc with hc | hc
  · obtain ⟨c', hc', rfl⟩ := List.mem_map.mp hc
    exact bankOk_clearBelow (h c' (List.mem_of_mem_take hc')) _
  · exact h c (List.mem_of_mem_drop hc)

/-- After CLEAR every configured cursor is the slot 0 of its buffer (R176). -/
theorem cursors_clearAll {s : State} (hcap : 0 < s.cap) : ∀ ch < s.nch, (clearAll s).cursor ch < s.cap := by
  intro ch hch
  obtain ⟨-, hcursor, -⟩ := clearAll_configured s hch
  rwa [hcursor]

section
variable {hw : Hardware} {s t : State}

/-- Words taken that make no command yet keep the structure (R72). -/
theorem StructInvOn.setTaken (h : StructInvOn hw s) {p : Port} {ws : List Word} (hd : decode p ws = .incomplete)
    (hrun : p = .audio → s.blockRunning = false) (left : List Input) :
    StructInvOn hw (State.setTaken p ws { s with inputs := left }) := by
  cases p with
  | audio =>
    have hblock : s.blockRunning ≠ true := by simp [hrun rfl]
    exact ⟨h.rate, h.sizes, h.cap, h.cursors, h.banks, h.canonical, fun hr => absurd hr hblock, hd, h.controlFraming⟩
  | control => exact ⟨h.rate, h.sizes, h.cap, h.cursors, h.banks, h.canonical, h.block, h.audioFraming, hd⟩

theorem StructInvOn.withInputs (h : StructInvOn hw s) (left : List Input) : StructInvOn hw { s with inputs := left } :=
  ⟨h.rate, h.sizes, h.cap, h.cursors, h.banks, h.canonical, h.block, h.audioFraming, h.controlFraming⟩

/-- Answers, the parameters and the fault flags are no part of the structure. -/
theorem StructInvOn.respond (h : StructInvOn hw s) (p : Port) (w : Word) : StructInvOn hw (respond p w s) := by
  cases p <;>
    exact ⟨h.rate, h.sizes, h.cap, h.cursors, h.banks, h.canonical, h.block, h.audioFraming, h.controlFraming⟩

theorem StructInvOn.raiseFault (h : StructInvOn hw s) (p : Port) (code : Word) : StructInvOn hw (raiseFault p code s) := by
  cases p <;>
    exact ⟨h.rate, h.sizes, h.cap, h.cursors, h.banks, h.canonical, h.block, h.audioFraming, h.controlFraming⟩

theorem StructInvOn.withParams (h : StructInvOn hw s) (P : Params) (out : List Word) :
    StructInvOn hw { s with params := P, controlOut := out } :=
  ⟨h.rate, h.sizes, h.cap, h.cursors, h.banks, h.canonical, h.block, h.audioFraming, h.controlFraming⟩

/-- Power-on leaves no configuration, empty banks and both ports at a command boundary (R220). -/
theorem structInvOn_powerOn (hw : Hardware) (rest : List Input) (s : State) : StructInvOn hw (powerOn hw rest s) where
  rate := nofun
  sizes := nofun
  cap := nofun
  cursors := nofun
  banks := List.length_replicate
  canonical c hc := by
    rw [List.eq_of_mem_replicate hc]
    exact ⟨by simp [Channel.blank, Memory.wf], nofun⟩
  block := nofun
  audioFraming := rfl
  controlFraming := rfl

/-- An accepted PREPARE configures what it has checked (R170, R171). -/
theorem StructInvOn.configure (h : StructInvOn hw s) (hrun : s.blockRunning = false) {sr : Val} {m n : Int}
    (hm : fitsInt32 m) (hok : checkCfg hw sr m n = stOk) : StructInvOn hw (configure sr m n s) := by
  obtain ⟨hnan, hmin, hinf, hn, hmax, hm1, hcap⟩ := (checkCfg_ok_iff hw sr m n).mp hok
  obtain ⟨-, hm31⟩ := hm
  have hblk : ((BitVec.ofInt 32 m).toNat : Int) = m := by
    rw [BitVec.toNat_ofInt]
    omega
  have hpos : 0 < capacity sr := lt_of_lt_of_le (by norm_num) (four_le_capacity hmin)
  refine ⟨fun _ => ⟨finite_of_accepted hnan hmin hinf, hmin⟩, fun _ => ?_, fun _ => ⟨rfl, hcap⟩,
    fun _ => cursors_clearAll (s := { s with nch := n.toNat, cap := capacity sr }) hpos, ?_,
    bankOk_clearAll h.canonical, ?_, h.audioFraming, h.controlFraming⟩
  · rw [configure_nch, configure_maxBlk]
    omega
  · exact (clearAll_length _).trans h.banks
  · rw [configure_blockRunning, hrun]
    nofun

/-- A refused PREPARE loses the configuration and keeps the form of the banks (R35; log 8). -/
theorem StructInvOn.loseConfig (h : StructInvOn hw s) (hrun : s.blockRunning = false) : StructInvOn hw (loseConfig hw s) where
  rate := nofun
  sizes := nofun
  cap := nofun
  cursors := nofun
  banks := by simp [Machine.loseConfig]
  canonical c hc := by
    obtain ⟨ch, -, rfl⟩ := List.mem_map.mp hc
    exact bankOk_free hw _ ch
  block := by
    rw [loseConfig_blockRunning, hrun]
    nofun
  audioFraming := h.audioFraming
  controlFraming := h.controlFraming

theorem StructInvOn.clearAll (h : StructInvOn hw s) (he : s.engineState = .prepared) : StructInvOn hw (clearAll s) := by
  obtain ⟨hcap, -⟩ := h.cap he
  have hpos : 0 < s.cap := by
    rw [hcap]
    exact lt_of_lt_of_le (by norm_num) (four_le_capacity (h.rate he).2)
  exact ⟨h.rate, h.sizes, h.cap, fun _ => cursors_clearAll hpos, (clearAll_length s).trans h.banks,
    bankOk_clearAll h.canonical, h.block, h.audioFraming, h.controlFraming⟩

/-- A block starts at its first sample, at a command boundary (R31, R159). -/
theorem StructInvOn.startBlock (h : StructInvOn hw s) (he : s.engineState = .prepared) {n : Nat} (hn : n ≤ s.maxBlk.toNat)
    (htaken : s.audioTaken = []) : StructInvOn hw (beginBlock n (latch (Machine.respond .audio stOk s))) := by
  refine ⟨h.rate, h.sizes, h.cap, h.cursors, h.banks, h.canonical, fun hr => ?_, h.audioFraming, h.controlFraming⟩
  have hpos : 0 < s.nch * n := by simpa using hr
  exact ⟨he, Nat.pos_of_mul_pos_right hpos, Nat.pos_of_mul_pos_left hpos, hn, htaken⟩

/-- Every AUDIO command keeps the structure. -/
theorem AudioMeaning.keeps_struct {i : Instr} (h : AudioMeaning hw s i t) (hs : StructInvOn hw s) (hwf : i.WellFormed)
    (hrun : s.blockRunning = false) (htaken : s.audioTaken = []) : StructInvOn hw t := by
  cases h with
  | configured r m n hok => exact (hs.configure hrun (wellFormed_prepare.mp hwf).1 hok).respond _ _
  | refused => exact (hs.loseConfig hrun).respond _ _
  | cleared he => exact (hs.clearAll he).respond _ _
  | resetNotPrepared | processNotPrepared | tooLong => exact hs.raiseFault _ _
  | started n he hn => exact hs.startBlock he hn htaken

/-- A sample leaves the counters at the next one, if the block has one (R161, R165). -/
theorem sampleStep_counters {x : Word} (h : sampleStep hw x s = .next t) :
    t.smpIdx = (if s.smpIdx + 1 < s.blkN then s.smpIdx + 1 else 0) ∧
    t.chIdx = (if s.smpIdx + 1 < s.blkN then s.chIdx else s.chIdx + 1) ∧
    t.blockRunning = (if s.smpIdx + 1 < s.blkN then s.blockRunning else decide (s.chIdx + 1 < s.nch)) := by
  obtain ⟨c, c', y, -, -, -, rfl⟩ := sampleStep_next h
  rw [advanceBlock_eq]
  simp

/-- A sample of a running block keeps the structure: the store and the cursor stay inside the buffer (R137, R138). -/
theorem StructInvOn.sample (hs : StructInvOn hw s) (hrun : s.blockRunning = true) {x : Word}
    (h : sampleStep hw x s = .next t) : StructInvOn hw t := by
  obtain ⟨he, hch, hsmp, hblk, htaken⟩ := hs.block hrun
  obtain ⟨hcap, hcapMax⟩ := hs.cap he
  obtain ⟨c, c', v, hc, hchans, -, hcursor, -, hdl, -⟩ := sampleStep_channels h
  obtain ⟨hcur, hnext⟩ := sampleStep_cursor h
  obtain ⟨hsmpIdx, hchIdx, hrunning⟩ := sampleStep_counters h
  have hother (ch : Nat) (hne : ch ≠ s.chIdx) : t.cursor ch = s.cursor ch :=
    (channel_reads_congr (sampleStep_other_channel h hne)).2.2
  obtain ⟨chans, out, count, ch', k', run, rfl⟩ := sampleStep_frame h
  refine ⟨hs.rate, hs.sizes, hs.cap, fun _ ch hlt => ?_, ?_, fun d hd => ?_, fun hr => ?_, hs.audioFraming, hs.controlFraming⟩
  · show State.cursor _ ch < s.cap
    by_cases hne : ch = s.chIdx
    · rw [hne, hnext]; exact Nat.mod_lt _ (by omega)
    · rw [hother ch hne]; exact hs.cursors he ch hlt
  · rw [hchans, List.length_set]; exact hs.banks
  · rw [hchans] at hd
    rcases List.mem_or_eq_of_mem_set hd with hd | rfl
    · exact hs.canonical d hd
    · rw [hdl]
      exact bankOk_write (hs.canonical c (List.mem_of_getElem? hc)) (by omega) v
  · simp only at hsmpIdx hchIdx hrunning hr ⊢
    subst hsmpIdx hchIdx
    rw [hr] at hrunning
    split at hrunning
    · next hmore => exact ⟨he, by rwa [if_pos hmore], by rwa [if_pos hmore], hblk, htaken⟩
    · next hlast => exact ⟨he, by rw [if_neg hlast]; simpa using hrunning.symm, by rw [if_neg hlast]; omega, hblk, htaken⟩

/-- Every outcome of a step keeps the structure. -/
theorem StepTo.keeps_struct (h : StepTo hw s t) (hs : StructInvOn hw s) : StructInvOn hw t := by
  cases h with
  | idle => exact hs
  | powerOn rest => exact structInvOn_powerOn hw rest s
  | discard p w rest => exact (hs.withInputs rest).respond p _
  | sample w rest _ _ _ hrun ht => exact (hs.withInputs rest).sample hrun ht
  | audioCommand i w rest left _ _ _ hrun _ hwf ht =>
    exact ht.keeps_struct (hs.setTaken rfl (fun _ => hrun) left) hwf hrun rfl
  | control i P out w rest left => exact (hs.setTaken rfl (by simp) left).withParams P out
  | illegal p w rest left _ _ hrun => exact (hs.setTaken (by cases p <;> rfl) hrun left).raiseFault p _
  | short p w rest left ws _ _ hrun _ hd => exact hs.setTaken hd hrun left

end

/-- Settles O51: every outcome of a step keeps the structure. -/
theorem stepKeepsTheStructure : Obligations.StepKeepsTheStructure := fun _ _ hs h => (stepOn_next h).keeps_struct hs

/-! ## The increment and the phases -/

theorem exists_twoHundred : ∃ c : Val, isFinite c = true ∧ ratOf c = 200 := by
  obtain ⟨c, hc, hval⟩ := exists_natValue 200 0 (by norm_num) (by norm_num)
  exact ⟨c, hc, by rw [hval]; norm_num⟩

/-- An increment in its range (R126). -/
abbrev incInRange (v : Val) : Prop := isFinite v = true ∧ fle posZero v = true ∧ fle v valHundred = true

/-- The quotient of a rate of at most 100 by a sample rate of at least one (R126). -/
theorem increment_inRange {nan : NanSite → Val} {rate sr : Val} (hrate : inRange .rate rate) (hsr : isFinite sr = true)
    (hmin : fle Config.srMin sr = true) :
    incInRange (increment nan rate sr) := by
  obtain ⟨-, hlo, hhi⟩ := hrate
  obtain ⟨-, -, h0⟩ := fle_iff_ratOf.mp (fle_trans (by decide : fle posZero ParamReg.rate.lo = true) hlo)
  obtain ⟨-, -, h100⟩ := fle_iff_ratOf.mp hhi
  obtain ⟨-, -, h1⟩ := fle_iff_ratOf.mp hmin
  rw [ratOf_posZero] at h0
  rw [Config.srMin, ← valOne, ratOf_valOne] at h1
  have hfin : isFinite rate = true := finite_of_between (b := valHundred) rfl h0 h100
  have hz : isZero sr = false := Bool.eq_false_iff.mpr fun hz => by
    rw [ratOf_eq_zero.mpr hz] at h1
    linarith
  obtain ⟨hfin', h0', hle'⟩ := (roundsTo_fdiv (nan := nan .increment) hfin hsr hz).between (c := valHundred) rfl
    (div_nonneg h0 (by linarith)) ((div_le_self h0 h1).trans h100)
  have hnan := not_nan_of_finite hfin'
  exact ⟨hfin', fle_iff_ratOf.mpr ⟨rfl, hnan, by rwa [ratOf_posZero]⟩, fle_iff_ratOf.mpr ⟨hnan, rfl, hle'⟩⟩

/-- The bounds of a phase as exact values. -/
theorem phaseInUnit_ratOf {v : Val} (h : phaseInUnit v) : isFinite v = true ∧ 0 ≤ ratOf v ∧ ratOf v ≤ 1 := by
  obtain ⟨-, hlo, hhi⟩ := h
  obtain ⟨-, -, h0⟩ := fle_iff_ratOf.mp hlo
  obtain ⟨-, -, h1⟩ := fle_iff_ratOf.mp (fle_of_flt hhi)
  rw [ratOf_posZero] at h0
  exact ⟨finite_of_between (b := valOne) rfl h0 h1, h0, ratOf_valOne ▸ h1⟩

/-- A phase moved on by a value in `[0, 100]` wraps into `[0, 1)` (R124). -/
theorem wrap1_fadd_inUnit (nan nan' : Val) {phase v : Val} (hphase : phaseInUnit phase) (hv : isFinite v = true)
    (h0 : 0 ≤ ratOf v) (h100 : ratOf v ≤ 100) : phaseInUnit (wrap1 nan (fadd nan' phase v)) := by
  obtain ⟨hfin, hp0, hp1⟩ := phaseInUnit_ratOf hphase
  obtain ⟨c, hc, hval⟩ := exists_twoHundred
  obtain ⟨hsum, hsum0, -⟩ := (roundsTo_fadd (nan := nan') hfin hv).between hc (by linarith) (by linarith)
  exact wrap1_inUnit nan hsum (ratOf_nonneg_iff.mp hsum0)

theorem phases_clearAll (s : State) : ∀ ch < s.nch, phaseInUnit ((clearAll s).phase ch) := by
  intro ch hch
  obtain ⟨hphase, -⟩ := clearAll_configured s hch
  rw [hphase]
  decide

section
variable {hw : Hardware} {s t : State}

/-- A sample keeps the phases: the current one wraps, the others stay (R124). -/
theorem InvOn.sample_phases (hs : InvOn hw s) (he : s.engineState = .prepared) {x : Word} (h : sampleStep hw x s = .next t) :
    ∀ ch < s.nch, phaseInUnit (t.phase ch) := by
  intro ch hch
  by_cases hne : ch = s.chIdx
  · subst hne
    obtain ⟨c, c', v, hc, -, hc', -, -, -, hphase⟩ := sampleStep_channels h
    have hold := hs.phases he s.chIdx hch
    obtain ⟨hinc, hinc0, hinc100⟩ := hs.inc
    obtain ⟨-, -, h0⟩ := fle_iff_ratOf.mp hinc0
    obtain ⟨-, -, h100⟩ := fle_iff_ratOf.mp hinc100
    rw [ratOf_posZero] at h0
    rw [ratOf_valHundred] at h100
    rw [phase_of_getElem? hc] at hold
    rw [phase_of_getElem? hc', hphase]
    exact wrap1_fadd_inUnit _ _ hold hinc h0 h100
  · rw [(channel_reads_congr (sampleStep_other_channel h hne)).2.1]
    exact hs.phases he ch hch

/-- Every AUDIO command keeps the increment and the phases in their ranges. -/
theorem AudioMeaning.keeps_values {i : Instr} (h : AudioMeaning hw s i t) (hs : InvOn hw s) :
    incInRange t.inc ∧
    (t.engineState = .prepared → ∀ ch < t.nch, phaseInUnit (t.phase ch)) := by
  cases h with
  | configured r m n => exact ⟨hs.inc, fun _ => phases_clearAll { s with nch := n.toNat, cap := capacity _ }⟩
  | refused => exact ⟨hs.inc, nofun⟩
  | cleared => exact ⟨hs.inc, fun _ => phases_clearAll s⟩
  | resetNotPrepared | processNotPrepared | tooLong => exact ⟨hs.inc, hs.phases⟩
  | started n he =>
    obtain ⟨hsr, hmin⟩ := hs.struct.rate he
    exact ⟨increment_inRange hs.params.1 hsr hmin, hs.phases⟩

theorem InvOn.setTaken (h : InvOn hw s) {p : Port} {ws : List Word} (hd : decode p ws = .incomplete)
    (hrun : p = .audio → s.blockRunning = false) (left : List Input) :
    InvOn hw (State.setTaken p ws { s with inputs := left }) := by
  have hstruct := h.struct.setTaken hd hrun left
  cases p <;> exact ⟨hstruct, h.params, h.snapshot, h.inc, h.phases⟩

theorem InvOn.withInputs (h : InvOn hw s) (left : List Input) : InvOn hw { s with inputs := left } :=
  ⟨h.struct.withInputs left, h.params, h.snapshot, h.inc, h.phases⟩

theorem invOn_powerOn (hw : Hardware) (rest : List Input) (s : State) : InvOn hw (powerOn hw rest s) :=
  ⟨structInvOn_powerOn hw rest s, Params.inRange_default, Params.inRange_default,
    (by decide : incInRange posZero), nofun⟩

/-- Every outcome of a step keeps the increment and the phases in their ranges (R29, R126). -/
theorem StepTo.keeps_values (h : StepTo hw s t) (hs : InvOn hw s) :
    incInRange t.inc ∧
    (t.engineState = .prepared → ∀ ch < t.nch, phaseInUnit (t.phase ch)) := by
  cases h with
  | idle => exact ⟨hs.inc, hs.phases⟩
  | powerOn rest => exact ⟨(invOn_powerOn hw rest s).inc, nofun⟩
  | discard p => cases p <;> exact ⟨hs.inc, hs.phases⟩
  | sample w rest _ _ _ hrun ht =>
    obtain ⟨he, -⟩ := hs.struct.block hrun
    have hphases := (hs.withInputs rest).sample_phases he ht
    obtain ⟨_, _, _, _, _, _, rfl⟩ := sampleStep_frame ht
    exact ⟨hs.inc, fun _ => hphases⟩
  | audioCommand i w rest left _ _ _ hrun _ _ ht => exact ht.keeps_values (hs.setTaken rfl (fun _ => hrun) left)
  | control => exact ⟨hs.inc, hs.phases⟩
  | illegal p => cases p <;> exact ⟨hs.inc, hs.phases⟩
  | short p => cases p <;> exact ⟨hs.inc, hs.phases⟩

/-- Every step keeps every invariant. -/
theorem stepOn_keeps_inv (hs : InvOn hw s) (h : stepOn hw s = .next t) : InvOn hw t := by
  have hto := stepOn_next h
  obtain ⟨hP, hS⟩ := hto.keeps_ranges hs.params hs.snapshot
  obtain ⟨hinc, hphases⟩ := hto.keeps_values hs
  exact ⟨hto.keeps_struct hs.struct, hP, hS, hinc, hphases⟩

end

/-! ## The statements -/

/-- Settles O52: every step of any hardware keeps them, so the machine's does. -/
theorem stepKeepsTheInvariants : Obligations.StepKeepsTheInvariants := fun _ _ hs h => stepOn_keeps_inv hs h

/-- Settles O53: reset is power-on with nothing to arrive, and every step keeps the invariants. -/
theorem everyHardwareKeepsTheInvariants : Obligations.EveryHardwareKeepsTheInvariants :=
  fun hw _ => ⟨invOn_powerOn hw [] State.reset, fun _ _ hs h => stepOn_keeps_inv hs h⟩

/-- Settles O54: the machine's reset is power-on of the default hardware. -/
theorem resetMeetsTheInvariants : Obligations.ResetMeetsTheInvariants := invOn_powerOn defaultHardware [] State.reset

/-! ## No step stops -/

/-- The oscillator of a phase in `[0, 1)` gives a value in `[-1, 1]` on every admitted hardware (R121, R122). -/
theorem oscValue_inRange {hw : Hardware} (hok : HardwareOk hw) {ch : Nat} (hch : ch < hw.nchMax) (nan : NanSite → Val)
    {phase : Val} (hphase : phaseInUnit phase) :
    fle valNegOne (oscValue hw.wave (hw.phaseOffset ch) nan phase) = true ∧
    fle (oscValue hw.wave (hw.phaseOffset ch) nan phase) valOne = true := by
  obtain ⟨hfin, h0, h1⟩ := phaseInUnit_ratOf (hok.offsets ch hch)
  obtain ⟨hnan, hlo, hhi⟩ :=
    wrap1_fadd_inUnit (nan .oscWrap) (nan .oscSum) hphase hfin h0 (h1.trans (by norm_num))
  exact (hok.wave.1 _ hnan hlo hhi).2

/-- In a state that meets the invariants the current channel of a running block exists, and its tick runs to its end (R194). -/
theorem tick_runs {hw : Hardware} {s : State} (hok : HardwareOk hw) (hs : InvOn hw s) (hrun : s.blockRunning = true) :
    ∃ c w, s.chans[s.chIdx]? = some c ∧ s.chIdx < s.nch ∧ ∀ x,
      tickChannel hw.wave (hw.phaseOffset s.chIdx) s.nan s.snapshot s.inc s.sr s.cap c x =
        some (oscAdvance s.nan s.inc (cursorAdvance s.cap (fbWrite s.nan s.snapshot.feedback x w c)),
          mixOut s.nan s.snapshot.mix x w) := by
  obtain ⟨he, hch, -⟩ := hs.struct.block hrun
  obtain ⟨-, hnchMax, -⟩ := hs.struct.sizes he
  obtain ⟨hcap, hcapMax⟩ := hs.struct.cap he
  obtain ⟨hsr, hmin⟩ := hs.struct.rate he
  have hbanks := hs.struct.banks
  obtain ⟨c, hc⟩ : ∃ c, s.chans[s.chIdx]? = some c := ⟨_, List.getElem?_eq_getElem (by omega)⟩
  have hphase := hs.phases he s.chIdx hch
  have hcursor := hs.struct.cursors he s.chIdx hch
  rw [phase_of_getElem? hc] at hphase
  rw [cursor_of_getElem? hc] at hcursor
  obtain ⟨hlo, hhi⟩ := oscValue_inRange hok (hch.trans_le hnchMax) s.nan hphase
  obtain ⟨i, f, hsplit⟩ := dlSplit_dclamp (nan := s.nan) (isNan_delayCalc (nan := s.nan) hs.snapshot hsr hlo hhi)
    (Nat.zero_lt_of_lt hcursor) (hcapMax.trans hok.addressable)
  exact ⟨c, _, hc, hch, fun x => tickChannel_of_read (fracRead_of_split hsplit c) hcursor x⟩

/-- Every command gives a next state (R194). -/
theorem execOn_gives_next (hw : Hardware) (i : Instr) (s : State) : ∃ t, execOn hw i s = .next t := by
  cases hp : i.port with
  | control =>
    obtain ⟨P, out, h, -⟩ := execOn_control hw hp s
    exact ⟨_, h⟩
  | audio =>
    cases i with
    | prepare r m n =>
      rcases execPrepareOn_cases hw r m n s with ⟨-, h⟩ | ⟨-, -, h⟩ | ⟨-, -, h⟩ <;> exact ⟨_, h⟩
    | reset => rcases execReset_cases s with ⟨-, h⟩ | ⟨-, -, h⟩ | ⟨-, -, h⟩ <;> exact ⟨_, h⟩
    | process n =>
      rcases execProcess_cases n s with ⟨-, h⟩ | ⟨-, -, h⟩ | ⟨-, -, -, h⟩ | ⟨-, -, -, h⟩ <;> exact ⟨_, h⟩
    | _ => cases hp

/-- Settles O55: a command always gives a next state, and the tick of a state that meets the invariants stays in the address
space. -/
theorem noStepStops : Obligations.NoStepStops := by
  intro hw s hok hs
  rcases stepOn_cases hw s with ⟨-, h⟩ | ⟨rest, -, h⟩ | ⟨p, w, rest, -, -, h⟩ | ⟨w, rest, -, -, hrun, h⟩ |
    ⟨p, w, rest, -, -, -, h⟩
  · exact ⟨_, h⟩
  · exact ⟨_, h⟩
  · exact ⟨_, h⟩
  · obtain ⟨c, v, hc, hch, htick⟩ := tick_runs hok hs hrun
    exact ⟨_, h.trans (sampleStep_of_tick (s := { s with inputs := rest }) hc hch (htick w))⟩
  · rw [h]
    unfold commandStep
    split
    · exact execOn_gives_next hw _ _
    · exact ⟨_, rfl⟩
    · exact ⟨_, rfl⟩

end Sys2Proof.Machine
end

section
/-! SUPPORT. A whole block: PROCESS, its samples, and the CONTROL commands that arrive between them (spec
43_mixer_pipeline.md R155, R159 to R163; 20_memory.md R58; 30_encoding.md R72). -/

namespace Sys2Proof.Machine

/-! ## Legal CONTROL words -/

theorem LegalControl.of_append {ws vs : List Word} (h : LegalControl (ws ++ vs)) : LegalControl ws := by
  obtain ⟨cmds, hcmds, hpre⟩ := h
  exact ⟨cmds, hcmds, (List.prefix_append ws vs).trans hpre⟩

/-- Legal words are no illegal header: they begin with a command, or a command begins with them (R84). -/
theorem LegalControl.decode_ne_illegal {ws : List Word} (h : LegalControl ws) (why : Reject) :
    decode .control ws ≠ .illegal why := by
  obtain ⟨cmds, hcmds, hpre⟩ := h
  cases cmds with
  | nil => rw [List.prefix_nil.mp hpre]; nofun
  | cons i cmds =>
    obtain ⟨hwf, hport⟩ := hcmds i (by simp)
    rw [List.flatMap_cons] at hpre
    rw [← hport]
    rcases List.prefix_or_prefix_of_prefix hpre (List.prefix_append (encode i) _) with hshort | ⟨extra, rfl⟩
    · rw [List.prefix_iff_eq_take.mp hshort]
      rcases Nat.lt_or_ge ws.length (encode i).length with hlt | hge
      · rw [decode_encode_take hwf hlt]; nofun
      · rw [List.take_of_length_le hge, decode_encode hwf]; nofun
    · rw [decodeOfEncodeIsTheCommand i extra hwf]; nofun

/-- After a command of a legal sequence the rest is legal: the words tell which command they begin with. -/
theorem LegalControl.after_command {i : Instr} {ws : List Word} (hwf : i.WellFormed) (hport : i.port = .control)
    (h : LegalControl (encode i ++ ws)) : LegalControl ws := by
  obtain ⟨cmds, hcmds, tail, htail⟩ := h
  rw [List.append_assoc] at htail
  have hdecode := decodeOfEncodeIsTheCommand i (ws ++ tail) hwf
  cases cmds with
  | nil => simp [encode] at htail
  | cons j cmds =>
    obtain ⟨hwf', hport'⟩ := hcmds j (by simp)
    have hdecode' := decodeOfEncodeIsTheCommand j (cmds.flatMap encode) hwf'
    rw [htail, List.flatMap_cons, hport, ← hport', hdecode'] at hdecode
    obtain ⟨-, hrest⟩ := Decoded.command.inj hdecode
    exact ⟨cmds, fun i hi => hcmds i (List.mem_cons_of_mem _ hi), tail, hrest.symm⟩

/-- The words on one port up to the first of the other: a part taken leaves the other part (R58). -/
theorem control_words_split {cs vs : List Word} {x : Word} {r left : List Input}
    (h : cs.map (Input.word .control) ++ .word .audio x :: r = vs.map (Input.word .control) ++ left) :
    ∃ cs', cs = vs ++ cs' ∧ left = cs'.map (Input.word .control) ++ .word .audio x :: r := by
  induction vs generalizing cs with
  | nil => exact ⟨cs, rfl, h.symm⟩
  | cons v vs ih =>
    cases cs with
    | nil => simp at h
    | cons c cs =>
      simp only [List.map_cons, List.cons_append, List.cons.injEq, Input.word.injEq, true_and] at h
      obtain ⟨rfl, h⟩ := h
      obtain ⟨cs', rfl, hleft⟩ := ih h
      exact ⟨cs', rfl, hleft⟩

/-! ## CONTROL words between two samples -/

/-- The state with another CONTROL side, and other words still to arrive. -/
def withControl (P : Params) (taken out : List Word) (ins : List Input) (s : State) : State :=
  { s with params := P, controlTaken := taken, controlOut := out, inputs := ins }

/-- The words that end a command go beyond those taken before, which were none yet (R72). -/
theorem extra_shorter {taken vs extra : List Word} {i : Instr} (hwf : i.WellFormed) (hport : i.port = .control)
    (hinc : decode .control taken = .incomplete) (h : taken ++ vs = encode i ++ extra) : extra.length < vs.length := by
  rcases List.append_eq_append_iff.mp h with ⟨a, henc, hvs⟩ | ⟨b, htaken, -⟩
  · have ha : a ≠ [] := by
      rintro rfl
      rw [List.append_nil] at henc
      rw [← henc, ← hport, decode_encode hwf] at hinc
      cases hinc
    rw [hvs, List.length_append]
    exact Nat.lt_add_of_pos_left (List.length_pos_iff.mpr ha)
  · rw [htaken, ← hport, decodeOfEncodeIsTheCommand i b hwf] at hinc
    cases hinc

section
variable {hw : Hardware}

/-- One step at legal CONTROL words before a sample: some are taken, no fault is raised, and only the CONTROL side changes
(R102, R196). -/
theorem stepOn_legal_control {s : State} (hf : s.fault = false) (hinc : decode .control s.controlTaken = .incomplete) {c : Word}
    {cs more : List Word} (hlegal : LegalControl (s.controlTaken ++ (c :: cs) ++ more)) {x : Word} {r : List Input}
    (hin : s.inputs = (c :: cs).map (.word .control) ++ .word .audio x :: r) :
    ∃ P taken out cs', cs'.length < (c :: cs).length ∧ LegalControl (taken ++ cs' ++ more) ∧
      decode .control taken = .incomplete ∧
      stepOn hw s = .next (withControl P taken out (cs'.map (.word .control) ++ .word .audio x :: r) s) := by
  obtain ⟨ws, left, hwords, hcases⟩ := commandStep_cases hw (s := s) hin
  rw [hin] at hwords
  obtain ⟨cs', hcs, rfl⟩ := control_words_split hwords
  rw [stepOn_command hf (by simp) hin]
  rcases hcases with ⟨i, extra, hd, hstep⟩ | ⟨why, hd, -⟩ | ⟨hd, hstep⟩
  · obtain ⟨hwf, hport, hwords⟩ := decodedWordsAreTheEncoding _ _ _ _ hd
    have hframe := execOn_control hw hport
    obtain ⟨P, out, hexec, -⟩ := hframe (State.setTaken .control [] { s with inputs := extra.map (.word .control) ++ _ })
    refine ⟨P, [], out, extra ++ cs', ?_, ?_, rfl, ?_⟩
    · have hlt := extra_shorter hwf hport hinc hwords
      rw [hcs, List.length_append, List.length_append]
      omega
    · refine LegalControl.after_command hwf hport ?_
      have hregroup : s.controlTaken ++ (c :: cs) ++ more = encode i ++ (extra ++ cs' ++ more) := by
        have hwords' : s.controlTaken ++ c :: ws = encode i ++ extra := hwords
        calc s.controlTaken ++ (c :: cs) ++ more = (s.controlTaken ++ c :: ws) ++ (cs' ++ more) := by rw [hcs]; simp
          _ = encode i ++ (extra ++ cs' ++ more) := by rw [hwords']; simp
      rw [List.nil_append, ← hregroup]
      exact hlegal
    · rw [hstep, hexec, List.map_append, List.append_assoc]
      rfl
  · refine absurd hd (LegalControl.decode_ne_illegal (LegalControl.of_append (vs := cs' ++ more) ?_) why)
    rw [hcs] at hlegal
    simpa [List.append_assoc, State.taken] using hlegal
  · refine ⟨s.params, s.controlTaken ++ c :: ws, s.controlOut, cs', ?_, ?_, hd, hstep⟩
    · rw [hcs, List.length_append]
      simp
    · rw [hcs] at hlegal
      simpa [List.append_assoc] using hlegal

/-- All the legal CONTROL words before a sample (R58). -/
theorem run_legal_control (n : Nat) {s : State} (hf : s.fault = false) (hinc : decode .control s.controlTaken = .incomplete)
    {cs more : List Word} (hn : cs.length ≤ n) (hlegal : LegalControl (s.controlTaken ++ cs ++ more)) {x : Word}
    {r : List Input} (hin : s.inputs = cs.map (.word .control) ++ .word .audio x :: r) :
    ∃ k P taken out, k ≤ cs.length ∧ LegalControl (taken ++ more) ∧
      runStepsOn hw k s = .next (withControl P taken out (.word .audio x :: r) s) := by
  induction n generalizing s cs with
  | zero =>
    obtain rfl := List.length_eq_zero_iff.mp (Nat.le_zero.mp hn)
    refine ⟨0, s.params, s.controlTaken, s.controlOut, le_rfl, by simpa using hlegal, ?_⟩
    rw [runStepsOn_zero, withControl, ← show s.inputs = .word .audio x :: r by simpa using hin]
  | succ n ih =>
    cases cs with
    | nil =>
      refine ⟨0, s.params, s.controlTaken, s.controlOut, le_rfl, by simpa using hlegal, ?_⟩
      rw [runStepsOn_zero, withControl, ← show s.inputs = .word .audio x :: r by simpa using hin]
    | cons c cs =>
      obtain ⟨P, taken, out, cs', hlt, hlegal', hinc', hstep⟩ := stepOn_legal_control (hw := hw) hf hinc hlegal hin
      obtain ⟨k, P', taken', out', hk, hlegal'', hrun⟩ :=
        ih (s := withControl P taken out (cs'.map (.word .control) ++ .word .audio x :: r) s) hf hinc' (by omega) hlegal' rfl
      exact ⟨k + 1, P', taken', out', by omega, hlegal'', (runStepsOn_succ hstep k).trans hrun⟩

theorem runStepsOn_keeps_inv {k : Nat} {s t : State} (hs : InvOn hw s) (h : runStepsOn hw k s = .next t) : InvOn hw t := by
  induction k generalizing s with
  | zero => cases h; exact hs
  | succ k ih =>
    rw [runStepsOn] at h
    split at h
    · next u hu => exact ih (stepOn_keeps_inv hs hu) h
    · cases h
    · cases h

/-! ## The samples of a block -/

/-- How many samples of the running block are still to come (R161, R165). -/
def samplesLeft (s : State) : Nat := if s.blockRunning then (s.nch - s.chIdx) * s.blkN - s.smpIdx else 0

theorem running_of_samplesLeft {s : State} (h : 0 < samplesLeft s) : s.blockRunning = true := by
  by_contra hrun
  simp [samplesLeft, hrun] at h

theorem not_running_of_samplesLeft {s : State} (hs : InvOn hw s) (h : samplesLeft s = 0) : s.blockRunning = false := by
  by_contra hrun
  rw [Bool.not_eq_false] at hrun
  obtain ⟨-, hch, hsmp, -⟩ := hs.struct.block hrun
  have hle : 1 * s.blkN ≤ (s.nch - s.chIdx) * s.blkN := Nat.mul_le_mul_right _ (by omega)
  simp only [samplesLeft, hrun, if_true] at h
  omega

/-- A block that begins has all its samples to come (R82, R163). -/
theorem samplesLeft_beginBlock (n : Nat) (s : State) : samplesLeft (beginBlock n s) = s.nch * n := by
  simp only [samplesLeft, beginBlock_blockRunning, beginBlock_nch, beginBlock_chIdx, beginBlock_blkN, beginBlock_smpIdx,
    decide_eq_true_eq, Nat.sub_zero]
  split <;> omega

/-- A sample leaves one sample less to come. -/
theorem samplesLeft_sample {s t : State} (hs : InvOn hw s) (hrun : s.blockRunning = true) {x : Word}
    (h : sampleStep hw x s = .next t) : samplesLeft s = samplesLeft t + 1 := by
  obtain ⟨-, hch, hsmp, -⟩ := hs.struct.block hrun
  obtain ⟨hsmpIdx, hchIdx, hrunning⟩ := sampleStep_counters h
  obtain ⟨chans, out, count, ch', k', run, rfl⟩ := sampleStep_frame h
  simp only at hsmpIdx hchIdx hrunning
  obtain ⟨d, hd⟩ : ∃ d, s.nch - s.chIdx = d + 1 := ⟨s.nch - s.chIdx - 1, by omega⟩
  have hrest : s.nch - (s.chIdx + 1) = d := by omega
  have hmul : (d + 1) * s.blkN = d * s.blkN + s.blkN := Nat.succ_mul _ _
  simp only [samplesLeft, hrun, hd, hmul, if_true, hsmpIdx, hchIdx, hrunning]
  by_cases hmore : s.smpIdx + 1 < s.blkN
  · simp only [if_pos hmore, hd, hmul, if_true]
    omega
  · simp only [if_neg hmore, hrest, decide_eq_true_eq]
    split
    · omega
    · obtain rfl : d = 0 := by omega
      omega

/-- A tick sees nothing of the CONTROL side, nor of what arrives later (R102, R157). -/
theorem sampleStep_withControl {x : Word} {s t : State} (h : sampleStep hw x s = .next t) (P : Params) (taken out : List Word)
    (ins : List Input) : sampleStep hw x (withControl P taken out ins s) = .next (withControl P taken out ins t) := by
  obtain ⟨c, c', y, hc, hch, htick, rfl⟩ := sampleStep_next h
  rw [sampleStep_of_tick (s := withControl P taken out ins s) hc hch htick, advanceBlock_eq, advanceBlock_eq]
  rfl

/-- A sample of a running block on an admitted hardware gives one output word, the input itself at mix zero (R155, R159). -/
theorem sampleStep_runs (hok : HardwareOk hw) {s : State} (hs : InvOn hw s) (hrun : s.blockRunning = true) (x : Word) :
    ∃ t y, sampleStep hw x s = .next t ∧ t.audioOut = s.audioOut ++ [y] ∧
      (feq s.snapshot.mix posZero = true → y = x) := by
  obtain ⟨c, w, hc, hch, htick⟩ := tick_runs hok hs hrun
  refine ⟨_, mixOut s.nan s.snapshot.mix x w, sampleStep_of_tick hc hch (htick x), by simp, fun hmix => ?_⟩
  rw [mixOut, if_pos hmix]

theorem Interleaved.inputs_cons (cs : List Word) (x : Word) (body : Interleaved) :
    Interleaved.inputs ((cs, x) :: body) = cs.map (.word .control) ++ .word .audio x :: Interleaved.inputs body := by
  simp [Interleaved.inputs]

/-- What a run over samples of a block leaves, with CONTROL words between the samples: one output word each, the inputs
themselves at mix zero; and the same of the AUDIO side as without the CONTROL words (R58, R102, R155, R159). -/
structure SamplesRun (hw : Hardware) (s t : State) (k : Nat) (body : Interleaved) (ys : List Word) : Prop where
  steps : k ≤ body.inputs.length
  run : runStepsOn hw k s = .next t
  answers : ys.length = body.length
  out : t.audioOut = s.audioOut ++ ys
  fault : t.fault = s.fault
  audioTaken : t.audioTaken = s.audioTaken
  engineState : t.engineState = s.engineState
  snapshot : t.snapshot = s.snapshot
  left : samplesLeft s = samplesLeft t + body.length
  bypass : feq s.snapshot.mix posZero = true → ys = body.samples
  alone : ∀ P taken out ins,
    runStepsOn hw body.length (withControl P taken out (body.samples.map (.word .audio) ++ ins) s) =
      .next (withControl P taken out ins t)

theorem SamplesRun.refl (s : State) : SamplesRun hw s s 0 [] [] :=
  ⟨le_rfl, rfl, rfl, (List.append_nil _).symm, rfl, rfl, rfl, rfl, rfl, fun _ => rfl, fun _ _ _ _ => rfl⟩

theorem SamplesRun.append {s t u : State} {j k : Nat} {body body' : Interleaved} {ys ys' : List Word}
    (h : SamplesRun hw s t j body ys) (h' : SamplesRun hw t u k body' ys') :
    SamplesRun hw s u (j + k) (body ++ body') (ys ++ ys') where
  steps := by
    simpa [Interleaved.inputs] using Nat.add_le_add h.steps h'.steps
  run := (runStepsOn_add h.run k).trans h'.run
  answers := by rw [List.length_append, List.length_append, h.answers, h'.answers]
  out := by rw [h'.out, h.out, List.append_assoc]
  fault := h'.fault.trans h.fault
  audioTaken := h'.audioTaken.trans h.audioTaken
  engineState := h'.engineState.trans h.engineState
  snapshot := h'.snapshot.trans h.snapshot
  left := by
    rw [List.length_append, h.left, h'.left]
    omega
  bypass hmix := by
    have hmix' : feq t.snapshot.mix posZero = true := by rwa [h.snapshot]
    rw [h.bypass hmix, h'.bypass hmix', Interleaved.samples, Interleaved.samples, Interleaved.samples, List.map_append]
  alone P taken out ins := by
    have hfirst := h.alone P taken out (Interleaved.samples body' |>.map (.word .audio) |>.append ins)
    rw [List.length_append, Interleaved.samples, List.map_append, List.map_append, List.append_assoc]
    exact (runStepsOn_add hfirst _).trans (h'.alone P taken out ins)

/-- One sample of a running block, after the legal CONTROL words before it. -/
theorem run_entry (hok : HardwareOk hw) {s : State} (hs : InvOn hw s) (hf : s.fault = false) (hrun : s.blockRunning = true)
    {cs more : List Word} (hlegal : LegalControl (s.controlTaken ++ cs ++ more)) {x : Word} {r : List Input}
    (hin : s.inputs = cs.map (.word .control) ++ .word .audio x :: r) :
    ∃ k u y, SamplesRun hw s u k [(cs, x)] [y] ∧ u.inputs = r ∧ LegalControl (u.controlTaken ++ more) := by
  obtain ⟨k, P, taken, out, hk, hlegal', hcontrol⟩ :=
    run_legal_control (hw := hw) cs.length hf hs.struct.controlFraming le_rfl hlegal hin
  have hs' := (runStepsOn_keeps_inv hs hcontrol).withInputs r
  obtain ⟨u, y, hsample, hout, hmix⟩ := sampleStep_runs hok hs' hrun x
  have hstep := (stepOn_sample hw (s := withControl P taken out (.word .audio x :: r) s) hf hrun rfl).trans hsample
  have hleft := samplesLeft_sample hs' hrun hsample
  have halone (P taken out ins) : stepOn hw (withControl P taken out (.word .audio x :: ins) s) =
      .next (withControl P taken out ins u) :=
    (stepOn_sample hw (s := withControl P taken out (.word .audio x :: ins) s) hf hrun rfl).trans
      (sampleStep_withControl hsample P taken out ins)
  obtain ⟨_, _, _, _, _, _, rfl⟩ := sampleStep_frame hsample
  refine ⟨k + 1, _, y, ⟨?_, ?_, rfl, hout, rfl, rfl, rfl, rfl, hleft, fun hzero => ?_,
    fun P taken out ins => runStepsOn_succ (halone P taken out ins) 0⟩, rfl, hlegal'⟩
  · rw [Interleaved.inputs_cons, List.length_append, List.length_map, List.length_cons]
    omega
  · rw [runStepsOn_add hcontrol, runStepsOn_succ hstep, runStepsOn_zero]
  · rw [hmix hzero]
    rfl

/-- All the samples that a running block still has to come, with legal CONTROL words between them. -/
theorem run_samples (hok : HardwareOk hw) (body : Interleaved) (rest : List Input) {s : State} (hs : InvOn hw s)
    (hf : s.fault = false) (hleft : samplesLeft s = body.length) (hlegal : LegalControl (s.controlTaken ++ body.control))
    (hin : s.inputs = body.inputs ++ rest) : ∃ k t ys, SamplesRun hw s t k body ys ∧ t.inputs = rest := by
  induction body generalizing s with
  | nil => exact ⟨0, s, [], SamplesRun.refl s, hin⟩
  | cons entry body ih =>
    obtain ⟨cs, x⟩ := entry
    rw [Interleaved.inputs_cons, List.append_assoc, List.cons_append] at hin
    have hrun := running_of_samplesLeft (s := s) (by rw [hleft]; simp)
    obtain ⟨j, u, y, hentry, hins, hlegal'⟩ := run_entry hok hs hf hrun (more := Interleaved.control body)
      (by simpa [Interleaved.control, List.append_assoc] using hlegal) hin
    have hleft' : samplesLeft u = List.length body := by
      have hcount := hentry.left
      rw [hleft] at hcount
      simpa using hcount.symm
    obtain ⟨k, t, ys, hsamples, hins'⟩ :=
      ih (runStepsOn_keeps_inv hs hentry.run) (hentry.fault.trans hf) hleft' hlegal' hins
    exact ⟨j + k, t, y :: ys, hentry.append hsamples, hins'⟩

/-! ## PROCESS with its whole payload -/

/-- The first step of PROCESS, at a command boundary of a Prepared engine (R159). -/
theorem stepOn_process {s : State} (hs : AwaitsHeader .audio s) (he : s.engineState = .prepared) {n : Nat}
    (hn : n ≤ s.maxBlk.toNat) (hn24 : n < 2 ^ 24) {ins : List Input}
    (hin : s.inputs = (encode (.process n)).map (.word .audio) ++ ins) :
    stepOn hw s = .next (beginBlock n (latch (respond .audio stOk { s with inputs := ins }))) := by
  obtain ⟨hf, htaken, hrun⟩ := hs
  rw [stepOn_resumed (i := .process n) (k := 0) hf (wellFormed_process.mpr hn24) (by simp [encode]) hrun htaken hin]
  rcases execProcess_cases n (State.setTaken .audio [] { s with inputs := ins }) with ⟨hft, -⟩ | ⟨-, hun, -⟩ |
    ⟨-, -, hlong, -⟩ | ⟨-, -, -, hnext⟩
  · exact absurd (hf.symm.trans hft) (by simp)
  · exact absurd (he.symm.trans hun) (by simp)
  · exact absurd hlong (not_lt.mpr hn)
  · have htaken' : State.setTaken .audio [] { s with inputs := ins } = { s with inputs := ins } := setTaken_self htaken
    rw [htaken'] at hnext
    exact (congrArg (execOn hw (.process n)) htaken').trans hnext

/-- PROCESS with its whole payload and legal CONTROL words between the samples (R159, R163). -/
theorem run_block (hok : HardwareOk hw) {s : State} {n : Nat} {body : Interleaved} {rest : List Input} (hs : InvOn hw s)
    (hawaits : AwaitsHeader .audio s) (he : s.engineState = .prepared) (hn : n ≤ s.maxBlk.toNat) (hn24 : n < 2 ^ 24)
    (hlen : body.length = s.nch * n) (hlegal : LegalControl (s.controlTaken ++ body.control))
    (hin : s.inputs = (encode (.process n)).map (.word .audio) ++ body.inputs ++ rest) :
    ∃ k t ys, k ≤ (encode (.process n)).length + body.inputs.length ∧ runStepsOn hw k s = .next t ∧
      ys.length = s.nch * n ∧ t.audioOut = s.audioOut ++ stOk :: ys ∧ t.inputs = rest ∧ AwaitsHeader .audio t ∧
      t.engineState = .prepared ∧ (feq s.params.mix posZero = true → ys = body.samples) ∧
      runStepsOn hw (1 + s.nch * n) { s with inputs := (encode (.process n) ++ body.samples).map (.word .audio) ++ rest } =
        .next (withControl s.params s.controlTaken s.controlOut rest t) := by
  rw [List.append_assoc] at hin
  have hstep := stepOn_process (hw := hw) hawaits he hn hn24 hin
  have halone := stepOn_process (hw := hw)
    (s := { s with inputs := (encode (.process n) ++ body.samples).map (.word .audio) ++ rest }) hawaits he hn hn24
    (ins := body.samples.map (.word .audio) ++ rest) (by simp)
  have hs' := stepOn_keeps_inv hs hstep
  obtain ⟨hf, htaken, -⟩ := hawaits
  have hleft : samplesLeft (beginBlock n (latch (respond .audio stOk { s with inputs := body.inputs ++ rest }))) = s.nch * n :=
    samplesLeft_beginBlock n _
  obtain ⟨k, t, ys, h, hins⟩ := run_samples hok body rest hs' hf (hleft.trans hlen.symm) hlegal rfl
  have hdone : samplesLeft t = 0 := by
    have hcount := h.left
    rw [hleft, hlen] at hcount
    omega
  refine ⟨k + 1, t, ys, ?_, (runStepsOn_succ hstep k).trans h.run, h.answers.trans hlen, ?_, hins,
    ⟨h.fault.trans hf, h.audioTaken.trans htaken, fun _ => not_running_of_samplesLeft (runStepsOn_keeps_inv hs' h.run) hdone⟩,
    h.engineState.trans he, h.bypass, ?_⟩
  · have hsteps := h.steps
    rw [show (encode (.process n)).length = 1 from rfl]
    omega
  · rw [h.out, beginBlock_audioOut, latch_audioOut, respond_audio_audioOut, List.append_assoc]
    rfl
  · rw [Nat.add_comm, ← hlen, runStepsOn_succ halone]
    exact h.alone s.params s.controlTaken s.controlOut rest

end

/-! ## The statements -/

/-- Settles O56: the run of the block, and beside it the run of its AUDIO words alone. -/
theorem blockAnswersEverySample : Obligations.BlockAnswersEverySample := by
  intro hw s n body rest hok hs hawaits he hn hn24 hlen hlegal hin
  obtain ⟨k, t, ys, hk, hrun, hys, hout, hins, hawaits', he', -, halone⟩ :=
    run_block hok hs hawaits he hn hn24 hlen hlegal hin
  exact ⟨k, t, _, ys, hk, hrun, hys, hout, hins, hawaits', he', halone, rfl, rfl, rfl, hawaits'⟩

/-- Settles O57: at mix zero each sample is answered by itself. -/
theorem bypassReturnsTheBlockUnchanged : Obligations.BypassReturnsTheBlockUnchanged := by
  intro hw s n body rest hok hs hawaits he hn hn24 hlen hlegal hmix hin
  obtain ⟨k, t, ys, hk, hrun, -, hout, hins, -, -, hbypass, -⟩ := run_block hok hs hawaits he hn hn24 hlen hlegal hin
  exact ⟨k, t, hk, hrun, by rw [hout, hbypass hmix]; rfl, hins⟩

end Sys2Proof.Machine
end
